-- ==== Sys2Proof/Word.lean ====
section
/-! DEFINITION. The machine's words: bytes, 32-bit bus words and symbol codes, 256-bit registers, word
addresses of the host window. The widths are the parameters of 00_scope.md R8, named in Config.lean; they
stand here as literals, and Laws/Config.lean proves them equal. -/

namespace Sys2Proof

/-- One byte of a byte string or buffer (00_scope.md R13). -/
abbrev Byte := BitVec 8

/-- One 32-bit word: a bus word, a command word, a symbol code (R14, R46, R63). -/
abbrev Word := BitVec 32

/-- A 256-bit register value (10_state.md R21). -/
abbrev Big := BitVec 256

/-- A word address of the host window, `addr[15:2]` (20_memory.md R46, R53). -/
abbrev Addr := BitVec 14

end Sys2Proof
end

