-- ==== Sys2Proof/Config.lean ====
section
/-! DEFINITION. What the implementation fixes (00_scope.md R8) and what the spec leaves open: the decided
parameters as constants, the OPEN parameters and the draws as constants without a body. -/

namespace Sys2Proof.Config

/-- `W`: scalar and field-element width in bits (R8). -/
def scalarBits : Nat := 256

/-- `TRACE_DEPTH`: records per trace (R8). -/
def traceDepth : Nat := 256

/-- `ALPHA_SIZE`: symbols in a valid Base40 alphabet (R8). -/
def alphaSize : Nat := 40

/-- `B58_SIZE`: symbols in the Base58 alphabet (R8). -/
def b58Size : Nat := 58

/-- `HOST_DATA_WIDTH`: bits of the host bus, the width of `Word` (R8). -/
def hostDataWidth : Nat := 32

/-- `HOST_OFFSET_WIDTH`: bits of a byte offset in the host window; a word address, `Addr`, has the upper
14 of them (R8). -/
def hostOffsetWidth : Nat := 16

/-- `SYM_WIDTH`: bits of a symbol code, the width of `Word` again (R8). -/
def symWidth : Nat := 32

/-- `MSG_MAX`: message buffer, bytes (R8). -/
def msgMax : Nat := 128

/-- `DIG_MAX`: digest buffer, bytes (R8). -/
def digMax : Nat := 32

/-- `STR_MAX`: symbol-string buffer, entries (R8). -/
def strMax : Nat := 256

/-- `ALPHA_MAX`: alphabet RAM, entries (R8). -/
def alphaMax : Nat := 64

/-- The constant of the `ID` register (10_state.md R29). -/
def idValue : Word := 0x42343001#32

/-- Clock cycles from issue to completion less the last one, of a command word and the values of its
operands (60_exceptions.md R140). OPEN: no body, so a proof holds for every value. DESIGN CHOICE, safe
(notes/assumptions/2.md). -/
opaque waitingCycles : Word → List Nat → Nat

/-- `B40CE_LATENCY(cmd, operands)`: clock cycles from issue to completion, any positive number (R8,
60_exceptions.md R140). -/
def latency (cmd : Word) (operands : List Nat) : Nat := waitingCycles cmd operands + 1

/-- The draws: the unspecified 32-bit value of the `n`-th draw of a run (20_memory.md R57,
93_implementation_defined.md U1, U2, U3). No body: any value. Safe (notes/assumptions/3.md). -/
opaque draw : Nat → Word

/-- Whether a soft reset keeps the contents of `MSG`, `ALPHA` and `STR` or makes them unwritten: the spec
lets a model do either and asks that proofs hold for both (93_implementation_defined.md U2,
70_reset_and_hazards.md R162). No body: either. Safe (notes/assumptions/6.md). -/
opaque softResetKeepsRam : Bool

/-- `B40CE_BASE`: where the window sits in the platform's address space (R8, 20_memory.md R47). OPEN. -/
opaque base : Nat

/-- `B40CE_IRQ_LINE`: which line of the platform `irq` drives (R8, 60_exceptions.md R151). OPEN. -/
opaque irqLine : Nat

/-- How many engines the platform has beside the modelled one. OPEN (notes/assumptions/14.md). -/
opaque otherInstances : Nat

/-- `B40CE_INSTANCES`: engines on the platform, any number of at least 1 (R8, 70_reset_and_hazards.md
R174); the model is of one of them, and nothing depends on the number. -/
def instances : Nat := otherInstances + 1

end Sys2Proof.Config
end

