-- ==== Sys2Proof/Machine/State.lean ====
section
/-! DEFINITION. The architectural state of the engine (10_state.md), as plain data, with the host's
events still to come; the reasons a step can stop; the state after reset (70_reset_and_hazards.md
R160). -/

namespace Sys2Proof.Machine

/-- The error codes of 60_exceptions.md R145. `code` in Machine/Flags.lean gives the numbers. -/
inductive ErrCode where
  /-- 0x00, no error -/
  | none
  /-- 0x01, `K = 0` or `K >= n` -/
  | invalidScalar
  /-- 0x02, modular inverse of zero -/
  | divisionByZero
  /-- 0x03, wrong prefix or length of a public key, or `INF` -/
  | malformedPublicKey
  /-- 0x04, `DIG_LEN != 20` -/
  | malformedHashInput
  /-- 0x05, alphabet invalid or not validated -/
  | invalidAlphabet
  /-- 0x06, a symbol of `STR` is not in the alphabet -/
  | symbolNotFound
  /-- 0x07, `STR_LEN = 0` -/
  | emptyInput
  /-- 0x08, `DERIVE` gave `INF` -/
  | unexpectedIdentityResult
  /-- 0x09, reserved and never produced (R145, 93_implementation_defined.md U8) -/
  | invalidInput
  /-- 0x10, a command word not legal under R66 -/
  | illegalCommand
  /-- 0x11, a length register above the buffer capacity -/
  | lengthError
  /-- 0x12, decoded value at least 2^256 -/
  | overflow
  /-- 0x13, `OPM = 0` -/
  | invalidModulus
deriving DecidableEq, Repr

/-- A point register: `(INF, X, Y)` (R22). -/
structure PointReg where
  /-- 1 means the point is `INF` -/
  inf : Bool
  /-- the `X` register -/
  x : Big
  /-- the `Y` register -/
  y : Big
deriving DecidableEq, Repr

/-- One record of the trace register file, the fields of R41. -/
structure TraceRecord where
  /-- step number, `r + 1` -/
  step : BitVec 9
  /-- the scalar bit of this step -/
  bit : Bool
  /-- 0 = `Double`, 1 = `DoubleAndAdd` -/
  op : Bool
  /-- the accumulator after this step is `INF` -/
  inf : Bool
  /-- the record has angle and symbol -/
  symv : Bool
  /-- angle in degrees -/
  angle : BitVec 9
  /-- symbol index -/
  sidx : BitVec 6
  /-- symbolDelta -/
  delta : BitVec 6
  /-- the alphabet's code at `sidx` when the command ran -/
  symbol : Word
  /-- accumulator `X` after this step -/
  x : Big
  /-- accumulator `Y` after this step -/
  y : Big
deriving DecidableEq, Repr

/-- One clock cycle as the host makes it: at most one access of the window (20_memory.md R46, R53–R56),
or the reset input held low (70_reset_and_hazards.md R159). -/
inductive HostEvent where
  /-- `MemRead(4 * addr, 4)` (R55) -/
  | read (addr : Addr)
  /-- `MemWrite(4 * addr, 4, data)` (R56) -/
  | write (addr : Addr) (data : Word)
  /-- the pseudo-instruction `wait` of 30_encoding.md R72: read `STATUS`, again while bit 0 is 1 -/
  | wait
  /-- no access in this cycle -/
  | idle
  /-- `rst_n = 0` in this cycle -/
  | hardReset
deriving DecidableEq, Repr

/-- The bytes of the engine's buffers `DIG`, `MSG`, `ALPHA` and `STR`, keyed by byte offset in the host
window (20_memory.md R47); canonical form: `Memory.wf` in Machine/Memory.lean. -/
abbrev Memory := List Host.Cell

/-- Why the machine stops with a fault. -/
inductive Fault where
  /-- Raised by a command that reads a buffer entry nothing has written, inside a valid prefix
  (70_reset_and_hazards.md R161: "a fault of the model, not a value"); `offset` is the entry's byte
  offset in the window. Safe: the hardware goes on with a value the spec does not give. -/
  | unwrittenEntry (offset : Nat)
deriving DecidableEq, Repr

/-- Why a step has no meaning. -/
inductive Refusal where
  /-- Raised only by an arm of `exec` whose command has no meaning yet; no arm is one. Safe. -/
  | notModelled (mnemonic : String)
deriving DecidableEq, Repr

/-- The machine: the registers and buffers of 10_state.md, and four fields of the model's own (`bus`,
`latencyLeft`, `rdata`, `draws`). -/
structure State where
  /-- `CTRL.IRQ_EN` (R25) -/
  irqEn : Bool
  /-- `LASTCMD`, the last command word issued (R26); the running command while `BUSY = 1` -/
  lastcmd : Word
  /-- `STATUS.BUSY` (R24) -/
  busy : Bool
  /-- `STATUS.DONE` (R24) -/
  doneFlag : Bool
  /-- `STATUS.ERR` (R24) -/
  errFlag : Bool
  /-- `STATUS.RESULT` (R24, R32) -/
  resultFlag : Bool
  /-- `STATUS.TRACE_VALID` (R24, R34) -/
  traceValid : Bool
  /-- `STATUS.ALPHA_VALID` (R24, R33) -/
  alphaValid : Bool
  /-- `STATUS.OVR` (R24, R35) -/
  ovr : Bool
  /-- `STATUS.ERRCODE` (R24) -/
  errcode : ErrCode
  /-- `IRQ.DONE_PEND` (R27) -/
  donePend : Bool
  /-- `MSG_LEN` (R28) -/
  msgLen : BitVec 9
  /-- `STR_LEN` (R28) -/
  strLen : BitVec 9
  /-- `DIG_LEN` (R28) -/
  digLen : BitVec 6
  /-- `ALPHA_LEN` (R28) -/
  alphaLen : BitVec 7
  /-- `TRACE_LEN` (R30) -/
  traceLen : BitVec 9
  /-- `ERRINFO` (R31) -/
  errinfo : Word
  /-- `K`, scalar (R21) -/
  k : Big
  /-- `OPA`, operand A (R21) -/
  opa : Big
  /-- `OPB`, operand B, exponent (R21) -/
  opb : Big
  /-- `OPM`, modulus (R21) -/
  opm : Big
  /-- `RES`, integer result (R21) -/
  res : Big
  /-- `P1` (R22, R23) -/
  p1 : PointReg
  /-- `P2` (R22, R23) -/
  p2 : PointReg
  /-- `PR` (R22, R23) -/
  pr : PointReg
  /-- `DIG`, `MSG`, `ALPHA`, `STR` (R36–R39) -/
  mem : Memory
  /-- `TRACE` (R41): the records, index 0 first; nothing while `TRACE_VALID = 0`
  (notes/assumptions/9.md) -/
  trace : List TraceRecord
  /-- MODEL: the host's events still to come, the next first (notes/assumptions/1.md) -/
  bus : List HostEvent
  /-- MODEL: clock cycles that still pass before the running command may complete
  (notes/assumptions/2.md) -/
  latencyLeft : Nat
  /-- MODEL: the word the last host read returned (notes/assumptions/4.md) -/
  rdata : Word
  /-- MODEL: how many free values have been drawn (notes/assumptions/3.md) -/
  draws : Nat
deriving DecidableEq, Repr

/-- The point register value 0 of R22: `Aff(0, 0)`. -/
def PointReg.zero : PointReg := { inf := false, x := 0, y := 0 }

/-- The machine right after reset, the table of 70_reset_and_hazards.md R160; the four MODEL fields are
a DESIGN CHOICE (notes/assumptions/1.md to 4.md). -/
def State.reset : State where
  irqEn := false
  lastcmd := 0
  busy := false
  doneFlag := false
  errFlag := false
  resultFlag := false
  traceValid := false
  alphaValid := false
  ovr := false
  errcode := .none
  donePend := false
  msgLen := 0
  strLen := 0
  digLen := 0
  alphaLen := 0
  traceLen := 0
  errinfo := 0
  k := 0
  opa := 0
  opb := 0
  opm := 0
  res := 0
  p1 := .zero
  p2 := .zero
  pr := .zero
  mem := []
  trace := []
  bus := []
  latencyLeft := 0
  rdata := 0
  draws := 0

end Sys2Proof.Machine
end

