-- ==== Sys2Proof/Machine/Flags.lean ====
section
/-! DEFINITION. The status and control words the host reads, bit by bit (10_state.md R23–R31), the
numbers of the error codes (60_exceptions.md R145), and the interrupt output (R151). -/

namespace Sys2Proof.Machine

/-- The numbers of R145. -/
def ErrCode.code : ErrCode → BitVec 8
  | .none => 0x00
  | .invalidScalar => 0x01
  | .divisionByZero => 0x02
  | .malformedPublicKey => 0x03
  | .malformedHashInput => 0x04
  | .invalidAlphabet => 0x05
  | .symbolNotFound => 0x06
  | .emptyInput => 0x07
  | .unexpectedIdentityResult => 0x08
  | .invalidInput => 0x09
  | .illegalCommand => 0x10
  | .lengthError => 0x11
  | .overflow => 0x12
  | .invalidModulus => 0x13

/-- One flag as a one-bit field. -/
def flagBit (b : Bool) : BitVec 1 := BitVec.ofBool b

/-- The `STATUS` word (R24): `ERRCODE` in [15:8], reserved bit 7, then `OVR`, `ALPHA_VALID`,
`TRACE_VALID`, `RESULT`, `ERR`, `DONE`, `BUSY` down to bit 0. -/
def State.statusWord (s : State) : Word :=
  0#16 ++ s.errcode.code ++ 0#1 ++ flagBit s.ovr ++ flagBit s.alphaValid ++ flagBit s.traceValid ++
    flagBit s.resultFlag ++ flagBit s.errFlag ++ flagBit s.doneFlag ++ flagBit s.busy

/-- The `CTRL` word (R25): `IRQ_EN` in bit 1; `SRST` reads 0. -/
def State.ctrlWord (s : State) : Word := 0#30 ++ flagBit s.irqEn ++ 0#1

/-- The `IRQ` word (R27): `DONE_PEND` in bit 0. -/
def State.irqWord (s : State) : Word := 0#31 ++ flagBit s.donePend

/-- The `PTAG` word (R23): `PR_INF`, `P2_INF`, `P1_INF` in bits 2, 1, 0. -/
def State.ptagWord (s : State) : Word := 0#29 ++ flagBit s.pr.inf ++ flagBit s.p2.inf ++ flagBit s.p1.inf

/-- The interrupt output, level-sensitive (R151). -/
def State.irq (s : State) : Bool := s.irqEn && s.donePend

/-- The platform's lines as the engine drives them: only `B40CE_IRQ_LINE` carries `irq` (R8, R151). -/
def State.platformLine (s : State) (line : Nat) : Bool := decide (line = Config.irqLine) && s.irq

/-- Word `w0` of a record: `SYMV`, `INF`, `OP`, `BIT` in bits 12 to 9, `STEP` in [8:0] (R42). -/
def TraceRecord.word0 (r : TraceRecord) : Word :=
  0#19 ++ flagBit r.symv ++ flagBit r.inf ++ flagBit r.op ++ flagBit r.bit ++ r.step

/-- Word `w1` of a record: `DELTA` in [29:24], `SIDX` in [21:16], `ANGLE` in [8:0] (R42). -/
def TraceRecord.word1 (r : TraceRecord) : Word :=
  0#2 ++ r.delta ++ 0#2 ++ r.sidx ++ 0#7 ++ r.angle

end Sys2Proof.Machine
end

