-- ==== Sys2Proof/Machine/Bytes.lean ====
section
/-! DEFINITION. Byte strings, their integer readings, and the fields of 256-bit registers (00_scope.md
R11, R13; 20_memory.md R49, R50). -/

namespace Sys2Proof.Machine

/-- `int_be(s)`, the big-endian unsigned reading; 0 for the empty string (R13). -/
def intBe (s : List Byte) : Nat := s.foldl (fun v b => v * 256 + b.toNat) 0

/-- `bytes_be(v, n)`, the `n`-byte big-endian string of `v` (R13). -/
def bytesBe (v n : Nat) : List Byte :=
  (List.range n).map fun i => BitVec.ofNat 8 (v / 256 ^ (n - 1 - i))

/-- `bytes_le(v, n)`, least-significant byte first (44_hash.md R114). -/
def bytesLe (v n : Nat) : List Byte :=
  (List.range n).map fun i => BitVec.ofNat 8 (v / 256 ^ i)

/-- A string cut or zero-filled to exactly `n` entries (60_exceptions.md R147). -/
def padTo {w : Nat} (n : Nat) (s : List (BitVec w)) : List (BitVec w) :=
  s.take n ++ List.replicate (n - s.length) 0#w

/-- Word `j` of a 256-bit register, `V[255 - 32*j : 224 - 32*j]` (R50). -/
def bigWord (v : Big) (j : Nat) : Word := v.extractLsb' (224 - 32 * j) 32

/-- A 256-bit register with word `j` replaced (R50, R56). -/
def setBigWord (v : Big) (j : Nat) (w : Word) : Big :=
  (v &&& ~~~((0xFFFFFFFF#256) <<< (224 - 32 * j))) ||| (w.setWidth 256 <<< (224 - 32 * j))

/-- The word that four bytes make, first byte in bits [31:24] (R51). -/
def wordOfBytes (b0 b1 b2 b3 : Byte) : Word := b0 ++ b1 ++ b2 ++ b3

/-- The four bytes of a word, bits [31:24] first (R51). -/
def bytesOfWord (w : Word) : List Byte :=
  [w.extractLsb' 24 8, w.extractLsb' 16 8, w.extractLsb' 8 8, w.extractLsb' 0 8]

end Sys2Proof.Machine
end

