-- ==== Sys2Proof/Machine/Comp.lean ====
section
/-! DEFINITION. The result of a command's computation before it is written back: the pseudocode's
`raise E(info)` and the model's fault beside a value (00_scope.md R16). -/

namespace Sys2Proof.Machine

/-- Why a computation ends without a value. -/
inductive Stop where
  /-- `raise E(info)` (R16, 60_exceptions.md R144) -/
  | raise (e : ErrCode) (info : Word)
  /-- the model's fault of 70_reset_and_hazards.md R161 -/
  | fault (f : Fault)
deriving DecidableEq, Repr

/-- A command's computation: a value, a raised error or a fault. The first stop ends it (R16, R149). -/
abbrev Comp (α : Type) := Except Stop α

/-- `raise E(info)`. -/
def raise {α : Type} (e : ErrCode) (info : Word) : Comp α := .error (.raise e info)

/-- A check of a command rule: raise `e` unless `ok` holds (R149). -/
def require (ok : Bool) (e : ErrCode) (info : Word) : Comp Unit :=
  if ok then .ok () else raise e info

end Sys2Proof.Machine
end

