-- ==== Sys2Proof/Machine/Memory.lean ====
section
/-! DEFINITION. The engine's buffers as one byte memory keyed by byte offset in the host window
(10_state.md R36–R39, 20_memory.md R47, R51, R52, R58). -/

namespace Sys2Proof.Machine

/-- Base offset of `DIG` (R37). -/
def digBase : Nat := 0x200

/-- Base offset of `MSG` (R36). -/
def msgBase : Nat := 0x400

/-- Base offset of `ALPHA` (R38). -/
def alphaBase : Nat := 0x800

/-- Base offset of `STR` (R39). -/
def strBase : Nat := 0x1000

/-- What an unlisted address reads as: 0 in `DIG`, which reset clears (R37, 70_reset_and_hazards.md
R160); nothing anywhere else, since the RAMs are unwritten after reset (R161, notes/assumptions/5.md). -/
def Memory.unlisted (a : Nat) : Option Byte :=
  if digBase ≤ a ∧ a < digBase + Config.digMax then some 0 else none

/-- The canonical form: addresses strictly rising, and no entry equal to what an unlisted address reads
as. -/
def Memory.wf (m : Memory) : Bool :=
  decide (m.Pairwise fun c d => c.1 < d.1) && m.all fun c => decide (Memory.unlisted c.1 ≠ some c.2)

/-- One byte of memory; `none` when nothing has written it. -/
def Memory.read (m : Memory) (a : Nat) : Option Byte :=
  match m.lookup a with
  | some b => some b
  | none => Memory.unlisted a

/-- The entries of a byte string stored from `a` on, less those an unlisted address reads as anyway. -/
def Memory.cells : Nat → List Byte → Memory
  | _, [] => []
  | a, b :: bs =>
    if Memory.unlisted a = some b then Memory.cells (a + 1) bs
    else (a, b) :: Memory.cells (a + 1) bs

/-- Store a byte string from `a` on, keeping the canonical form. -/
def Memory.write (m : Memory) (a : Nat) (bs : List Byte) : Memory :=
  m.filter (fun c => decide (c.1 < a)) ++ Memory.cells a bs ++
    m.filter (fun c => decide (a + bs.length ≤ c.1))

/-- The word at a word-aligned offset (R51, R52); `none` when a byte of it is unwritten. -/
def Memory.readWord (m : Memory) (a : Nat) : Option Word :=
  match m.read a, m.read (a + 1), m.read (a + 2), m.read (a + 3) with
  | some b0, some b1, some b2, some b3 => some (wordOfBytes b0 b1 b2 b3)
  | _, _, _, _ => none

/-- Store one word at a word-aligned offset (R51, R52, R56). -/
def Memory.writeWord (m : Memory) (a : Nat) (w : Word) : Memory := m.write a (bytesOfWord w)

/-- Store a symbol string from `a` on, one word a symbol (R52). -/
def Memory.writeWords (m : Memory) (a : Nat) (ws : List Word) : Memory :=
  m.write a (ws.flatMap bytesOfWord)

/-- An engine read of one byte: a fault where nothing has written it (R161). -/
def Memory.byteAt (m : Memory) (a : Nat) : Comp Byte :=
  match m.read a with
  | some b => .ok b
  | none => .error (.fault (.unwrittenEntry a))

/-- An engine read of `n` bytes as a byte string, index 0 first (R58). -/
def Memory.readBytes (m : Memory) (a : Nat) : Nat → Comp (List Byte)
  | 0 => .ok []
  | n + 1 => do
    let b ← m.byteAt a
    let bs ← m.readBytes (a + 1) n
    return b :: bs

/-- `n` symbol entries from `a` on, each `none` when unwritten (R52, R161). -/
def Memory.entries (m : Memory) (a n : Nat) : List (Option Word) :=
  (List.range n).map fun j => m.readWord (a + 4 * j)

/-- An engine read of one symbol entry: a fault where nothing has written it (R161). -/
def Memory.wordAt (m : Memory) (a : Nat) : Comp Word :=
  match m.readWord a with
  | some w => .ok w
  | none => .error (.fault (.unwrittenEntry a))

/-- An engine read of `n` symbols as a symbol string, index 0 first (R58). -/
def Memory.readWords (m : Memory) (a : Nat) : Nat → Comp (List Word)
  | 0 => .ok []
  | n + 1 => do
    let w ← m.wordAt a
    let ws ← m.readWords (a + 4) n
    return w :: ws

end Sys2Proof.Machine
end

