-- ==== Sys2Proof/Machine/Ops.lean ====
section
/-! DEFINITION. The shared operations of the command lifecycle: success, failure (the engine's one
exception entry), reset (60_exceptions.md R143, R144, R152, R153; 70_reset_and_hazards.md R160–R163). -/

namespace Sys2Proof.Machine

/-- Successful completion, after the command's updates are applied (R143). -/
def State.succeed (s : State) (result : Bool) : State :=
  { s with
    busy := false
    doneFlag := true
    errFlag := false
    errcode := .none
    errinfo := 0
    resultFlag := result
    donePend := true }

/-- Failing completion: the engine's one way of taking an exception (R144, R152). It saves the error
code, the auxiliary value and the flag, raises the completion interrupt's pending bit, keeps `LASTCMD`,
and transfers no control. There is no return from it (R153): the next issue clears the status. -/
def State.fail (s : State) (e : ErrCode) (info : Word) : State :=
  { s with
    busy := false
    doneFlag := true
    errFlag := true
    errcode := e
    errinfo := info
    resultFlag := false
    donePend := true }

/-- Complete a command whose computation gave the state with its updates applied, raised an error, or
met the model's fault. A raised error leaves every update undone (R144). -/
def State.conclude (s : State) (c : Comp State) : Host.Outcome State Fault Refusal :=
  match c with
  | .ok t => .next (t.succeed false)
  | .error (.raise e info) => .next (s.fail e info)
  | .error (.fault f) => .fault f

/-- A hard reset (R159, R160, R163): every piece of the engine's state at its reset value, a running
command abandoned, the RAMs unwritten (R161). The host's events still to come, the word on the read bus and
the draw count are not the engine's and stay. -/
def State.resetEngine (s : State) : State :=
  { State.reset with bus := s.bus, rdata := s.rdata, draws := s.draws }

/-- A soft reset (R162): the same, but that the RAMs may keep their contents; `DIG` is cleared
(notes/assumptions/6.md). -/
def State.softReset (s : State) : State :=
  { s.resetEngine with
    mem := if Config.softResetKeepsRam then s.mem.write digBase (List.replicate Config.digMax 0) else [] }

end Sys2Proof.Machine
end

