-- ==== Sys2Proof/Machine/Operands.lean ====
section
/-! DEFINITION. Reading a command's operands and writing its results (10_state.md R21–R23, R28,
R36–R39; 20_memory.md R58; 60_exceptions.md R147). -/

namespace Sys2Proof.Machine

/-- A point value (00_scope.md R15); equality is of the raw coordinates. -/
inductive Point where
  /-- the neutral element -/
  | inf
  /-- an affine point, on the curve or not -/
  | aff (x y : Big)
deriving DecidableEq, Repr

/-- `pt(Pq)` (R22). -/
def PointReg.pt (r : PointReg) : Point := if r.inf then .inf else .aff r.x r.y

/-- A point value as a command writes it: `INF` with both coordinates 0 (R23). -/
def Point.toReg : Point → PointReg
  | .inf => { inf := true, x := 0, y := 0 }
  | .aff x y => { inf := false, x := x, y := y }

/-- `MSG[0:n]` (R36, R58). -/
def State.msgString (s : State) (n : Nat) : Comp (List Byte) := s.mem.readBytes msgBase n

/-- `DIG[0:n]` (R37, R58). -/
def State.digString (s : State) (n : Nat) : Comp (List Byte) := s.mem.readBytes digBase n

/-- `ALPHA[0:40]` of a validated alphabet (R38, R58). -/
def State.alphabet (s : State) : Comp (List Word) := s.mem.readWords alphaBase Config.alphaSize

/-- The valid prefix of `MSG` for a command that checks the length against the capacity first (R58,
44_hash.md R117). -/
def State.message (s : State) : Comp (List Byte) := do
  require (decide (s.msgLen.toNat ≤ Config.msgMax)) .lengthError (s.msgLen.setWidth 32)
  s.msgString s.msgLen.toNat

/-- `RES <- v`. -/
def State.putRes (s : State) (v : Nat) : State := { s with res := BitVec.ofNat 256 v }

/-- `PR <- R`, the three fields together (R23). -/
def State.putPR (s : State) (r : Point) : State := { s with pr := r.toReg }

/-- `DIG[0:len(d)] <- d`, zero-filled, and `DIG_LEN` (R147). -/
def State.putDig (s : State) (d : List Byte) : State :=
  { s with mem := s.mem.write digBase (padTo Config.digMax d), digLen := BitVec.ofNat 6 d.length }

/-- `MSG[0:len(m)] <- m`, zero-filled, and `MSG_LEN` (R147). -/
def State.putMsg (s : State) (m : List Byte) : State :=
  { s with mem := s.mem.write msgBase (padTo Config.msgMax m), msgLen := BitVec.ofNat 9 m.length }

/-- `STR[0:len(t)] <- t`, zero-filled, and `STR_LEN` (R147). -/
def State.putStr (s : State) (t : List Word) : State :=
  { s with
    mem := s.mem.writeWords strBase (padTo Config.strMax t)
    strLen := BitVec.ofNat 9 t.length }

/-- `TRACE[0:256] <- trace; TRACE_LEN <- 256; STATUS.TRACE_VALID <- 1` (43_scalar.md R105). -/
def State.putTrace (s : State) (t : List TraceRecord) : State :=
  { s with trace := t, traceLen := BitVec.ofNat 9 t.length, traceValid := true }

end Sys2Proof.Machine
end

