-- ==== Sys2Proof/Machine/Hash.lean ====
section
/-! DEFINITION. The hash unit: SHA-256, RIPEMD-160 and `SHA256`, `RMD160`, `HASH160`, `CHKSUM`
(44_hash.md). Words are 32-bit and `+` wraps (R110). -/

namespace Sys2Proof.Machine

/-- Rotate a word right (R110). -/
def rotr (x : Word) (c : Nat) : Word := x.rotateRight c

/-- Rotate a word left (R110). -/
def rotl (x : Word) (c : Nat) : Word := x.rotateLeft c

/-- How many zero bytes the padding of R111 and R114 puts after `0x80`: the least number that makes the
padded length a multiple of 64. -/
def padZeros (len : Nat) : Nat := (64 - (len + 9) % 64) % 64

/-- The 16-word blocks of a word string whose length is a multiple of 16: `n` of them. -/
def blocks : (n : Nat) → List Word → List (List Word)
  | 0, _ => []
  | n + 1, ws => ws.take 16 :: blocks n (ws.drop 16)

/-- Big-endian words of a byte string (R111). -/
def wordsBe : List Byte → List Word
  | b0 :: b1 :: b2 :: b3 :: bs => (b0 ++ b1 ++ b2 ++ b3) :: wordsBe bs
  | _ => []

/-- Little-endian words of a byte string (R114). -/
def wordsLe : List Byte → List Word
  | b0 :: b1 :: b2 :: b3 :: bs => (b3 ++ b2 ++ b1 ++ b0) :: wordsLe bs
  | _ => []

/-- The padded message of SHA-256 (R111). -/
def sha256Pad (m : List Byte) : List Byte :=
  m ++ 0x80#8 :: (List.replicate (padZeros m.length) 0#8 ++ bytesBe (8 * m.length) 8)

/-- The blocks of SHA-256 (R111). -/
def sha256Blocks (m : List Byte) : List (List Word) :=
  let ws := wordsBe (sha256Pad m)
  blocks (ws.length / 16) ws

/-- The round constants `K[0..63]` (R112). -/
def sha256K : List Word :=
  [0x428A2F98, 0x71374491, 0xB5C0FBCF, 0xE9B5DBA5, 0x3956C25B, 0x59F111F1,
   0x923F82A4, 0xAB1C5ED5, 0xD807AA98, 0x12835B01, 0x243185BE, 0x550C7DC3,
   0x72BE5D74, 0x80DEB1FE, 0x9BDC06A7, 0xC19BF174, 0xE49B69C1, 0xEFBE4786,
   0x0FC19DC6, 0x240CA1CC, 0x2DE92C6F, 0x4A7484AA, 0x5CB0A9DC, 0x76F988DA,
   0x983E5152, 0xA831C66D, 0xB00327C8, 0xBF597FC7, 0xC6E00BF3, 0xD5A79147,
   0x06CA6351, 0x14292967, 0x27B70A85, 0x2E1B2138, 0x4D2C6DFC, 0x53380D13,
   0x650A7354, 0x766A0ABB, 0x81C2C92E, 0x92722C85, 0xA2BFE8A1, 0xA81A664B,
   0xC24B8B70, 0xC76C51A3, 0xD192E819, 0xD6990624, 0xF40E3585, 0x106AA070,
   0x19A4C116, 0x1E376C08, 0x2748774C, 0x34B0BCB5, 0x391C0CB3, 0x4ED8AA4A,
   0x5B9CCA4F, 0x682E6FF3, 0x748F82EE, 0x78A5636F, 0x84C87814, 0x8CC70208,
   0x90BEFFFA, 0xA4506CEB, 0xBEF9A3F7, 0xC67178F2]

/-- The eight working words `a` to `h`, and the hash value `H[0..7]` (R112, R113). -/
structure ShaState where
  /-- `a`, `H[0]` -/
  a : Word
  /-- `b`, `H[1]` -/
  b : Word
  /-- `c`, `H[2]` -/
  c : Word
  /-- `d`, `H[3]` -/
  d : Word
  /-- `e`, `H[4]` -/
  e : Word
  /-- `f`, `H[5]` -/
  f : Word
  /-- `g`, `H[6]` -/
  g : Word
  /-- `h`, `H[7]` -/
  h : Word
deriving DecidableEq, Repr

/-- The initial hash value `H0` (R112). -/
def sha256H0 : ShaState :=
  { a := 0x6A09E667, b := 0xBB67AE85, c := 0x3C6EF372, d := 0xA54FF53A,
    e := 0x510E527F, f := 0x9B05688C, g := 0x1F83D9AB, h := 0x5BE0CD19 }

/-- `W[t]` from the words before it, the latest first (R113). -/
def sha256Next (ws : List Word) : Word :=
  let s0 := rotr (ws.getD 14 0) 7 ^^^ rotr (ws.getD 14 0) 18 ^^^ (ws.getD 14 0 >>> 3)
  let s1 := rotr (ws.getD 1 0) 17 ^^^ rotr (ws.getD 1 0) 19 ^^^ (ws.getD 1 0 >>> 10)
  ws.getD 15 0 + s0 + ws.getD 6 0 + s1

/-- Extend the schedule by `n` words, the latest first (R113). -/
def sha256Extend : (n : Nat) → List Word → List Word
  | 0, ws => ws
  | n + 1, ws => sha256Extend n (sha256Next ws :: ws)

/-- The schedule `W[0..63]` of a block (R113). -/
def sha256Schedule (block : List Word) : List Word := (sha256Extend 48 block.reverse).reverse

/-- One round with its `K[t]` and `W[t]` (R113). -/
def sha256Round (s : ShaState) (kw : Word × Word) : ShaState :=
  let S1 := rotr s.e 6 ^^^ rotr s.e 11 ^^^ rotr s.e 25
  let ch := (s.e &&& s.f) ^^^ (~~~s.e &&& s.g)
  let T1 := s.h + S1 + ch + kw.1 + kw.2
  let S0 := rotr s.a 2 ^^^ rotr s.a 13 ^^^ rotr s.a 22
  let mj := (s.a &&& s.b) ^^^ (s.a &&& s.c) ^^^ (s.b &&& s.c)
  let T2 := S0 + mj
  { a := T1 + T2, b := s.a, c := s.b, d := s.c, e := s.d + T1, f := s.e, g := s.f, h := s.g }

/-- One block (R113). -/
def sha256Block (H : ShaState) (block : List Word) : ShaState :=
  let v := (sha256K.zip (sha256Schedule block)).foldl sha256Round H
  { a := H.a + v.a, b := H.b + v.b, c := H.c + v.c, d := H.d + v.d,
    e := H.e + v.e, f := H.f + v.f, g := H.g + v.g, h := H.h + v.h }

/-- `sha256(m)`, 32 bytes (R113). -/
def sha256 (m : List Byte) : List Byte :=
  let H := (sha256Blocks m).foldl sha256Block sha256H0
  [H.a, H.b, H.c, H.d, H.e, H.f, H.g, H.h].flatMap bytesOfWord

/-- The padded message of RIPEMD-160 (R114). -/
def ripemdPad (m : List Byte) : List Byte :=
  m ++ 0x80#8 :: (List.replicate (padZeros m.length) 0#8 ++ bytesLe (8 * m.length) 8)

/-- The blocks of RIPEMD-160 (R114). -/
def ripemdBlocks (m : List Byte) : List (List Word) :=
  let ws := wordsLe (ripemdPad m)
  blocks (ws.length / 16) ws

/-- The Boolean functions `f(j, x, y, z)` (R115). -/
def ripemdF (j : Nat) (x y z : Word) : Word :=
  if j ≤ 15 then x ^^^ y ^^^ z
  else if j ≤ 31 then (x &&& y) ||| (~~~x &&& z)
  else if j ≤ 47 then (x ||| ~~~y) ^^^ z
  else if j ≤ 63 then (x &&& z) ||| (y &&& ~~~z)
  else x ^^^ (y ||| ~~~z)

/-- Left-line constants `K(j)` by `j div 16` (R115). -/
def ripemdK : List Word := [0x00000000, 0x5A827999, 0x6ED9EBA1, 0x8F1BBCDC, 0xA953FD4E]

/-- Right-line constants `K'(j)` by `j div 16` (R115). -/
def ripemdK' : List Word := [0x50A28BE6, 0x5C4DD124, 0x6D703EF3, 0x7A6D76E9, 0x00000000]

/-- Left-line word selection `r(j)` (R115). -/
def ripemdR : List Nat :=
  [0, 1, 2, 3, 4, 5, 6, 7, 8, 9, 10, 11, 12, 13, 14, 15,
   7, 4, 13, 1, 10, 6, 15, 3, 12, 0, 9, 5, 2, 14, 11, 8,
   3, 10, 14, 4, 9, 15, 8, 1, 2, 7, 0, 6, 13, 11, 5, 12,
   1, 9, 11, 10, 0, 8, 12, 4, 13, 3, 7, 15, 14, 5, 6, 2,
   4, 0, 5, 9, 7, 12, 2, 10, 14, 1, 3, 8, 11, 6, 15, 13]

/-- Right-line word selection `r'(j)` (R115). -/
def ripemdR' : List Nat :=
  [5, 14, 7, 0, 9, 2, 11, 4, 13, 6, 15, 8, 1, 10, 3, 12,
   6, 11, 3, 7, 0, 13, 5, 10, 14, 15, 8, 12, 4, 9, 1, 2,
   15, 5, 1, 3, 7, 14, 6, 9, 11, 8, 12, 2, 10, 0, 4, 13,
   8, 6, 4, 1, 3, 11, 15, 0, 5, 12, 2, 13, 9, 7, 10, 14,
   12, 15, 10, 4, 1, 5, 8, 7, 6, 2, 13, 14, 0, 3, 9, 11]

/-- Left-line rotation amounts `s(j)` (R115). -/
def ripemdS : List Nat :=
  [11, 14, 15, 12, 5, 8, 7, 9, 11, 13, 14, 15, 6, 7, 9, 8,
   7, 6, 8, 13, 11, 9, 7, 15, 7, 12, 15, 9, 11, 7, 13, 12,
   11, 13, 6, 7, 14, 9, 13, 15, 14, 8, 13, 6, 5, 12, 7, 5,
   11, 12, 14, 15, 14, 15, 9, 8, 9, 14, 5, 6, 8, 6, 5, 12,
   9, 15, 5, 11, 6, 8, 13, 12, 5, 12, 13, 14, 11, 8, 5, 6]

/-- Right-line rotation amounts `s'(j)` (R115). -/
def ripemdS' : List Nat :=
  [8, 9, 9, 11, 13, 15, 15, 5, 7, 7, 8, 11, 14, 14, 12, 6,
   9, 13, 15, 7, 12, 8, 9, 11, 7, 7, 12, 7, 6, 15, 13, 11,
   9, 7, 15, 11, 8, 6, 6, 14, 12, 13, 5, 14, 13, 13, 7, 5,
   15, 5, 8, 11, 14, 14, 6, 14, 6, 9, 12, 9, 12, 5, 15, 8,
   8, 5, 12, 9, 12, 5, 14, 6, 8, 13, 6, 5, 15, 13, 11, 11]

/-- The five words of a line, and the chaining value `h[0..4]` (R115, R116). -/
structure RmdState where
  /-- `A`, `h[0]` -/
  a : Word
  /-- `B`, `h[1]` -/
  b : Word
  /-- `C`, `h[2]` -/
  c : Word
  /-- `D`, `h[3]` -/
  d : Word
  /-- `E`, `h[4]` -/
  e : Word
deriving DecidableEq, Repr

/-- The initial value (R115). -/
def ripemdH0 : RmdState :=
  { a := 0x67452301, b := 0xEFCDAB89, c := 0x98BADCFE, d := 0x10325476, e := 0xC3D2E1F0 }

/-- One step of a line: `f` the Boolean function's number, `x` the message word, `k` the constant, `s`
the rotation (R116). -/
def ripemdStep (v : RmdState) (f : Nat) (x k : Word) (s : Nat) : RmdState :=
  { a := v.e, b := rotl (v.a + ripemdF f v.b v.c v.d + x + k) s + v.e, c := v.b,
    d := rotl v.c 10, e := v.d }

/-- Step `j` of the left line (R116). -/
def ripemdLeft (X : List Word) (v : RmdState) (j : Nat) : RmdState :=
  ripemdStep v j (X.getD (ripemdR.getD j 0) 0) (ripemdK.getD (j / 16) 0) (ripemdS.getD j 0)

/-- Step `j` of the right line, the Boolean functions in reverse order (R116). -/
def ripemdRight (X : List Word) (v : RmdState) (j : Nat) : RmdState :=
  ripemdStep v (79 - j) (X.getD (ripemdR'.getD j 0) 0) (ripemdK'.getD (j / 16) 0)
    (ripemdS'.getD j 0)

/-- One block (R116). -/
def ripemdBlock (h : RmdState) (X : List Word) : RmdState :=
  let l := (List.range 80).foldl (ripemdLeft X) h
  let r := (List.range 80).foldl (ripemdRight X) h
  { a := h.b + l.c + r.d, b := h.c + l.d + r.e, c := h.d + l.e + r.a, d := h.e + l.a + r.b,
    e := h.a + l.b + r.c }

/-- `ripemd160(m)`, 20 bytes (R116). -/
def ripemd160 (m : List Byte) : List Byte :=
  let h := (ripemdBlocks m).foldl ripemdBlock ripemdH0
  [h.a, h.b, h.c, h.d, h.e].flatMap fun w => (bytesOfWord w).reverse

/-- `checksum(m)`, 4 bytes (R109). -/
def checksum (m : List Byte) : List Byte := (sha256 (sha256 m)).take 4

/-- `SHA256` (R117). -/
def execSha256 (s : State) : Host.Outcome State Fault Refusal :=
  s.conclude do
    let m ← s.message
    return s.putDig (sha256 m)

/-- `RMD160` (R118). -/
def execRmd160 (s : State) : Host.Outcome State Fault Refusal :=
  s.conclude do
    let m ← s.message
    return s.putDig (ripemd160 m)

/-- `HASH160` (R119): the length first, then the first byte, each with its own auxiliary value. -/
def execHash160 (s : State) : Host.Outcome State Fault Refusal :=
  s.conclude do
    require (decide (s.msgLen = 65)) .malformedPublicKey (s.msgLen.setWidth 32)
    let b ← s.mem.byteAt msgBase
    require (decide (b = 0x04)) .malformedPublicKey (0x10000#32 + b.setWidth 32)
    let m ← s.msgString 65
    return s.putDig (ripemd160 (sha256 m))

/-- `CHKSUM` (R120). -/
def execChksum (s : State) : Host.Outcome State Fault Refusal :=
  s.conclude do
    let m ← s.message
    return s.putDig (checksum m)

end Sys2Proof.Machine
end

