-- ==== Sys2Proof/Machine/Base58.lean ====
section
/-! DEFINITION. The Base58 unit: `B58ENC`, `B58CHK` (45_base58.md). -/

namespace Sys2Proof.Machine

/-- The Base58 alphabet (R122). -/
def base58Alphabet : List Char :=
  "123456789ABCDEFGHJKLMNPQRSTUVWXYZabcdefghijkmnopqrstuvwxyz".toList

/-- `sym(d)`: the ASCII code of the alphabet's character `d`, zero-extended to 32 bits (R122). -/
def base58Symbol (d : Nat) : Word := BitVec.ofNat 32 (base58Alphabet.getD d '1').toNat

/-- The digits of `v` in base `b`, least significant first, none for 0; `fuel` bounds their number. -/
def digitsLE (b : Nat) : (fuel v : Nat) → List Nat
  | 0, _ => []
  | fuel + 1, v => if v = 0 then [] else v % b :: digitsLE b fuel (v / b)

/-- `b58enc(s)` (R123). Eight digits a byte are more than enough. -/
def b58enc (s : List Byte) : List Word :=
  if s = [] then [base58Symbol 0]
  else
    List.replicate (s.takeWhile (· = 0)).length (base58Symbol 0) ++
      ((digitsLE Config.b58Size (8 * s.length) (intBe s)).map base58Symbol).reverse

/-- `b58chk(h, ver)` after its length check (R124). -/
def b58chk (h : List Byte) (version : Byte) : List Word :=
  b58enc (version :: h ++ checksum (version :: h))

/-- `B58ENC` (R126). -/
def execB58enc (s : State) : Host.Outcome State Fault Refusal :=
  s.conclude do
    let m ← s.message
    return s.putStr (b58enc m)

/-- `B58CHK` (R127). -/
def execB58chk (version : Byte) (s : State) : Host.Outcome State Fault Refusal :=
  s.conclude do
    require (decide (s.digLen = 20)) .malformedHashInput (s.digLen.setWidth 32)
    let h ← s.digString 20
    return s.putStr (b58chk h version)

end Sys2Proof.Machine
end

