-- ==== Sys2Proof/Machine/Base40.lean ====
section
/-! DEFINITION. The Base40 unit: `ALPHAV`, `B40ENC`, `B40DEC`, `B40H` (46_base40.md). -/

namespace Sys2Proof.Machine

/-- The scan of `alpha_check` from entry `j` on, `seen` being the entries before it: the smallest entry
with a duplicate before it raises (R128); an entry the scan reaches that nothing has written is the
fault of 70_reset_and_hazards.md R161 (notes/assumptions/7.md). -/
def alphaScan (seen : List Word) : (j : Nat) → List (Option Word) → Comp Unit
  | _, [] => .ok ()
  | j, none :: _ => .error (.fault (.unwrittenEntry (alphaBase + 4 * j)))
  | j, some c :: rest =>
    if c ∈ seen then raise .invalidAlphabet (BitVec.ofNat 32 (0x10000 + j))
    else alphaScan (c :: seen) (j + 1) rest

/-- `alpha_check(len, A)` (R128). -/
def alphaCheck (len : Nat) (entries : List (Option Word)) : Comp Unit := do
  require (decide (len = Config.alphaSize)) .invalidAlphabet (BitVec.ofNat 32 len)
  alphaScan [] 0 entries

/-- `b40enc(v, A)` for `v < 2^256` (R129, R134). -/
def b40enc (v : Nat) (alpha : List Word) : List Word :=
  if v = 0 then [alpha.getD 0 0]
  else ((digitsLE Config.alphaSize Config.scalarBits v).map fun d => alpha.getD d 0).reverse

/-- The scan of `b40dec`, least significant symbol first: `entries` are the symbols still to scan, so the
first has index `entries.length - 1` in `STR`; `q` is its position, `v` the value so far (R130). An
entry the scan reaches that nothing has written is the fault of R161 (notes/assumptions/7.md). -/
def b40scan (alpha : List Word) : (entries : List (Option Word)) → (q v : Nat) → Comp Nat
  | [], _, v => .ok v
  | none :: rest, _, _ => .error (.fault (.unwrittenEntry (strBase + 4 * rest.length)))
  | some c :: rest, q, v =>
    match alpha.idxOf? c with
    | none => raise .symbolNotFound (BitVec.ofNat 32 rest.length)
    | some d => b40scan alpha rest (q + 1) (v + d * 40 ^ q)

/-- `b40dec(s, A)` after the length checks: the scan, then the range check (R130). -/
def b40dec (s : List (Option Word)) (alpha : List Word) : Comp Nat := do
  let v ← b40scan alpha s.reverse 0 0
  require (decide (v < 2 ^ 256)) .overflow 0
  return v

/-- `b40h(h, tl, A)` after its length check (R131). -/
def b40h (h : List Byte) (target : Nat) (alpha : List Word) : List Word :=
  let e := b40enc (intBe h) alpha
  List.replicate (target - e.length) (alpha.getD 0 0) ++ e

/-- `ALPHAV` (R135): the one command whose failure changes state other than status. -/
def execAlphav (s : State) : Host.Outcome State Fault Refusal :=
  State.conclude { s with alphaValid := false } do
    alphaCheck s.alphaLen.toNat (s.mem.entries alphaBase Config.alphaSize)
    return { s with alphaValid := true }

/-- `B40ENC` (R136). -/
def execB40enc (s : State) : Host.Outcome State Fault Refusal :=
  s.conclude do
    require s.alphaValid .invalidAlphabet 0
    let alpha ← s.alphabet
    return s.putStr (b40enc s.opa.toNat alpha)

/-- `B40DEC` (R137). -/
def execB40dec (s : State) : Host.Outcome State Fault Refusal :=
  s.conclude do
    require s.alphaValid .invalidAlphabet 0
    require (decide (s.strLen ≠ 0)) .emptyInput 0
    require (decide (s.strLen.toNat ≤ Config.strMax)) .lengthError (s.strLen.setWidth 32)
    let alpha ← s.alphabet
    let v ← b40dec (s.mem.entries strBase s.strLen.toNat) alpha
    return s.putRes v

/-- `B40H` (R138). -/
def execB40h (target : Byte) (s : State) : Host.Outcome State Fault Refusal :=
  s.conclude do
    require s.alphaValid .invalidAlphabet 0
    require (decide (s.digLen = 20)) .malformedHashInput (s.digLen.setWidth 32)
    let alpha ← s.alphabet
    let h ← s.digString 20
    return s.putStr (b40h h target.toNat alpha)

end Sys2Proof.Machine
end

