-- ==== Sys2Proof/Machine/Field.lean ====
section
/-! DEFINITION. The curve constants and the field arithmetic unit: `NOP`, `FRED`, `MODINV`, `MODEXP`
(41_field.md). Arithmetic is on mathematical integers (00_scope.md R9, R10). -/

namespace Sys2Proof.Machine

/-- The prime modulus `p = 2^256 - 2^32 - 977` (R73). -/
def curveP : Nat := 0xFFFFFFFFFFFFFFFFFFFFFFFFFFFFFFFFFFFFFFFFFFFFFFFFFFFFFFFEFFFFFC2F

/-- The coefficient `a` (R73). -/
def curveA : Nat := 0

/-- The coefficient `b` (R73). -/
def curveB : Nat := 7

/-- The group order `n` (R73). -/
def curveN : Nat := 0xFFFFFFFFFFFFFFFFFFFFFFFFFFFFFFFEBAAEDCE6AF48A03BBFD25E8CD0364141

/-- The generator `G = Aff(GX, GY)` (R73). -/
def curveG : Point :=
  .aff 0x79BE667EF9DCBBAC55A06295CE870B07029BFCDB2DCE28D959F2815B16F81798#256
    0x483ADA7726A3C4655DA4FBFC0E1108A8FD17B448A68554199C47D08FFB10D4B8#256

/-- `fred(v) = v mod p` for any integer, non-negative (R75, R10). -/
def fred (v : Int) : Nat := (v % (curveP : Int)).toNat

/-- Square and multiply over the low `fuel` bits of `e`: `acc * b^e mod m`. -/
def modPowLoop (m : Nat) : (fuel b e acc : Nat) → Nat
  | 0, _, _, acc => acc
  | fuel + 1, b, e, acc =>
    modPowLoop m fuel (b * b % m) (e / 2) (if e % 2 = 1 then acc * b % m else acc)

/-- `b^e mod m` for an exponent of at most 256 bits (R77, R78; Laws/Field.lean proves it the power). -/
def modPow (b e m : Nat) : Nat := modPowLoop m Config.scalarBits (b % m) e (1 % m)

/-- The modular inverse over `p` by Fermat exponentiation; `info` is the auxiliary value that
`DivisionByZero` carries (R76, 60_exceptions.md R145). -/
def inv (info : Word) (k : Int) : Comp Nat :=
  if fred k = 0 then raise .divisionByZero info else .ok (modPow (fred k) (curveP - 2) curveP)

/-- `modexp(b, e, m)` (R77). -/
def modexp (b e m : Nat) : Comp Nat :=
  if m = 0 then raise .invalidModulus 0 else .ok (modPow b e m)

/-- `NOP` (R83). -/
def execNop (s : State) : Host.Outcome State Fault Refusal :=
  s.conclude (.ok s)

/-- `FRED` (R84). -/
def execFred (s : State) : Host.Outcome State Fault Refusal :=
  s.conclude (.ok (s.putRes (fred s.opa.toNat)))

/-- `MODINV` (R85). -/
def execModinv (s : State) : Host.Outcome State Fault Refusal :=
  s.conclude do
    let r ← inv 0 s.opa.toNat
    return s.putRes r

/-- `MODEXP` (R86). -/
def execModexp (s : State) : Host.Outcome State Fault Refusal :=
  s.conclude do
    let r ← modexp s.opa.toNat s.opb.toNat s.opm.toNat
    return s.putRes r

end Sys2Proof.Machine
end

