-- ==== Sys2Proof/Machine/Curve.lean ====
section
/-! DEFINITION. The point unit: `ONCURVE`, `PADD`, `PDBL`, `PSER` (42_curve.md). Comparisons are of raw
256-bit coordinates, results are reduced mod `p` (R87). -/

namespace Sys2Proof.Machine

/-- `on_curve(P)` (R88). -/
def onCurve : Point → Bool
  | .inf => true
  | .aff x y =>
    let x : Int := x.toNat
    let y : Int := y.toNat
    decide (fred (y ^ 2 - (x ^ 3 + curveA * x + curveB)) = 0)

/-- `pdbl(P)`; `info` goes with a `DivisionByZero` (R89). -/
def pdbl (info : Word) : Point → Comp Point
  | .inf => .ok .inf
  | .aff xb yb =>
    if yb = 0 then .ok .inf
    else do
      let x : Int := xb.toNat
      let y : Int := yb.toNat
      let i ← inv info (2 * y)
      let s : Int := fred ((3 * x ^ 2 + curveA) * i)
      let x3 := fred (s ^ 2 - 2 * x)
      let y3 := fred (s * (x - x3) - y)
      return .aff (BitVec.ofNat 256 x3) (BitVec.ofNat 256 y3)

/-- `padd(P, Q)`, the cases in the source's order; `info` goes with a `DivisionByZero` (R90). -/
def padd (info : Word) : Point → Point → Comp Point
  | .inf, q => .ok q
  | p, .inf => .ok p
  | .aff xb1 yb1, .aff xb2 yb2 =>
    if xb1 = xb2 ∧ yb1 ≠ yb2 then .ok .inf
    else if xb1 = xb2 ∧ yb1 = yb2 then pdbl info (.aff xb1 yb1)
    else do
      let x1 : Int := xb1.toNat
      let y1 : Int := yb1.toNat
      let x2 : Int := xb2.toNat
      let y2 : Int := yb2.toNat
      let i ← inv info (x2 - x1)
      let s : Int := fred ((y2 - y1) * i)
      let x3 := fred (s ^ 2 - x1 - x2)
      let y3 := fred (s * (x1 - x3) - y1)
      return .aff (BitVec.ofNat 256 x3) (BitVec.ofNat 256 y3)

/-- The uncompressed serialisation of R96; `INF` raises. -/
def pser : Point → Comp (List Byte)
  | .inf => raise .malformedPublicKey 0
  | .aff x y => .ok (0x04#8 :: (bytesBe x.toNat 32 ++ bytesBe y.toNat 32))

/-- `ONCURVE` (R93). -/
def execOncurve (s : State) : Host.Outcome State Fault Refusal :=
  .next (s.succeed (onCurve s.p1.pt))

/-- `PADD` (R94). -/
def execPadd (s : State) : Host.Outcome State Fault Refusal :=
  s.conclude do
    let r ← padd 0 s.p1.pt s.p2.pt
    return s.putPR r

/-- `PDBL` (R95). -/
def execPdbl (s : State) : Host.Outcome State Fault Refusal :=
  s.conclude do
    let r ← pdbl 0 s.p1.pt
    return s.putPR r

/-- `PSER` (R96). -/
def execPser (s : State) : Host.Outcome State Fault Refusal :=
  s.conclude do
    let m ← pser s.pr.pt
    return s.putMsg m

end Sys2Proof.Machine
end

