-- ==== Sys2Proof/Machine/Scalar.lean ====
section
/-! DEFINITION. The scalar multiplier with its trace: `SMUL`, `DERIVE`, `KEYCHK` (43_scalar.md). -/

namespace Sys2Proof.Machine

/-- `valid_scalar(k)` (R97). -/
def validScalar (k : Nat) : Bool := decide (1 ≤ k ∧ k < curveN)

/-- `angle(v)` in degrees (R98). -/
def angleOf (v : Nat) : Nat := (v * 9) % 360

/-- `symbolDelta`: the circular difference to the previous symbol index, 0 when there is none (R99,
R100). -/
def deltaOf (si : Nat) : Option Nat → Nat
  | none => 0
  | some prev => (si + 40 - prev) % 40

/-- The record of one step whose accumulator is `acc` after it, and the next `previousSymbolIndex`
(R99, R100, R101). -/
def traceRecord (alpha : List Word) (step : Nat) (b : Bool) (prev : Option Nat) :
    Point → TraceRecord × Option Nat
  | .aff x y =>
    let ang := angleOf (x.toNat % 40)
    let si := ang / 9
    ({ step := BitVec.ofNat 9 step, bit := b, op := b, inf := false, symv := true,
       angle := BitVec.ofNat 9 ang, sidx := BitVec.ofNat 6 si,
       delta := BitVec.ofNat 6 (deltaOf si prev), symbol := alpha.getD si 0, x := x, y := y },
     some si)
  | .inf =>
    ({ step := BitVec.ofNat 9 step, bit := b, op := b, inf := true, symv := false, angle := 0,
       sidx := 0, delta := 0, symbol := 0, x := 0, y := 0 },
     none)

/-- One iteration's accumulator: double, then add the base when the bit is 1; a `DivisionByZero`
carries the step number (R99, R103). -/
def scalarStep (step : Nat) (b : Bool) (base acc : Point) : Comp Point := do
  let d ← pdbl (BitVec.ofNat 32 step) acc
  if b then padd (BitVec.ofNat 32 step) d base else return d

/-- The iterations for bit positions `n - 1` down to 0, strictly in order, from the accumulator `acc`
and the previous symbol index `prev` (R99, R104): the hidden state of 10_state.md R43 is these
arguments (notes/assumptions/10.md). Answers the last accumulator and the records. -/
def smulFrom (k : Big) (base : Point) (alpha : List Word) :
    Nat → Point → Option Nat → Comp (Point × List TraceRecord)
  | 0, acc, _ => .ok (acc, [])
  | i + 1, acc, prev => do
    let step := Config.scalarBits - i
    let acc' ← scalarStep step (k.getLsbD i) base acc
    let rec' := traceRecord alpha step (k.getLsbD i) prev acc'
    let rest ← smulFrom k base alpha i acc' rec'.2
    return (rest.1, rec'.1 :: rest.2)

/-- `smul(k, B, alpha)`: 256 iterations from `INF` and no previous symbol (R99). -/
def smul (k : Big) (base : Point) (alpha : List Word) : Comp (Point × List TraceRecord) :=
  smulFrom k base alpha Config.scalarBits .inf none

/-- The checks of `SMUL` and `DERIVE` before any step, in order, then the algorithm (R105, R106, R149). -/
def State.multiply (s : State) (base : Point) : Comp (Point × List TraceRecord) := do
  require s.alphaValid .invalidAlphabet 0
  require (validScalar s.k.toNat) .invalidScalar 0
  let alpha ← s.alphabet
  smul s.k base alpha

/-- `SMUL` (R105). -/
def execSmul (s : State) : Host.Outcome State Fault Refusal :=
  s.conclude do
    let r ← s.multiply s.p1.pt
    return (s.putPR r.1).putTrace r.2

/-- `DERIVE` (R106). -/
def execDerive (s : State) : Host.Outcome State Fault Refusal :=
  s.conclude do
    let r ← s.multiply curveG
    require (decide (r.1 ≠ .inf)) .unexpectedIdentityResult 0
    return (s.putPR r.1).putTrace r.2

/-- `KEYCHK` (R107): accept into `K`, or reject, which is no error. -/
def execKeychk (s : State) : Host.Outcome State Fault Refusal :=
  if validScalar s.opa.toNat then .next (State.succeed { s with k := s.opa } true)
  else .next (s.succeed false)

end Sys2Proof.Machine
end

