-- ==== Sys2Proof/Syntax.lean ====
section
/-! DEFINITION. The command set `B40CE-CMD` revision 1 (00_scope.md R2, 30_encoding.md R66): one
constructor per row of spec/opcode_table.json. -/

namespace Sys2Proof

/-- A command. Only `B58CHK` and `B40H` carry an operand, the 8-bit unsigned `ARG` (R64); every other
operand is implicit. -/
inductive Instr where
  /-- `NOP`, opcode 0x00 (R83). -/
  | nop
  /-- `FRED`, opcode 0x01 (R84). -/
  | fred
  /-- `MODINV`, opcode 0x02 (R85). -/
  | modinv
  /-- `MODEXP`, opcode 0x03 (R86). -/
  | modexp
  /-- `ONCURVE`, opcode 0x10 (R93). -/
  | oncurve
  /-- `PADD`, opcode 0x11 (R94). -/
  | padd
  /-- `PDBL`, opcode 0x12 (R95). -/
  | pdbl
  /-- `PSER`, opcode 0x13 (R96). -/
  | pser
  /-- `SMUL`, opcode 0x20 (R105). -/
  | smul
  /-- `DERIVE`, opcode 0x21 (R106). -/
  | derive
  /-- `KEYCHK`, opcode 0x22 (R107). -/
  | keychk
  /-- `SHA256`, opcode 0x30 (R117). -/
  | sha256
  /-- `RMD160`, opcode 0x31 (R118). -/
  | rmd160
  /-- `HASH160`, opcode 0x32 (R119). -/
  | hash160
  /-- `CHKSUM`, opcode 0x33 (R120). -/
  | chksum
  /-- `B58ENC`, opcode 0x40 (R126). -/
  | b58enc
  /-- `B58CHK`, opcode 0x41, `ARG` = `versionByte` (R127). -/
  | b58chk (version : Byte)
  /-- `ALPHAV`, opcode 0x50 (R135). -/
  | alphav
  /-- `B40ENC`, opcode 0x51 (R136). -/
  | b40enc
  /-- `B40DEC`, opcode 0x52 (R137). -/
  | b40dec
  /-- `B40H`, opcode 0x53, `ARG` = `targetLength` (R138). -/
  | b40h (target : Byte)
deriving DecidableEq, Repr

end Sys2Proof
end

