-- ==== Sys2Proof/Machine/Dispatch.lean ====
section
/-! DEFINITION. One arm per command: its completion (60_exceptions.md R143, R144). -/

namespace Sys2Proof.Machine

def exec (i : Instr) (s : State) : Host.Outcome State Fault Refusal :=
  match i with
  | .nop => Sys2Proof.Machine.execNop s
  | .fred => Sys2Proof.Machine.execFred s
  | .modinv => Sys2Proof.Machine.execModinv s
  | .modexp => Sys2Proof.Machine.execModexp s
  | .oncurve => Sys2Proof.Machine.execOncurve s
  | .padd => Sys2Proof.Machine.execPadd s
  | .pdbl => Sys2Proof.Machine.execPdbl s
  | .pser => Sys2Proof.Machine.execPser s
  | .smul => Sys2Proof.Machine.execSmul s
  | .derive => Sys2Proof.Machine.execDerive s
  | .keychk => Sys2Proof.Machine.execKeychk s
  | .sha256 => Sys2Proof.Machine.execSha256 s
  | .rmd160 => Sys2Proof.Machine.execRmd160 s
  | .hash160 => Sys2Proof.Machine.execHash160 s
  | .chksum => Sys2Proof.Machine.execChksum s
  | .b58enc => Sys2Proof.Machine.execB58enc s
  | .b58chk version => Sys2Proof.Machine.execB58chk version s
  | .alphav => Sys2Proof.Machine.execAlphav s
  | .b40enc => Sys2Proof.Machine.execB40enc s
  | .b40dec => Sys2Proof.Machine.execB40dec s
  | .b40h target => Sys2Proof.Machine.execB40h target s

end Sys2Proof.Machine
end

