-- ==== Sys2Proof/Decode.lean ====
section
/-! DEFINITION. Decoding of the 32-bit command word (30_encoding.md R63–R69), total on every word and
rejecting by name, and the encoder. -/

namespace Sys2Proof

/-- Why a command word is illegal; each is the engine's `IllegalCommand` (R67). -/
inductive DecodeError where
  /-- the opcode is one of the 235 reserved values (R68) -/
  | reservedOpcode
  /-- `RSV` is not 0 (R65) -/
  | rsvNonzero
  /-- `ARG` is not 0 where it must be 0 (R64) -/
  | argNonzero
deriving DecidableEq, Repr

/-- `OPCODE`, bits [7:0] (R63). -/
def opcodeField (w : Word) : Byte := w.extractLsb' 0 8

/-- `ARG`, bits [15:8] (R63). -/
def argField (w : Word) : Byte := w.extractLsb' 8 8

/-- `RSV`, bits [31:16] (R63). -/
def rsvField (w : Word) : BitVec 16 := w.extractLsb' 16 16

/-- The opcode column of R66: the command an opcode selects, as a function of `ARG`, with whether `ARG`
is used. -/
def opcodeRow (op arg : Byte) : Option (Instr × Bool) :=
  match op with
  | 0x00#8 => some (.nop, false)
  | 0x01#8 => some (.fred, false)
  | 0x02#8 => some (.modinv, false)
  | 0x03#8 => some (.modexp, false)
  | 0x10#8 => some (.oncurve, false)
  | 0x11#8 => some (.padd, false)
  | 0x12#8 => some (.pdbl, false)
  | 0x13#8 => some (.pser, false)
  | 0x20#8 => some (.smul, false)
  | 0x21#8 => some (.derive, false)
  | 0x22#8 => some (.keychk, false)
  | 0x30#8 => some (.sha256, false)
  | 0x31#8 => some (.rmd160, false)
  | 0x32#8 => some (.hash160, false)
  | 0x33#8 => some (.chksum, false)
  | 0x40#8 => some (.b58enc, false)
  | 0x41#8 => some (.b58chk arg, true)
  | 0x50#8 => some (.alphav, false)
  | 0x51#8 => some (.b40enc, false)
  | 0x52#8 => some (.b40dec, false)
  | 0x53#8 => some (.b40h arg, true)
  | _ => none

/-- Decoding at issue, the checks in the order of R67: opcode, `RSV`, `ARG`. -/
def decode (w : Word) : Except DecodeError Instr :=
  match opcodeRow (opcodeField w) (argField w) with
  | none => .error .reservedOpcode
  | some (i, argUsed) =>
    if rsvField w ≠ 0#16 then .error .rsvNonzero
    else if argField w ≠ 0#8 ∧ argUsed = false then .error .argNonzero
    else .ok i

/-- `(arg << 8) | opcode` with `RSV = 0` (R63, R71). -/
def wordOf (op arg : Byte) : Word := 0#16 ++ arg ++ op

/-- The command word of a command, from the encoding lines of R83–R138. -/
def encode : Instr → Word
  | .nop => wordOf 0x00 0
  | .fred => wordOf 0x01 0
  | .modinv => wordOf 0x02 0
  | .modexp => wordOf 0x03 0
  | .oncurve => wordOf 0x10 0
  | .padd => wordOf 0x11 0
  | .pdbl => wordOf 0x12 0
  | .pser => wordOf 0x13 0
  | .smul => wordOf 0x20 0
  | .derive => wordOf 0x21 0
  | .keychk => wordOf 0x22 0
  | .sha256 => wordOf 0x30 0
  | .rmd160 => wordOf 0x31 0
  | .hash160 => wordOf 0x32 0
  | .chksum => wordOf 0x33 0
  | .b58enc => wordOf 0x40 0
  | .b58chk version => wordOf 0x41 version
  | .alphav => wordOf 0x50 0
  | .b40enc => wordOf 0x51 0
  | .b40dec => wordOf 0x52 0
  | .b40h target => wordOf 0x53 target

/-- A table row's bits as the command word the host bus carries: one 32-bit word, the bits above `nbits`
zero. -/
def tableWord (nbits w : Nat) : Word := BitVec.ofNat 32 (w % 2 ^ nbits)

/-- The host's question: the command this decoder reads from a row's bits. -/
def decodeTableWord (nbits w : Nat) : Option Instr :=
  (decode (tableWord nbits w)).toOption

end Sys2Proof
end

