-- ==== Sys2Proof/Machine/Window.lean ====
section
/-! DEFINITION. The host window: the address map, host reads and writes, the issue of a command, and one
clock cycle of the host (10_state.md R21–R42; 20_memory.md R45–R61; 60_exceptions.md R139–R146). -/

namespace Sys2Proof.Machine

/-- The 256-bit registers of the window (20_memory.md R50). -/
inductive BigReg where
  | k | opa | opb | opm | res | p1x | p1y | p2x | p2y | prx | pry
deriving DecidableEq, Repr

/-- What a word of the window is (R47). -/
inductive Location where
  /-- `ID`, read-only -/
  | id
  /-- `CTRL` -/
  | ctrl
  /-- `CMD` -/
  | cmd
  /-- `STATUS`, read-only -/
  | status
  /-- `IRQ` -/
  | irq
  /-- `MSG_LEN` -/
  | msgLen
  /-- `STR_LEN` -/
  | strLen
  /-- `DIG_LEN` -/
  | digLen
  /-- `ALPHA_LEN` -/
  | alphaLen
  /-- `TRACE_LEN`, read-only -/
  | traceLen
  /-- `ERRINFO`, read-only -/
  | errinfo
  /-- word `j` of a 256-bit register -/
  | big (r : BigReg) (j : Nat)
  /-- `PTAG` -/
  | ptag
  /-- a word of `DIG`, at byte offset `off` of the window -/
  | dig (off : Nat)
  /-- a word of `MSG`, at byte offset `off` of the window -/
  | msg (off : Nat)
  /-- an entry of `ALPHA`, at byte offset `off` of the window -/
  | alpha (off : Nat)
  /-- an entry of `STR`, at byte offset `off` of the window -/
  | str (off : Nat)
  /-- word `w` of trace record `r`, read-only -/
  | trace (r w : Nat)
  /-- a reserved offset -/
  | reserved
deriving DecidableEq, Repr

/-- The 256-bit register at byte offset `off` of the window, 32 bytes each (R47). -/
def bigRegAt (off : Nat) : Option BigReg :=
  match off / 32 with
  | 0x02 => some .k
  | 0x03 => some .opa
  | 0x04 => some .opb
  | 0x05 => some .opm
  | 0x06 => some .res
  | 0x08 => some .p1x
  | 0x09 => some .p1y
  | 0x0A => some .p2x
  | 0x0B => some .p2y
  | 0x0C => some .prx
  | 0x0D => some .pry
  | _ => none

/-- Base offset of `TRACE` (10_state.md R42). -/
def traceBase : Nat := 0x4000

/-- Bytes of a trace record in the window (R42). -/
def recordBytes : Nat := 80

/-- Bytes of a symbol entry in the window (R52). -/
def entryBytes : Nat := Config.symWidth / 8

/-- The address map of R47 at a byte offset that is a multiple of 4. -/
def locateOffset (off : Nat) : Location :=
  if off < 0x40 then
    match off with
    | 0x00 => .id
    | 0x04 => .ctrl
    | 0x08 => .cmd
    | 0x0C => .status
    | 0x10 => .irq
    | 0x14 => .msgLen
    | 0x18 => .strLen
    | 0x1C => .digLen
    | 0x20 => .alphaLen
    | 0x24 => .traceLen
    | 0x28 => .errinfo
    | _ => .reserved
  else if off < 0x1C0 then
    match bigRegAt off with
    | some r => .big r (off % 32 / 4)
    | none => .reserved
  else if off = 0x1C0 then .ptag
  else if digBase ≤ off ∧ off < digBase + Config.digMax then .dig off
  else if msgBase ≤ off ∧ off < msgBase + Config.msgMax then .msg off
  else if alphaBase ≤ off ∧ off < alphaBase + entryBytes * Config.alphaMax then .alpha off
  else if strBase ≤ off ∧ off < strBase + entryBytes * Config.strMax then .str off
  else if traceBase ≤ off ∧ off < traceBase + recordBytes * Config.traceDepth then
    .trace ((off - traceBase) / recordBytes) ((off - traceBase) % recordBytes / 4)
  else .reserved

/-- The location a word address selects (R46, R47, R53): the byte offset is `addr * 4`. -/
def locate (a : Addr) : Location := locateOffset (4 * a.toNat)

/-- The word address of a byte offset, `addr[15:2]` (R46, R53). -/
def wordAddr (off : Nat) : Addr := BitVec.ofNat 14 (off % 2 ^ Config.hostOffsetWidth / (Config.hostDataWidth / 8))

/-- Where a word of the window sits in the platform's address space (R47, 92_eei_decisions.md D6). -/
def systemAddress (a : Addr) : Nat := Config.base + 4 * a.toNat

/-- A 256-bit register's value. -/
def State.big (s : State) : BigReg → Big
  | .k => s.k
  | .opa => s.opa
  | .opb => s.opb
  | .opm => s.opm
  | .res => s.res
  | .p1x => s.p1.x
  | .p1y => s.p1.y
  | .p2x => s.p2.x
  | .p2y => s.p2.y
  | .prx => s.pr.x
  | .pry => s.pr.y

/-- Write a 256-bit register. -/
def State.setBig (s : State) (r : BigReg) (v : Big) : State :=
  match r with
  | .k => { s with k := v }
  | .opa => { s with opa := v }
  | .opb => { s with opb := v }
  | .opm => { s with opm := v }
  | .res => { s with res := v }
  | .p1x => { s with p1 := { s.p1 with x := v } }
  | .p1y => { s with p1 := { s.p1 with y := v } }
  | .p2x => { s with p2 := { s.p2 with x := v } }
  | .p2y => { s with p2 := { s.p2 with y := v } }
  | .prx => { s with pr := { s.pr with x := v } }
  | .pry => { s with pr := { s.pr with y := v } }

/-- The commands whose write set holds `RES` (60_exceptions.md R146). -/
def writesRes : Instr → Bool
  | .fred | .modinv | .modexp | .b40dec => true
  | .nop | .oncurve | .padd | .pdbl | .pser | .smul | .derive | .keychk | .sha256 | .rmd160
  | .hash160 | .chksum | .b58enc | .b58chk _ | .alphav | .b40enc | .b40h _ => false

/-- The commands whose write set holds `PRX`, `PRY`, `PTAG.PR_INF` (R146). -/
def writesPR : Instr → Bool
  | .padd | .pdbl | .smul | .derive => true
  | .nop | .fred | .modinv | .modexp | .oncurve | .pser | .keychk | .sha256 | .rmd160 | .hash160
  | .chksum | .b58enc | .b58chk _ | .alphav | .b40enc | .b40dec | .b40h _ => false

/-- The commands whose write set holds `DIG` and `DIG_LEN` (R146). -/
def writesDig : Instr → Bool
  | .sha256 | .rmd160 | .hash160 | .chksum => true
  | .nop | .fred | .modinv | .modexp | .oncurve | .padd | .pdbl | .pser | .smul | .derive | .keychk
  | .b58enc | .b58chk _ | .alphav | .b40enc | .b40dec | .b40h _ => false

/-- The commands whose write set holds `STR` and `STR_LEN` (R146). -/
def writesStr : Instr → Bool
  | .b58enc | .b58chk _ | .b40enc | .b40h _ => true
  | .nop | .fred | .modinv | .modexp | .oncurve | .padd | .pdbl | .pser | .smul | .derive | .keychk
  | .sha256 | .rmd160 | .hash160 | .chksum | .alphav | .b40dec => false

/-- Is the location in the command's write set (R146)? `ERRINFO` is in every command's, an illegal
word's too, for R57 names it not among the words that read exactly (notes/assumptions/8.md); `PTAG` is
where its `PR_INF` bit is. -/
def inWriteSet (i : Option Instr) : Location → Bool
  | .errinfo => true
  | .big .res _ => i.any writesRes
  | .big .prx _ | .big .pry _ | .ptag => i.any writesPR
  | .msg _ | .msgLen => i.any fun j => decide (j = .pser)
  | .trace _ _ | .traceLen => i.any fun j => decide (j = .smul ∨ j = .derive)
  | .big .k _ => i.any fun j => decide (j = .keychk)
  | .dig _ | .digLen => i.any writesDig
  | .str _ | .strLen => i.any writesStr
  | .id | .ctrl | .cmd | .status | .irq | .alphaLen | .alpha _ | .reserved
  | .big .opa _ | .big .opb _ | .big .opm _ | .big .p1x _ | .big .p1y _ | .big .p2x _
  | .big .p2y _ => false

/-- The command that the word in `LASTCMD` spells; `none` when it is illegal (R61, R67). -/
def State.command (s : State) : Option Instr := (decode s.lastcmd).toOption

/-- Word `w` of a trace record, `0 <= w < 20` (R42). -/
def TraceRecord.word (r : TraceRecord) (w : Nat) : Word :=
  match w with
  | 0 => r.word0
  | 1 => r.word1
  | 2 => r.symbol
  | 3 => 0
  | w => if w < 12 then bigWord r.x (w - 4) else bigWord r.y (w - 12)

/-- What a location holds, packed with reserved bits 0 (R48, R55); `none` where the spec leaves the value
unspecified: an unwritten buffer word (R161), a trace word while `TRACE_VALID = 0` (R34). -/
def State.held (s : State) : Location → Option Word
  | .id => some Config.idValue
  | .ctrl => some s.ctrlWord
  | .cmd => some s.lastcmd
  | .status => some s.statusWord
  | .irq => some s.irqWord
  | .msgLen => some (s.msgLen.setWidth 32)
  | .strLen => some (s.strLen.setWidth 32)
  | .digLen => some (s.digLen.setWidth 32)
  | .alphaLen => some (s.alphaLen.setWidth 32)
  | .traceLen => some (s.traceLen.setWidth 32)
  | .errinfo => some s.errinfo
  | .big r j => some (bigWord (s.big r) j)
  | .ptag => some s.ptagWord
  | .dig off | .msg off | .alpha off | .str off => s.mem.readWord off
  | .trace r w => if s.traceValid then (s.trace[r]?).map fun t => t.word w else none
  | .reserved => some 0

/-- What a host read of a location returns (R55, R57); `none` for a draw. -/
def State.readable (s : State) (l : Location) : Option Word :=
  if s.busy && inWriteSet s.command l then none else s.held l

/-- A host read: the word goes to the read bus; a draw takes the next free value. No other state changes
(R55, R57). -/
def State.hostRead (s : State) (a : Addr) : State :=
  match s.readable (locate a) with
  | some w => { s with rdata := w }
  | none => { s with rdata := Config.draw s.draws, draws := s.draws + 1 }

/-- The values of a command's operands, those its rule names (00_scope.md R17), `ALPHA_VALID` among them:
what the open latency may depend on (60_exceptions.md R140). An unwritten entry counts as 0, a written one
as its value plus 1. -/
def State.operandsOf (s : State) : Instr → List Nat
  | .nop => []
  | .fred | .modinv | .keychk => [s.opa.toNat]
  | .modexp => [s.opa.toNat, s.opb.toNat, s.opm.toNat]
  | .oncurve | .pdbl => [s.p1.inf.toNat, s.p1.x.toNat, s.p1.y.toNat]
  | .padd => [s.p1.inf.toNat, s.p1.x.toNat, s.p1.y.toNat, s.p2.inf.toNat, s.p2.x.toNat, s.p2.y.toNat]
  | .pser => [s.pr.inf.toNat, s.pr.x.toNat, s.pr.y.toNat]
  | .smul => [s.k.toNat, s.p1.inf.toNat, s.p1.x.toNat, s.p1.y.toNat] ++ alphabet
  | .derive => s.k.toNat :: alphabet
  | .sha256 | .rmd160 | .hash160 | .chksum | .b58enc => s.msgLen.toNat :: bytes msgBase Config.msgMax
  | .b58chk _ => s.digLen.toNat :: bytes digBase Config.digMax
  | .alphav => s.alphaLen.toNat :: symbols alphaBase Config.alphaSize
  | .b40enc => s.opa.toNat :: alphabet
  | .b40dec => s.strLen.toNat :: symbols strBase (min s.strLen.toNat Config.strMax) ++ alphabet
  | .b40h _ => s.digLen.toNat :: bytes digBase Config.digMax ++ alphabet
where
  /-- the value of a buffer entry -/
  value {w : Nat} (e : Option (BitVec w)) : Nat := e.elim 0 fun v => v.toNat + 1
  /-- the `n` bytes from `a` on -/
  bytes (a n : Nat) : List Nat := (List.range n).map fun i => value (s.mem.read (a + i))
  /-- the `n` symbol entries from `a` on -/
  symbols (a n : Nat) : List Nat := (s.mem.entries a n).map value
  /-- `ALPHA_VALID` and `ALPHA[0:40]` -/
  alphabet : List Nat := s.alphaValid.toNat :: symbols alphaBase Config.alphaSize

/-- The clock cycles that pass between the issue of a command word and its completion, one less than the
latency (R140, notes/assumptions/2.md). -/
def State.cyclesToPass (s : State) (v : Word) : Nat :=
  Config.latency v (match decode v with | .ok i => s.operandsOf i | .error _ => []) - 1

/-- Does issuing this word clear the trace? By its opcode field, before decode (R141). -/
def clearsTrace (v : Word) : Bool := decide (opcodeField v = 0x20#8 ∨ opcodeField v = 0x21#8)

/-- The issue of a command word (R141). The operands are not copied: they cannot change before the
completion (R61, R142, notes/assumptions/11.md). -/
def State.issue (s : State) (v : Word) : State :=
  { s with
    lastcmd := v
    busy := true
    doneFlag := false
    errFlag := false
    errcode := .none
    resultFlag := false
    ovr := false
    errinfo := 0
    traceValid := if clearsTrace v then false else s.traceValid
    traceLen := if clearsTrace v then 0 else s.traceLen
    trace := if clearsTrace v then [] else s.trace
    latencyLeft := s.cyclesToPass v }

/-- The last line of R56: store the named bits of `v`; `ALPHA_LEN` and `ALPHA` also clear
`ALPHA_VALID`. -/
def State.store (s : State) (v : Word) : Location → State
  | .msgLen => { s with msgLen := v.setWidth 9 }
  | .strLen => { s with strLen := v.setWidth 9 }
  | .digLen => { s with digLen := v.setWidth 6 }
  | .alphaLen => { s with alphaLen := v.setWidth 7, alphaValid := false }
  | .big r j => s.setBig r (setBigWord (s.big r) j v)
  | .ptag =>
    { s with
      p1 := { s.p1 with inf := v.getLsbD 0 }
      p2 := { s.p2 with inf := v.getLsbD 1 }
      pr := { s.pr with inf := v.getLsbD 2 } }
  | .dig off | .msg off | .str off => { s with mem := s.mem.writeWord off v }
  | .alpha off => { s with mem := s.mem.writeWord off v, alphaValid := false }
  | .id | .ctrl | .cmd | .status | .irq | .traceLen | .errinfo | .trace _ _ | .reserved => s

/-- Locations a host write never changes: read-only and reserved ones (R48, R56). -/
def Location.readOnly : Location → Bool
  | .id | .status | .traceLen | .errinfo | .trace _ _ | .reserved => true
  | .ctrl | .cmd | .irq | .msgLen | .strLen | .digLen | .alphaLen | .big _ _ | .ptag | .dig _
  | .msg _ | .alpha _ | .str _ => false

/-- A host write, evaluated in the order of R56. -/
def State.hostWrite (s : State) (a : Addr) (v : Word) : State :=
  let l := locate a
  if l = .ctrl then
    if v.getLsbD 0 then s.softReset else { s with irqEn := v.getLsbD 1 }
  else if l = .irq then
    if v.getLsbD 0 then { s with donePend := false } else s
  else if l.readOnly then s
  else if s.busy then { s with ovr := true }
  else if l = .cmd then s.issue v
  else s.store v l

/-- The word address of `STATUS` (R47). -/
def statusAddr : Addr := wordAddr 0x000C

/-- The word address of `CMD` (R47). -/
def cmdAddr : Addr := wordAddr 0x0008

/-- What one event of the host does. `wait` (30_encoding.md R72) reads `STATUS` and stays first in line
while the value's bit 0 is 1; `rest` are the events after this one. -/
def State.hostEvent (s : State) (rest : List HostEvent) : HostEvent → State
  | .read a => State.hostRead { s with bus := rest } a
  | .write a v => State.hostWrite { s with bus := rest } a v
  | .wait => if s.busy then s.hostRead statusAddr else State.hostRead { s with bus := rest } statusAddr
  | .idle => { s with bus := rest }
  | .hardReset => State.resetEngine { s with bus := rest }

/-- One clock cycle of the host: its next event, if it has one. -/
def State.hostCycle (s : State) : State :=
  match s.bus with
  | [] => s
  | e :: rest => s.hostEvent rest e

/-- The command word step runs next: the one in `LASTCMD`, of a running command whose latency has passed
(R20, R61, R140). -/
def State.due (s : State) : Option Word :=
  if s.busy && decide (s.latencyLeft = 0) then some s.lastcmd else none

/-- A clock cycle in which nothing completes: the running command's latency counts down, and the host's
next event happens (R59, R140). -/
def State.passCycle (s : State) : State :=
  State.hostCycle { s with latencyLeft := s.latencyLeft - 1 }

/-- The completion of an illegal command word: `IllegalCommand` with the whole word (R67, R144). -/
def State.illegal (s : State) : State := s.fail .illegalCommand s.lastcmd

/-- A state in which the command word `v` has just been issued and its latency has passed, so that its
completion is the next event. -/
def State.issuedDue (s : State) (v : Word) : State := { s.issue v with latencyLeft := 0 }

end Sys2Proof.Machine
end

