-- ==== Sys2Proof/Machine/Step.lean ====
section
/-! DEFINITION. One step of the machine: one clock cycle (20_memory.md R59, 60_exceptions.md R139–R144;
notes/assumptions/1.md, 2.md). -/

namespace Sys2Proof.Machine

/-- One step. A running command whose latency has passed completes: the engine's event. Otherwise the
cycle passes and the host's next event happens. -/
def step (s : State) : Host.Outcome State Fault Refusal :=
  match s.due with
  | some w =>
    match decode w with
    | .ok i => exec i s
    | .error _ => .next s.illegal
  | none => .next s.passCycle

/-- `s` with the command word issued (60_exceptions.md R141) and its latency passed, so that the very
next step completes it. The engine fetches nothing (10_state.md R20): this stands for the host's write
of `CMD` (notes/assumptions/12.md). -/
def State.withFetchWord (s : State) (nbits w : Nat) : State := s.issuedDue (tableWord nbits w)

end Sys2Proof.Machine
end

