-- ==== Sys2Proof/Safety.lean ====
section
/-! DEFINITION. What the claims say of a run: the status a completion leaves, what it leaves alone, the
legal states, and a step that does not stop. -/

namespace Sys2Proof.Machine

/-- The status fields of a successful completion (60_exceptions.md R143). -/
def Succeeded (t : State) (result : Bool) : Prop :=
  t.busy = false ∧ t.doneFlag = true ∧ t.errFlag = false ∧ t.errcode = .none ∧ t.errinfo = 0 ∧
    t.resultFlag = result ∧ t.donePend = true

/-- The status fields of a failing completion (R144). -/
def Failed (t : State) (e : ErrCode) (info : Word) : Prop :=
  t.busy = false ∧ t.doneFlag = true ∧ t.errFlag = true ∧ t.errcode = e ∧ t.errinfo = info ∧
    t.resultFlag = false ∧ t.donePend = true

/-- `t` is `s` but for the status fields a completion writes (R143, R144): every register, buffer,
length, mask and validity bit, and the host's side, is the same. -/
def OnlyStatus (s t : State) : Prop :=
  t = { s with
    busy := t.busy
    doneFlag := t.doneFlag
    errFlag := t.errFlag
    errcode := t.errcode
    errinfo := t.errinfo
    resultFlag := t.resultFlag
    donePend := t.donePend }

/-- Every byte outside the `n` bytes from `a` on reads as before. -/
def Memory.SameOutside (m m' : Memory) (a n : Nat) : Prop :=
  ∀ x, x < a ∨ a + n ≤ x → m'.read x = m.read x

/-- The bytes of `bs` stand in memory from `a` on. -/
def Memory.Holds (m : Memory) (a : Nat) (bs : List Byte) : Prop :=
  ∀ i, (h : i < bs.length) → m.read (a + i) = some bs[i]

/-- The symbols of `ws` stand in memory from `a` on, one word each. -/
def Memory.HoldsWords (m : Memory) (a : Nat) (ws : List Word) : Prop :=
  ∀ j, (h : j < ws.length) → m.readWord (a + 4 * j) = some ws[j]

/-- What stands in `DIG` after a digest `d` is written: `d`, zeros up to the capacity, its length in
`DIG_LEN`, all else as in `s` but for status (R147). -/
def DigestWritten (s t : State) (d : List Byte) : Prop :=
  Succeeded t false ∧ OnlyStatus { s with mem := t.mem, digLen := t.digLen } t ∧
    t.digLen.toNat = d.length ∧ t.mem.Holds digBase (d ++ List.replicate (32 - d.length) 0) ∧
    s.mem.SameOutside t.mem digBase 32

/-- What stands in `STR` after a symbol string `w` is written: `w`, zeros up to the capacity, its length
in `STR_LEN`, all else as in `s` but for status (R147). -/
def StringWritten (s t : State) (w : List Word) : Prop :=
  Succeeded t false ∧ OnlyStatus { s with mem := t.mem, strLen := t.strLen } t ∧
    t.strLen.toNat = w.length ∧
    t.mem.HoldsWords strBase (w ++ List.replicate (256 - w.length) 0) ∧
    s.mem.SameOutside t.mem strBase 1024

/-- What stands in `MSG` after a byte string `b` is written: `b`, zeros up to the capacity, its length
in `MSG_LEN`, all else as in `s` but for status (R147). -/
def MessageWritten (s t : State) (b : List Byte) : Prop :=
  Succeeded t false ∧ OnlyStatus { s with mem := t.mem, msgLen := t.msgLen } t ∧
    t.msgLen.toNat = b.length ∧ t.mem.Holds msgBase (b ++ List.replicate (128 - b.length) 0) ∧
    s.mem.SameOutside t.mem msgBase 128

/-- The errors a command may raise, the "raised by" column of R145. -/
def raisedBy : Instr → List ErrCode
  | .nop | .fred | .oncurve | .keychk => []
  | .modinv | .padd | .pdbl => [.divisionByZero]
  | .modexp => [.invalidModulus]
  | .pser | .hash160 => [.malformedPublicKey]
  | .smul => [.invalidAlphabet, .invalidScalar, .divisionByZero]
  | .derive => [.invalidAlphabet, .invalidScalar, .divisionByZero, .unexpectedIdentityResult]
  | .sha256 | .rmd160 | .chksum | .b58enc => [.lengthError]
  | .b58chk _ => [.malformedHashInput]
  | .alphav | .b40enc => [.invalidAlphabet]
  | .b40dec => [.invalidAlphabet, .emptyInput, .lengthError, .symbolNotFound, .overflow]
  | .b40h _ => [.invalidAlphabet, .malformedHashInput]

/-- The legal values of the status fields (10_state.md R24, R31, R32; 60_exceptions.md R145, R148):
`ERR = 1` exactly when `ERRCODE != 0`, the reserved code is never held, `RESULT` and `ERRINFO` agree
with `ERR`, and a running command has no completion status. -/
def State.StatusLegal (s : State) : Prop :=
  (s.errFlag = true ↔ s.errcode ≠ .none) ∧ s.errcode ≠ .invalidInput ∧
    (s.errFlag = true → s.resultFlag = false) ∧ (s.errFlag = false → s.errinfo = 0) ∧
    (s.busy = true → s.doneFlag = false ∧ s.errFlag = false ∧ s.resultFlag = false)

/-- While `ALPHA_VALID = 1` the alphabet RAM holds 40 distinct symbols and `ALPHA_LEN` is 40 (10_state.md
R33, 46_base40.md R128). -/
def State.AlphabetHeld (s : State) : Prop :=
  s.alphaValid = true → s.alphaLen = 40 ∧ ∃ A, s.alphabet = .ok A ∧ A.Nodup

/-- `TRACE_LEN` is 256 and the trace has its 256 records exactly while `TRACE_VALID = 1` (10_state.md
R30, R34). -/
def State.TraceHeld (s : State) : Prop :=
  if s.traceValid then s.traceLen = 256 ∧ s.trace.length = 256 else s.traceLen = 0 ∧ s.trace = []

/-- The memory is in its canonical form. -/
def State.MemoryHeld (s : State) : Prop := s.mem.wf = true

/-- The host's list holds no reset: neither the reset input nor a write of `CTRL` with bit 0 set. -/
def noReset (bus : List HostEvent) : Prop :=
  ∀ e ∈ bus, match e with
    | .hardReset => False
    | .write a v => ¬ (locate a = .ctrl ∧ v.getLsbD 0 = true)
    | .read _ | .wait | .idle => True

/-- The table of 70_reset_and_hazards.md R160, row by row. The rows it marks unspecified (the contents of
`MSG`, `ALPHA`, `STR` and `TRACE`) are left out. -/
def ResetValues (t : State) : Prop :=
  t.readable .id = some 0x42343001 ∧ t.ctrlWord = 0 ∧ t.lastcmd = 0 ∧ t.statusWord = 0 ∧ t.irqWord = 0 ∧
  t.msgLen = 0 ∧ t.strLen = 0 ∧ t.digLen = 0 ∧ t.alphaLen = 0 ∧ t.traceLen = 0 ∧ t.errinfo = 0 ∧
  t.k = 0 ∧ t.opa = 0 ∧ t.opb = 0 ∧ t.opm = 0 ∧ t.res = 0 ∧
  t.p1.x = 0 ∧ t.p1.y = 0 ∧ t.p2.x = 0 ∧ t.p2.y = 0 ∧ t.pr.x = 0 ∧ t.pr.y = 0 ∧ t.ptagWord = 0 ∧
  t.p1.pt = .aff 0 0 ∧ t.p2.pt = .aff 0 0 ∧ t.pr.pt = .aff 0 0 ∧
  (∀ i, i < 32 → t.mem.read (digBase + i) = some 0) ∧ t.traceValid = false ∧ t.busy = false

/-- The 256-bit registers, each at its offset in the window (10_state.md R21, R22; 20_memory.md R47). -/
def wideRegisters : List (Nat × (State → Big)) :=
  [(0x40, fun s => s.k), (0x60, fun s => s.opa), (0x80, fun s => s.opb), (0xA0, fun s => s.opm),
   (0xC0, fun s => s.res), (0x100, fun s => s.p1.x), (0x120, fun s => s.p1.y),
   (0x140, fun s => s.p2.x), (0x160, fun s => s.p2.y), (0x180, fun s => s.pr.x),
   (0x1A0, fun s => s.pr.y)]

/-- The first byte offset and the number of the buffer bytes a command may store to (60_exceptions.md
R146, R147); none for a command that stores to no buffer. -/
def storedBytes (i : Instr) : Nat × Nat :=
  if i = .pser then (msgBase, 128)
  else if writesDig i then (digBase, 32)
  else if writesStr i then (strBase, 1024)
  else (0, 0)

/-- `t` is `s` but for the status fields and the command's write set (R146): the frame of every
command. -/
def OnlyWriteSet (i : Instr) (s t : State) : Prop :=
  OnlyStatus { s with
    res := if writesRes i then t.res else s.res
    k := if i = .keychk then t.k else s.k
    pr := if writesPR i then t.pr else s.pr
    msgLen := if i = .pser then t.msgLen else s.msgLen
    digLen := if writesDig i then t.digLen else s.digLen
    strLen := if writesStr i then t.strLen else s.strLen
    trace := if i = .smul ∨ i = .derive then t.trace else s.trace
    traceLen := if i = .smul ∨ i = .derive then t.traceLen else s.traceLen
    traceValid := if i = .smul ∨ i = .derive then t.traceValid else s.traceValid
    alphaValid := if i = .alphav then t.alphaValid else s.alphaValid
    mem := t.mem } t ∧
  s.mem.SameOutside t.mem (storedBytes i).1 (storedBytes i).2

/-- What a successful `SMUL` or `DERIVE` leaves: the result in `PR` with zero coordinates for `INF`, the
records, the two validity fields, all else as in `s` but for status (43_scalar.md R105, R106). -/
def MultiplicationWritten (s t : State) (r : Point) (tr : List TraceRecord) : Prop :=
  Succeeded t false ∧ t.pr = r.toReg ∧ t.trace = tr ∧ t.traceLen = 256 ∧ t.traceValid = true ∧
    OnlyStatus { s with pr := t.pr, trace := t.trace, traceLen := t.traceLen, traceValid := t.traceValid } t

/-- The accumulator a record holds (10_state.md R41). -/
def TraceRecord.point (r : TraceRecord) : Point := if r.inf then .inf else .aff r.x r.y

/-- The shape of a trace (43_scalar.md R102), for the scalar `k`. -/
def TraceShape (k : Big) (tr : List TraceRecord) : Prop :=
  tr.length = 256 ∧ ∀ r, (h : r < tr.length) →
    tr[r].step.toNat = r + 1 ∧ tr[r].bit = k.getLsbD (255 - r) ∧ tr[r].op = tr[r].bit ∧
    tr[r].delta.toNat < 40 ∧ (r = 0 → tr[r].delta = 0) ∧
    ∀ q, (hq : q + 1 = r) →
      if tr[r].symv && (tr[q]'(by omega)).symv
      then tr[r].delta.toNat = (tr[r].sidx.toNat + 40 - (tr[q]'(by omega)).sidx.toNat) % 40
      else tr[r].delta = 0

/-- A record against its accumulator and the alphabet (43_scalar.md R100, R101). -/
def RecordHolds (alpha : List Word) (r : TraceRecord) : Prop :=
  r.symv = !r.inf ∧
  (r.inf = true → r.angle = 0 ∧ r.sidx = 0 ∧ r.delta = 0 ∧ r.symbol = 0 ∧ r.x = 0 ∧ r.y = 0) ∧
  (r.inf = false → r.sidx.toNat = r.x.toNat % 40 ∧ r.angle.toNat = 9 * (r.x.toNat % 40) ∧
    alpha[r.x.toNat % 40]? = some r.symbol)

/-- A point is `INF` or satisfies the curve congruence (42_curve.md R88). -/
def Point.OnCurve : Point → Prop
  | .inf => True
  | .aff x y => ((y.toNat : Int) ^ 2 - ((x.toNat : Int) ^ 3 + 7)) % (curveP : Int) = 0

end Sys2Proof.Machine
end

