-- ==== Sys2Proof/WellFormed.lean ====
section
/-! DEFINITION. When a command word is legal (30_encoding.md R66), said from the opcode map alone and
apart from the decoder. An `Instr` term has nothing left to check: its one operand is an 8-bit value by
its type (R64), so the checks stand on the words an `Instr` is written as. -/

namespace Sys2Proof

/-- The opcode map of R66: each assigned opcode with whether its `ARG` field is used. -/
def opcodeMap : List (Byte × Bool) :=
  [(0x00, false), (0x01, false), (0x02, false), (0x03, false),
   (0x10, false), (0x11, false), (0x12, false), (0x13, false),
   (0x20, false), (0x21, false), (0x22, false),
   (0x30, false), (0x31, false), (0x32, false), (0x33, false),
   (0x40, false), (0x41, true),
   (0x50, false), (0x51, false), (0x52, false), (0x53, true)]

/-- First check of R66: the opcode is assigned. -/
def opcodeAssigned (w : Word) : Bool :=
  opcodeMap.any fun row => row.1 == w.extractLsb' 0 8

/-- Second check of R66, and R65: the reserved field is 0. -/
def rsvZero (w : Word) : Bool :=
  w.extractLsb' 16 16 == 0#16

/-- Third check of R66: the row says `ARG` is used, or `ARG` is 0. -/
def argAllowed (w : Word) : Bool :=
  w.extractLsb' 8 8 == 0#8 || opcodeMap.any fun row => row.1 == w.extractLsb' 0 8 && row.2

/-- A command word is legal exactly when it passes the three checks (R66). -/
def wordLegal (w : Word) : Bool :=
  opcodeAssigned w && rsvZero w && argAllowed w

end Sys2Proof
end

