-- ==== Sys2Proof/Certificates/Slice0/Obligations.lean ====
section
/-! DEFINITION. The statements for the provers. Each docstring names the rule it formalises; a witness for
the hypotheses of each stands in Sys2Proof/Tests/Slice0.lean under its name. -/

open Sys2Proof Sys2Proof.Machine

/-! ### Encoding and decoding -/

/-- Decoding the encoding of any command gives the command back, with every operand (30_encoding.md R63,
R64, R67). -/
def Obligations.DecodeOfEncodeIsTheCommand : Prop :=
  ∀ i : Instr, decode (encode i) = .ok i

/-- A word that decodes is the encoding of what it decodes to: every legal word has one meaning, and no
bit of it is ignored (R63–R68). -/
def Obligations.EncodeOfDecodedWordIsTheWord : Prop :=
  ∀ (w : Word) (i : Instr), decode w = .ok i → encode i = w

/-- The decoder accepts exactly the words that the opcode map calls legal (R66, R67); `RSV` is 0 in each
(R65). -/
def Obligations.DecodeAcceptsExactlyTheLegalWords : Prop :=
  ∀ w : Word, ((∃ i, decode w = .ok i) ↔ wordLegal w = true) ∧
    (rsvField w ≠ 0 → ∀ i, decode w ≠ .ok i)

/-- A few words written out from the encoding lines of the command rules decode to their commands. -/
def Obligations.WordsOfTheSpecDecode : Prop :=
  decode 0x00000000#32 = .ok .nop ∧ decode 0x00000003#32 = .ok .modexp ∧
  decode 0x00000013#32 = .ok .pser ∧ decode 0x00000021#32 = .ok .derive ∧
  decode 0x00000033#32 = .ok .chksum ∧ decode 0x00006F41#32 = .ok (.b58chk 0x6F) ∧
  decode 0x00001F53#32 = .ok (.b40h 31) ∧ decode 0x00000100#32 = .error .argNonzero ∧
  decode 0x00010000#32 = .error .rsvNonzero ∧ decode 0x00000004#32 = .error .reservedOpcode

/-! ### The command lifecycle -/

/-- A step of a running command whose latency has passed runs the command its word decodes to. That the
latency is counted in steps, and that the completion comes before a reset of the same cycle, are the model's
choices (notes/assumptions/1.md, 2.md). -/
def Obligations.StepRunsTheDecodedCommand : Prop :=
  ∀ (s : State) (i : Instr), s.busy = true → s.latencyLeft = 0 → decode s.lastcmd = .ok i →
    step s = exec i s

/-- A host write of `CMD` while idle is the issue of R141, with nothing else changed: the data registers,
the buffers, `ALPHA_VALID`, `DONE_PEND` and `CTRL` keep their values. The latency and the contents of a
trace that is not valid are the model's (notes/assumptions/2.md, 9.md) and not said. -/
def Obligations.IdleCommandWriteIssues : Prop :=
  ∀ (s : State) (v : Word), s.busy = false →
    s.hostWrite cmdAddr v = { s with
      lastcmd := v
      busy := true
      doneFlag := false
      errFlag := false
      errcode := .none
      resultFlag := false
      ovr := false
      errinfo := 0
      traceValid := if v.toNat % 256 = 0x20 ∨ v.toNat % 256 = 0x21 then false else s.traceValid
      traceLen := if v.toNat % 256 = 0x20 ∨ v.toNat % 256 = 0x21 then 0 else s.traceLen
      trace := if v.toNat % 256 = 0x20 ∨ v.toNat % 256 = 0x21 then (s.hostWrite cmdAddr v).trace
        else s.trace
      latencyLeft := (s.hostWrite cmdAddr v).latencyLeft }

/-- An illegal word is issued like any other, and completes with `IllegalCommand`, the whole word in
`ERRINFO`, and no other change (R67, R68, R144). `issuedDue` and the completion before a reset of the same
cycle are the model's (notes/assumptions/1.md, 12.md). -/
def Obligations.IllegalWordCompletesWithIllegalCommand : Prop :=
  ∀ (s : State) (v : Word), wordLegal v = false →
    (s.busy = false → (s.hostWrite cmdAddr v).busy = true ∧ (s.hostWrite cmdAddr v).lastcmd = v) ∧
    ∃ t, step (s.issuedDue v) = .next t ∧ Failed t .illegalCommand v ∧ OnlyStatus (s.issuedDue v) t

/-- The engine leaves `IDLE` only by a write of `CMD`, and `RUNNING` only by a completion or a reset
(R139). A completion is the step of a command whose latency has passed, and the host's events are a list:
the model's choices (notes/assumptions/1.md, 2.md). -/
def Obligations.IdleAndRunningChangeOnlyByTheirEvents : Prop :=
  ∀ s t : State, step s = .next t →
    (s.busy = false → t.busy = true →
      ∃ a v rest, s.bus = .write a v :: rest ∧ locate a = .cmd ∧ t.lastcmd = v) ∧
    (s.busy = true → t.busy = false →
      s.latencyLeft = 0 ∨ (∃ rest, s.bus = .hardReset :: rest) ∨
        ∃ a v rest, s.bus = .write a v :: rest ∧ locate a = .ctrl ∧ v.getLsbD 0 = true)

/-- A running command that no reset abandons comes to its completion event, after the cycles its latency
gives (R140: completion always happens). The count of cycles is the model's (notes/assumptions/2.md). -/
def Obligations.RunningCommandReachesItsCompletion : Prop :=
  ∀ s : State, s.busy = true → noReset s.bus →
    ∃ t : State, Host.Core.run Sys2Proof.core s.latencyLeft s = .next t ∧ t.busy = true ∧ t.latencyLeft = 0 ∧
      t.lastcmd = s.lastcmd

/-- While a command runs and no reset comes, a cycle changes only the interrupt mask and pending bit,
`OVR`, the read bus and the host's side: every operand keeps its value until the completion (R35, R61,
R142). The cycles are the model's (notes/assumptions/2.md). -/
def Obligations.OperandsHoldWhileACommandRuns : Prop :=
  ∀ s t : State, s.busy = true → s.latencyLeft ≠ 0 → noReset s.bus → step s = .next t →
    t = { s with
      irqEn := t.irqEn
      donePend := t.donePend
      ovr := t.ovr
      rdata := t.rdata
      draws := t.draws
      bus := t.bus
      latencyLeft := s.latencyLeft - 1 }

/-- Every completion sets exactly one of the two statuses, `DONE` and `DONE_PEND` in both (R143, R144,
R151): of a command, and of the step in which a command or an illegal word is due. That this step is the
completion even where a reset is the next event is the model's choice (notes/assumptions/1.md). -/
def Obligations.EveryCompletionReportsItsStatus : Prop :=
  (∀ (i : Instr) (s t : State), exec i s = .next t →
    (∃ r, Succeeded t r) ∨ ∃ e info, e ≠ .none ∧ Failed t e info) ∧
  ∀ s t : State, s.busy = true → s.latencyLeft = 0 → step s = .next t →
    (∃ r, Succeeded t r) ∨ ∃ e info, e ≠ .none ∧ Failed t e info

/-- A failing completion, of a command or of an illegal word, reports its code and auxiliary value and
changes status alone, and `ALPHA_VALID` for `ALPHAV` (R144). R144 lets a failing `SMUL` or `DERIVE` have
changed trace records: that the trace too is as before is the model's choice (notes/assumptions/9.md), and
so is the completion before a reset of the same cycle (notes/assumptions/1.md). -/
def Obligations.FailingCompletionWritesOnlyStatus : Prop :=
  (∀ (i : Instr) (s t : State), exec i s = .next t → t.errFlag = true →
    (∃ e info, e ≠ .none ∧ Failed t e info) ∧
      OnlyStatus (if i = .alphav then { s with alphaValid := false } else s) t) ∧
  ∀ s : State, s.busy = true → s.latencyLeft = 0 → wordLegal s.lastcmd = false →
    ∃ t, step s = .next t ∧ Failed t .illegalCommand s.lastcmd ∧ OnlyStatus s t

/-- A completion reports no error or one of those the table gives it, so the reserved code 0x09 never; the
numbers of the errors are those of R145. -/
def Obligations.ErrorsAreThoseOfTheTable : Prop :=
  (∀ (i : Instr) (s t : State), exec i s = .next t → t.errcode = .none ∨ t.errcode ∈ raisedBy i) ∧
  (∀ i : Instr, ErrCode.invalidInput ∉ raisedBy i) ∧
  ∀ e : ErrCode, (e, e.code.toNat) ∈ [(ErrCode.none, 0x00), (.invalidScalar, 0x01),
    (.divisionByZero, 0x02), (.malformedPublicKey, 0x03), (.malformedHashInput, 0x04),
    (.invalidAlphabet, 0x05), (.symbolNotFound, 0x06), (.emptyInput, 0x07),
    (.unexpectedIdentityResult, 0x08), (.invalidInput, 0x09), (.illegalCommand, 0x10),
    (.lengthError, 0x11), (.overflow, 0x12), (.invalidModulus, 0x13)]

/-- The frame of every command: nothing changes but status and the write set, and every byte of memory
outside the buffer the command stores to reads as before (R146, R147). -/
def Obligations.CommandsWriteOnlyTheirWriteSets : Prop :=
  ∀ (i : Instr) (s t : State), exec i s = .next t → OnlyWriteSet i s t

/-- No command is refused; a command stops only with the fault that names a buffer entry nothing has
written (70_reset_and_hazards.md R161), and only a command that reads `MSG`, `STR` or `ALPHA`. That the RAMs
hold nothing after reset is the reading of notes/assumptions/5.md and 7.md. -/
def Obligations.StopsNameUnwrittenEntries : Prop :=
  (∀ (i : Instr) (s : State) (r : Refusal), exec i s ≠ .refused r) ∧
  (∀ (i : Instr) (s : State) (off : Nat), exec i s = .fault (.unwrittenEntry off) →
    (∃ d, d < 4 ∧ s.mem.read (off + d) = none) ∧
    i ∉ [.nop, .fred, .modinv, .modexp, .oncurve, .padd, .pdbl, .pser, .keychk]) ∧
  ∀ (v : Byte) (s : State), ∃ t, exec (.b58chk v) s = .next t

/-! ### Field unit -/

/-- `NOP` writes status and nothing else, and from idle with no trace and no alphabet it leaves
`STATUS = 2` (41_field.md R83). -/
def Obligations.NopChangesOnlyStatus : Prop :=
  encode .nop = 0x00000000#32 ∧
  (∀ s : State, ∃ t, exec .nop s = .next t ∧ Succeeded t false ∧ OnlyStatus s t) ∧
  ∀ s : State, s.busy = false → s.traceValid = false → s.alphaValid = false →
    ∃ t, exec .nop (s.hostWrite cmdAddr (encode .nop)) = .next t ∧ t.statusWord = 0x00000002

/-- `FRED` writes `OPA mod p` into `RES` (R84). -/
def Obligations.FredWritesTheResidue : Prop :=
  encode .fred = 0x00000001#32 ∧
  ∀ s : State, ∃ t, exec .fred s = .next t ∧ Succeeded t false ∧
    OnlyStatus { s with res := t.res } t ∧ t.res.toNat = s.opa.toNat % (2 ^ 256 - 2 ^ 32 - 977)

/-- The modular inverse over `p` (R76): an inverse in `[1, p)`, the Fermat power, for every integer that
`p` does not divide; `DivisionByZero` for the others. -/
def Obligations.InverseIsTheFermatPower : Prop :=
  ∀ (info : Word) (k : Int),
    (k % (curveP : Int) = 0 → inv info k = .error (.raise .divisionByZero info)) ∧
    (k % (curveP : Int) ≠ 0 → ∃ r : Nat, inv info k = .ok r ∧ 1 ≤ r ∧ r < curveP ∧
      (k * r) % (curveP : Int) = 1 ∧ r = (k % (curveP : Int)).toNat ^ (curveP - 2) % curveP)

/-- `MODINV` writes the inverse of `OPA` over `p`, or fails for `OPA = 0` and `OPA = p` (R85). -/
def Obligations.ModinvWritesTheInverse : Prop :=
  encode .modinv = 0x00000002#32 ∧
  ∀ s : State,
    (s.opa.toNat ≠ 0 ∧ s.opa.toNat ≠ curveP → ∃ t, exec .modinv s = .next t ∧ Succeeded t false ∧
      OnlyStatus { s with res := t.res } t ∧ 1 ≤ t.res.toNat ∧ t.res.toNat < curveP ∧
      s.opa.toNat * t.res.toNat % curveP = 1) ∧
    (s.opa.toNat = 0 ∨ s.opa.toNat = curveP → ∃ t, exec .modinv s = .next t ∧
      Failed t .divisionByZero 0 ∧ OnlyStatus s t)

/-- `MODEXP` writes `OPA^OPB mod OPM`, with `0^0 = 1`, or fails for `OPM = 0` (R77, R86). -/
def Obligations.ModexpWritesThePower : Prop :=
  encode .modexp = 0x00000003#32 ∧
  ∀ s : State,
    (s.opm.toNat ≠ 0 → ∃ t, exec .modexp s = .next t ∧ Succeeded t false ∧
      OnlyStatus { s with res := t.res } t ∧
      t.res.toNat = s.opa.toNat ^ s.opb.toNat % s.opm.toNat) ∧
    (s.opm.toNat = 0 → ∃ t, exec .modexp s = .next t ∧ Failed t .invalidModulus 0 ∧ OnlyStatus s t)

/-! ### Point unit -/

/-- `ONCURVE` reports whether `P1` is `INF` or satisfies the curve congruence (42_curve.md R88, R93). -/
def Obligations.OncurveReportsTheCongruence : Prop :=
  encode .oncurve = 0x00000010#32 ∧
  ∀ s : State, ∃ t r, exec .oncurve s = .next t ∧ Succeeded t r ∧ OnlyStatus s t ∧
    (r = true ↔ s.p1.inf = true ∨
      ((s.p1.y.toNat : Int) ^ 2 - ((s.p1.x.toNat : Int) ^ 3 + 7)) % (curveP : Int) = 0)

/-- `PDBL` (R89, R95): `INF` and a raw zero `y` give `INF`, `y = p` fails, every other point gives the
chord-and-tangent result, whose slope is the solution of `2*y*m = 3*x^2 mod p`. -/
def Obligations.PdblWritesTheTangentResult : Prop :=
  encode .pdbl = 0x00000012#32 ∧
  ∀ s : State,
    let x : Int := s.p1.x.toNat
    let y : Int := s.p1.y.toNat
    (s.p1.inf = true ∨ y = 0 → ∃ t, exec .pdbl s = .next t ∧ Succeeded t false ∧
      OnlyStatus { s with pr := t.pr } t ∧ t.pr = { inf := true, x := 0, y := 0 }) ∧
    (s.p1.inf = false ∧ y = curveP → ∃ t, exec .pdbl s = .next t ∧
      Failed t .divisionByZero 0 ∧ OnlyStatus s t) ∧
    (s.p1.inf = false ∧ y ≠ 0 ∧ y ≠ curveP → ∃ t, exec .pdbl s = .next t ∧ Succeeded t false ∧
      OnlyStatus { s with pr := t.pr } t ∧ t.pr.inf = false ∧
      ∃ m : Int, 0 ≤ m ∧ m < curveP ∧ (m * (2 * y) - 3 * x ^ 2) % (curveP : Int) = 0 ∧
        (t.pr.x.toNat : Int) = (m ^ 2 - 2 * x) % curveP ∧
        (t.pr.y.toNat : Int) = (m * (x - t.pr.x.toNat) - y) % curveP)

/-- `PADD` (R90, R94): the identity cases return the other operand raw, equal raw `x` with different raw
`y` gives `INF`, equal points double, distinct but congruent `x` fails, and every other pair gives the
chord result, whose slope is the solution of `m*(x2 - x1) = y2 - y1 mod p`. -/
def Obligations.PaddWritesTheChordResult : Prop :=
  encode .padd = 0x00000011#32 ∧
  ∀ s : State,
    let x1 : Int := s.p1.x.toNat
    let y1 : Int := s.p1.y.toNat
    let x2 : Int := s.p2.x.toNat
    let y2 : Int := s.p2.y.toNat
    (s.p1.inf = true ∨ s.p2.inf = true → ∃ t, exec .padd s = .next t ∧ Succeeded t false ∧
      OnlyStatus { s with pr := t.pr } t ∧
      t.pr = if s.p1.inf then (if s.p2.inf then { inf := true, x := 0, y := 0 } else s.p2)
        else s.p1) ∧
    (s.p1.inf = false ∧ s.p2.inf = false ∧ x1 = x2 ∧ y1 ≠ y2 → ∃ t, exec .padd s = .next t ∧
      Succeeded t false ∧ OnlyStatus { s with pr := t.pr } t ∧
      t.pr = { inf := true, x := 0, y := 0 }) ∧
    (s.p1.inf = false ∧ s.p2.inf = false ∧ x1 = x2 ∧ y1 = y2 → exec .padd s = exec .pdbl s) ∧
    (s.p1.inf = false ∧ s.p2.inf = false ∧ x1 ≠ x2 ∧ (x2 - x1) % (curveP : Int) = 0 →
      ∃ t, exec .padd s = .next t ∧ Failed t .divisionByZero 0 ∧ OnlyStatus s t) ∧
    (s.p1.inf = false ∧ s.p2.inf = false ∧ (x2 - x1) % (curveP : Int) ≠ 0 →
      ∃ t, exec .padd s = .next t ∧ Succeeded t false ∧ OnlyStatus { s with pr := t.pr } t ∧
        t.pr.inf = false ∧
        ∃ m : Int, 0 ≤ m ∧ m < curveP ∧
          (m * (x2 - x1) - (y2 - y1)) % (curveP : Int) = 0 ∧
          (t.pr.x.toNat : Int) = (m ^ 2 - x1 - x2) % curveP ∧
          (t.pr.y.toNat : Int) = (m * (x1 - t.pr.x.toNat) - y1) % curveP)

/-- Adding or doubling points of the curve gives a point of the curve: what `ONCURVE` would say of `PR`. It
follows from R88 to R90; the spec infers it in R108 ("Source properties a model can check"). -/
def Obligations.PointResultsStayOnTheCurve : Prop :=
  ∀ s t : State, t.errFlag = false → s.p1.pt.OnCurve →
    (exec .pdbl s = .next t → t.pr.pt.OnCurve) ∧
    (s.p2.pt.OnCurve → exec .padd s = .next t → t.pr.pt.OnCurve)

/-- `PSER` writes `04`, then `PRX` and `PRY` as 32 big-endian bytes each, zero-filled, and `MSG_LEN = 65`;
`INF` fails (R96). -/
def Obligations.PserWritesTheUncompressedKey : Prop :=
  encode .pser = 0x00000013#32 ∧
  ∀ s : State,
    (s.pr.inf = false → ∃ t m, exec .pser s = .next t ∧ MessageWritten s t m ∧ m.length = 65 ∧
      m[0]? = some 0x04 ∧ intBe ((m.drop 1).take 32) = s.pr.x.toNat ∧
      intBe (m.drop 33) = s.pr.y.toNat) ∧
    (s.pr.inf = true → ∃ t, exec .pser s = .next t ∧ Failed t .malformedPublicKey 0 ∧
      OnlyStatus s t)

/-! ### Scalar multiplier and trace -/

/-- The five commands that need a validated alphabet fail with `InvalidAlphabet` before any other check
when it is not (10_state.md R33, 60_exceptions.md R149); with one, `SMUL` and `DERIVE` fail with
`InvalidScalar` outside `[1, n)` (43_scalar.md R97). That a failure leaves the trace records as they were is
the model's choice (notes/assumptions/9.md). -/
def Obligations.AlphabetIsCheckedBeforeTheScalar : Prop :=
  (∀ (s : State) (tl : Byte), s.alphaValid = false →
    ∀ i ∈ [Instr.smul, .derive, .b40enc, .b40dec, .b40h tl],
      ∃ t, exec i s = .next t ∧ Failed t .invalidAlphabet 0 ∧ OnlyStatus s t) ∧
  ∀ s : State, s.alphaValid = true → s.k.toNat = 0 ∨ curveN ≤ s.k.toNat →
    ∀ i ∈ [Instr.smul, .derive], ∃ t, exec i s = .next t ∧ Failed t .invalidScalar 0 ∧ OnlyStatus s t

/-- `SMUL` and `DERIVE` with a validated alphabet and a valid scalar write what the double-and-add
algorithm of R99 answers; `SMUL` fails as the algorithm fails (R103, R105, R106), and for `DERIVE` the
algorithm never does (DeriveCompletesForEveryValidKey). R103 leaves the records after a failure unspecified:
that they are as before is the model's choice (notes/assumptions/9.md). -/
def Obligations.MultiplicationWritesResultAndTrace : Prop :=
  encode .smul = 0x00000020#32 ∧ encode .derive = 0x00000021#32 ∧
  ∀ (s : State) (A : List Word), s.alphaValid = true → 1 ≤ s.k.toNat → s.k.toNat < curveN →
    s.alphabet = .ok A →
    (∀ R tr, smul s.k s.p1.pt A = .ok (R, tr) →
      ∃ t, exec .smul s = .next t ∧ MultiplicationWritten s t R tr) ∧
    (∀ R tr, smul s.k curveG A = .ok (R, tr) → R ≠ .inf →
      ∃ t, exec .derive s = .next t ∧ MultiplicationWritten s t R tr) ∧
    (∀ info, smul s.k s.p1.pt A = .error (.raise .divisionByZero info) →
      ∃ t, exec .smul s = .next t ∧ Failed t .divisionByZero info ∧ OnlyStatus s t)

/-- `SMUL` completes for every valid scalar and every base whose coordinates are reduced, on the curve or
not: no step divides by zero. It follows from R89, R90 and R99. -/
def Obligations.SmulOfReducedBaseCompletes : Prop :=
  ∀ s : State, s.AlphabetHeld → s.alphaValid = true → 1 ≤ s.k.toNat → s.k.toNat < curveN →
    (s.p1.inf = true ∨ s.p1.x.toNat < curveP ∧ s.p1.y.toNat < curveP) →
    ∃ t R tr, exec .smul s = .next t ∧ MultiplicationWritten s t R tr ∧ tr.length = 256

/-- `DERIVE` completes for every valid private key: neither `DivisionByZero` nor
`UnexpectedIdentityResult` is reachable, and the public key is a point of the curve. The spec infers it in
R103 ("With `B` on the curve and `k` valid, no step fails"), R106 and R108. -/
def Obligations.DeriveCompletesForEveryValidKey : Prop :=
  ∀ s : State, s.AlphabetHeld → s.alphaValid = true → 1 ≤ s.k.toNat → s.k.toNat < curveN →
    ∃ t R tr, exec .derive s = .next t ∧ MultiplicationWritten s t R tr ∧ R ≠ .inf ∧ R.OnCurve

/-- `K = 1` derives `G` and `K = 2` derives the double of `G`, in `PR` and in the last record: what R108
("Source properties a model can check") infers from R99 and R106. -/
def Obligations.DeriveOfOneAndTwo : Prop :=
  ∀ s : State, s.AlphabetHeld → s.alphaValid = true →
    (s.k = 1 → ∃ t tr, exec .derive s = .next t ∧ MultiplicationWritten s t curveG tr ∧
      (tr[255]?.map fun r => r.point) = some curveG) ∧
    (s.k = 2 → ∃ t R tr, exec .derive s = .next t ∧ MultiplicationWritten s t R tr ∧
      pdbl 0 curveG = .ok R ∧ (tr[255]?.map fun r => r.point) = some R)

/-- The shape of every trace: 256 records, their step numbers and bits, and the circular symbol
differences: what R102 ("Properties of the trace") infers from R99 to R101. -/
def Obligations.TracesHaveTheirShape : Prop :=
  ∀ s t : State, (exec .smul s = .next t ∨ exec .derive s = .next t) → t.errFlag = false →
    TraceShape s.k t.trace

/-- Every record of `SMUL`, with base `P1`, and of `DERIVE`, with base `G`, annotates its own accumulator;
each accumulator is the double-and-add step of the one before it, the first of `INF`; the last is the result
in `PR` (R99–R101, R104, R106). -/
def Obligations.RecordsFollowTheAccumulator : Prop :=
  ∀ (s t : State) (A : List Word), s.AlphabetHeld → s.alphabet = .ok A →
    ∀ run ∈ [(Instr.smul, s.p1.pt), (.derive, curveG)], exec run.1 s = .next t → t.errFlag = false →
      (∀ r ∈ t.trace, RecordHolds A r) ∧
      (∀ r, (h : r < t.trace.length) →
        scalarStep (r + 1) (s.k.getLsbD (255 - r)) run.2
          (if r = 0 then .inf else (t.trace[r - 1]'(by omega)).point) = .ok t.trace[r].point) ∧
      (t.trace[255]?.map fun r => r.point) = some t.pr.pt

/-- A failing multiplication leaves `PR` as it was and the trace invalid, since its issue cleared it; a
base `Aff(x, p)` with scalar 2 or 3 fails at step 256 (R103). `issuedDue` stands for the issue and the wait
(notes/assumptions/12.md). R103 says that the hardware may have written records before the failing step: that
the trace is as before is the model's choice (notes/assumptions/9.md). -/
def Obligations.FailedMultiplicationLeavesNoTrace : Prop :=
  (∀ (s t : State) (i : Instr), i = .smul ∨ i = .derive →
    exec i (s.issuedDue (encode i)) = .next t → t.errFlag = true →
    t.pr = s.pr ∧ t.traceValid = false ∧ t.traceLen = 0) ∧
  ∀ s : State, s.AlphabetHeld → s.alphaValid = true → s.k = 2 ∨ s.k = 3 →
    s.p1.inf = false → s.p1.y.toNat = curveP →
    ∃ t, exec .smul s = .next t ∧ Failed t .divisionByZero 256 ∧ OnlyStatus s t

/-- `KEYCHK` accepts exactly the candidates in `[1, n)` into `K`, rejects the others with no error, and
never reduces (R107). -/
def Obligations.KeychkAcceptsExactlyTheRange : Prop :=
  encode .keychk = 0x00000022#32 ∧
  ∀ s : State,
    (1 ≤ s.opa.toNat ∧ s.opa.toNat < curveN → ∃ t, exec .keychk s = .next t ∧ Succeeded t true ∧
      OnlyStatus { s with k := s.opa } t) ∧
    (s.opa.toNat = 0 ∨ curveN ≤ s.opa.toNat → ∃ t, exec .keychk s = .next t ∧
      Succeeded t false ∧ OnlyStatus s t)

/-! ### Hash unit -/

/-- `SHA256`, `RMD160` and `CHKSUM` write their digest of the message, zero-filled, and its length; a
`MSG_LEN` above 128 fails with `LengthError` (44_hash.md R117, R118, R120). -/
def Obligations.HashCommandsWriteTheirDigests : Prop :=
  encode .sha256 = 0x00000030#32 ∧ encode .rmd160 = 0x00000031#32 ∧ encode .chksum = 0x00000033#32 ∧
  (∀ (s : State) (m : List Byte), s.msgLen.toNat ≤ 128 → s.msgString s.msgLen.toNat = .ok m →
    (∃ t, exec .sha256 s = .next t ∧ DigestWritten s t (sha256 m) ∧ t.digLen = 32) ∧
    (∃ t, exec .rmd160 s = .next t ∧ DigestWritten s t (ripemd160 m) ∧ t.digLen = 20) ∧
    (∃ t, exec .chksum s = .next t ∧ DigestWritten s t ((sha256 (sha256 m)).take 4) ∧
      t.digLen = 4)) ∧
  ∀ s : State, 128 < s.msgLen.toNat → ∀ i ∈ [Instr.sha256, .rmd160, .chksum],
    ∃ t, exec i s = .next t ∧ Failed t .lengthError (s.msgLen.setWidth 32) ∧ OnlyStatus s t

/-- `HASH160` checks the length, then the first byte, and writes RIPEMD-160 of SHA-256 of the 65 bytes
(R119). -/
def Obligations.HashOfPublicKeyChecksItsForm : Prop :=
  encode .hash160 = 0x00000032#32 ∧
  ∀ s : State,
    (s.msgLen.toNat ≠ 65 → ∃ t, exec .hash160 s = .next t ∧
      Failed t .malformedPublicKey (s.msgLen.setWidth 32) ∧ OnlyStatus s t) ∧
    (∀ b, s.msgLen.toNat = 65 → s.mem.read msgBase = some b → b ≠ 0x04 →
      ∃ t, exec .hash160 s = .next t ∧
        Failed t .malformedPublicKey (BitVec.ofNat 32 (0x10000 + b.toNat)) ∧ OnlyStatus s t) ∧
    (∀ m, s.msgLen.toNat = 65 → s.msgString 65 = .ok m → m[0]? = some 0x04 →
      ∃ t, exec .hash160 s = .next t ∧ DigestWritten s t (ripemd160 (sha256 m)) ∧ t.digLen = 20)

/-- The check values of the two hash functions (R113, R116). -/
def Obligations.HashCheckValues : Prop :=
  intBe (sha256 []) = 0xe3b0c44298fc1c149afbf4c8996fb92427ae41e4649b934ca495991b7852b855 ∧
  intBe (sha256 [0x61, 0x62, 0x63]) =
    0xba7816bf8f01cfea414140de5dae2223b00361a396177a9cb410ff61f20015ad ∧
  intBe (ripemd160 []) = 0x9c1185a5c5e9fc54612808977ee8f548b2258d31 ∧
  intBe (ripemd160 [0x61, 0x62, 0x63]) = 0x8eb208f7e05d987a9b044a8e98c6b087f15a0bfc

/-- The digest of `SHA256`, `RMD160` and `CHKSUM` depends on the bytes of `MSG` below `MSG_LEN` alone:
bytes at or after it are not read (R117). -/
def Obligations.DigestDependsOnlyOnTheMessage : Prop :=
  ∀ (s s' t t' : State) (i : Instr), i ∈ [Instr.sha256, .rmd160, .chksum] → s.msgLen = s'.msgLen →
    (∀ j, j < s.msgLen.toNat → s.mem.read (msgBase + j) = s'.mem.read (msgBase + j)) →
    (∀ j, j < 32 → s.mem.read (digBase + j) = s'.mem.read (digBase + j)) → s.digLen = s'.digLen →
    exec i s = .next t → exec i s' = .next t' →
    t.digLen = t'.digLen ∧ t.errcode = t'.errcode ∧ t.errinfo = t'.errinfo ∧
      ∀ j, j < 32 → t.mem.read (digBase + j) = t'.mem.read (digBase + j)

/-- After `PSER` of an affine result, `HASH160` right away succeeds, and `B58CHK` after it: the chaining
that 70_reset_and_hazards.md R170 infers ("`PSER` sets `MSG_LEN = 65` for `HASH160`"). -/
def Obligations.SerialisedKeyHashesAndEncodes : Prop :=
  ∀ (s : State) (v : Byte), s.pr.inf = false →
    ∃ t u w, exec .pser s = .next t ∧ exec .hash160 t = .next u ∧ Succeeded u false ∧
      u.digLen = 20 ∧ exec (.b58chk v) u = .next w ∧ Succeeded w false

/-! ### Base58 unit -/

/-- `B58ENC` writes one zero symbol per leading zero byte, then the base-58 digits of the big-endian
value, most significant first; `"1"` for the empty input; a `MSG_LEN` above 128 fails with `LengthError`
(45_base58.md R123, R126). -/
def Obligations.BaseFiftyEightWritesThePositionalDigits : Prop :=
  encode .b58enc = 0x00000040#32 ∧
  (∀ s : State, 128 < s.msgLen.toNat → ∃ t, exec .b58enc s = .next t ∧
    Failed t .lengthError (s.msgLen.setWidth 32) ∧ OnlyStatus s t) ∧
  ∀ (s : State) (m : List Byte), s.msgLen.toNat ≤ 128 → s.msgString s.msgLen.toNat = .ok m →
    ∃ t, exec .b58enc s = .next t ∧
      StringWritten s t
        (if m = [] then [0x31] else
          List.replicate (m.takeWhile (· = 0)).length 0x31 ++
            ((Nat.digits 58 (intBe m)).reverse.map base58Symbol))

/-- `B58CHK` writes the Base58 encoding of version byte, hash and checksum; any `DIG_LEN` but 20 fails
(R124, R127). -/
def Obligations.BaseFiftyEightCheckEncodesTheHash : Prop :=
  (∀ v : Byte, encode (.b58chk v) = BitVec.ofNat 32 (256 * v.toNat + 0x41)) ∧
  ∀ (s : State) (v : Byte),
    (∀ h, s.digLen.toNat = 20 → s.digString 20 = .ok h →
      ∃ t, exec (.b58chk v) s = .next t ∧
        StringWritten s t (b58enc (v :: h ++ (sha256 (sha256 (v :: h))).take 4))) ∧
    (s.digLen.toNat ≠ 20 → ∃ t, exec (.b58chk v) s = .next t ∧
      Failed t .malformedHashInput (s.digLen.setWidth 32) ∧ OnlyStatus s t)

/-- The output lengths R125 ("Output lengths") infers from R123 and R124: 175 symbols for 128 bytes, reached
by `FF` bytes, and 35 for Base58Check. -/
def Obligations.BaseFiftyEightLengthBounds : Prop :=
  (∀ m : List Byte, m.length ≤ 128 → (b58enc m).length ≤ 175) ∧
  (b58enc (List.replicate 128 0xFF)).length = 175 ∧
  ∀ (h : List Byte) (v : Byte), h.length = 20 → (b58chk h v).length ≤ 35

/-! ### Base40 unit -/

/-- `ALPHAV` accepts 40 distinct symbols and no other alphabet; a wrong length is reported, else the
smallest entry that repeats an earlier one (46_base40.md R128, R135). -/
def Obligations.AlphavDecidesValidity : Prop :=
  encode .alphav = 0x00000050#32 ∧
  (∀ s : State, s.alphaLen.toNat ≠ 40 → ∃ t, exec .alphav s = .next t ∧
    Failed t .invalidAlphabet (s.alphaLen.setWidth 32) ∧ OnlyStatus { s with alphaValid := false } t) ∧
  ∀ (s : State) (A : List Word), s.alphaLen.toNat = 40 → s.alphabet = .ok A →
    (A.Nodup → ∃ t, exec .alphav s = .next t ∧ Succeeded t false ∧
      OnlyStatus { s with alphaValid := true } t) ∧
    (∀ j, (h : j < A.length) → A[j] ∈ A.take j → (A.take j).Nodup →
      ∃ t, exec .alphav s = .next t ∧ Failed t .invalidAlphabet (BitVec.ofNat 32 (0x10000 + j)) ∧
        OnlyStatus { s with alphaValid := false } t)

/-- `B40ENC` writes the base-40 digits of `OPA` as alphabet symbols, most significant first, `A[0]` for 0,
and needs a validated alphabet (R129, R136). -/
def Obligations.BaseFortyWritesThePositionalDigits : Prop :=
  encode .b40enc = 0x00000051#32 ∧
  (∀ s : State, s.alphaValid = false → ∃ t, exec .b40enc s = .next t ∧
    Failed t .invalidAlphabet 0 ∧ OnlyStatus s t) ∧
  ∀ (s : State) (A : List Word), s.alphaValid = true → s.alphabet = .ok A →
    ∃ t w, exec .b40enc s = .next t ∧ StringWritten s t w ∧
      w.map some = if s.opa = 0 then [A[0]?] else
        ((Nat.digits 40 s.opa.toNat).reverse.map fun d => A[d]?)

/-- `B40DEC` (R130, R137): the alphabet and length checks in order, the absent symbol of largest index reported, the
positional value written, a value of 2^256 or more rejected. `S` is the string in `STR`, `D` its digits. -/
def Obligations.BaseFortyDecodesThePositionalValue : Prop :=
  encode .b40dec = 0x00000052#32 ∧
  (∀ s : State, s.alphaValid = false → ∃ t, exec .b40dec s = .next t ∧
    Failed t .invalidAlphabet 0 ∧ OnlyStatus s t) ∧
  (∀ s : State, s.alphaValid = true → s.strLen.toNat = 0 → ∃ t, exec .b40dec s = .next t ∧
    Failed t .emptyInput 0 ∧ OnlyStatus s t) ∧
  (∀ s : State, s.alphaValid = true → 256 < s.strLen.toNat → ∃ t, exec .b40dec s = .next t ∧
    Failed t .lengthError (s.strLen.setWidth 32) ∧ OnlyStatus s t) ∧
  ∀ (s : State) (A S : List Word), s.alphaValid = true → s.strLen.toNat ≠ 0 →
    s.strLen.toNat ≤ 256 → s.alphabet = .ok A → s.mem.readWords strBase s.strLen.toNat = .ok S →
    (∀ j, (h : j < S.length) → S[j] ∉ A → (∀ c ∈ S.drop (j + 1), c ∈ A) →
      ∃ t, exec .b40dec s = .next t ∧ Failed t .symbolNotFound (BitVec.ofNat 32 j) ∧
        OnlyStatus s t) ∧
    ((∀ c ∈ S, c ∈ A) →
      (Nat.ofDigits 40 (S.reverse.map fun c => A.idxOf c) < 2 ^ 256 →
        ∃ t, exec .b40dec s = .next t ∧ Succeeded t false ∧ OnlyStatus { s with res := t.res } t ∧
          t.res.toNat = Nat.ofDigits 40 (S.reverse.map fun c => A.idxOf c)) ∧
      (2 ^ 256 ≤ Nat.ofDigits 40 (S.reverse.map fun c => A.idxOf c) →
        ∃ t, exec .b40dec s = .next t ∧ Failed t .overflow 0 ∧ OnlyStatus s t))

/-- `B40ENC` followed by `B40DEC` restores `OPA` in `RES`, for every 256-bit value and every validated
alphabet: a property R133 ("`b40dec(b40enc(v)) = v` for every `v`") infers from R129 and R130. -/
def Obligations.BaseFortyRoundTripRestoresTheOperand : Prop :=
  ∀ s : State, s.AlphabetHeld → s.alphaValid = true →
    ∃ t u, exec .b40enc s = .next t ∧ exec .b40dec t = .next u ∧ Succeeded u false ∧ u.res = s.opa

/-- `B40H` writes the Base40 digits of the 20-byte hash, padded on the left with `A[0]` to the target
length and never cut; an alphabet not validated, then any `DIG_LEN` but 20, fails (R131, R138). -/
def Obligations.BaseFortyHashPadsToTheTarget : Prop :=
  (∀ tl : Byte, encode (.b40h tl) = BitVec.ofNat 32 (256 * tl.toNat + 0x53)) ∧
  (∀ (s : State) (tl : Byte), s.alphaValid = false → ∃ t, exec (.b40h tl) s = .next t ∧
    Failed t .invalidAlphabet 0 ∧ OnlyStatus s t) ∧
  (∀ (s : State) (tl : Byte), s.alphaValid = true → s.digLen.toNat ≠ 20 →
    ∃ t, exec (.b40h tl) s = .next t ∧ Failed t .malformedHashInput (s.digLen.setWidth 32) ∧
      OnlyStatus s t) ∧
  ∀ (s : State) (tl : Byte) (A : List Word) (h : List Byte), s.alphaValid = true →
    s.digLen.toNat = 20 → s.alphabet = .ok A → s.digString 20 = .ok h →
    ∃ t pad, exec (.b40h tl) s = .next t ∧
      StringWritten s t (List.replicate pad (A.getD 0 0) ++ b40enc (intBe h) A) ∧
      pad + (b40enc (intBe h) A).length = max tl.toNat (b40enc (intBe h) A).length

/-! ### The host window -/

/-- A 256-bit register in the window: while idle, word `j` at the register's offset plus `4*j` reads as bits
`[255 - 32*j : 224 - 32*j]`, and the eight words make the value; the `X` and `Y` of a trace record are laid
out in the same way (20_memory.md R47, R50; 10_state.md R42). -/
def Obligations.RegisterWordsAreBigEndian : Prop :=
  ∀ s : State, s.busy = false →
    let read := fun off => (s.hostRead (wordAddr off)).rdata.toNat
    (∀ row ∈ wideRegisters,
      (∀ j, j < 8 → read (row.1 + 4 * j) = (row.2 s).toNat / 2 ^ (32 * (7 - j)) % 2 ^ 32) ∧
      (row.2 s).toNat = ((List.range 8).map fun j => read (row.1 + 4 * j) * 2 ^ (32 * (7 - j))).sum) ∧
    ∀ (i : Nat) (r : TraceRecord), s.traceValid = true → i < 256 → s.trace[i]? = some r →
      ∀ j, j < 8 →
        read (0x4000 + 80 * i + 16 + 4 * j) = r.x.toNat / 2 ^ (32 * (7 - j)) % 2 ^ 32 ∧
        read (0x4000 + 80 * i + 48 + 4 * j) = r.y.toNat / 2 ^ (32 * (7 - j)) % 2 ^ 32

/-- A host write while idle (R48, R50, R56; 10_state.md R23, R25, R27, R28, R33), at the offsets of R47. A
word of a 256-bit register: that word alone, no other register and no other state. A length register: its
named bits, and `ALPHA_LEN` also clears `ALPHA_VALID`. `PTAG`: the three `INF` bits. `CTRL` without a reset:
`IRQ_EN`. `IRQ`: `DONE_PEND`. Read-only and reserved offsets: nothing. -/
def Obligations.IdleWritesStoreTheirBitsAlone : Prop :=
  ∀ (s : State) (v : Word), s.busy = false →
    (∀ row ∈ wideRegisters, ∀ j, j < 8 →
      let t := s.hostWrite (wordAddr (row.1 + 4 * j)) v
      (row.2 t).toNat / 2 ^ (32 * (7 - j)) % 2 ^ 32 = v.toNat ∧
      (∀ j', j' < 8 → j' ≠ j → (row.2 t).toNat / 2 ^ (32 * (7 - j')) % 2 ^ 32 =
        (row.2 s).toNat / 2 ^ (32 * (7 - j')) % 2 ^ 32) ∧
      (∀ row' ∈ wideRegisters, row'.1 ≠ row.1 → row'.2 t = row'.2 s) ∧
      t = { s with
        k := t.k, opa := t.opa, opb := t.opb, opm := t.opm, res := t.res
        p1 := { s.p1 with x := t.p1.x, y := t.p1.y }
        p2 := { s.p2 with x := t.p2.x, y := t.p2.y }
        pr := { s.pr with x := t.pr.x, y := t.pr.y } }) ∧
    s.hostWrite (wordAddr 0x14) v = { s with msgLen := BitVec.ofNat 9 v.toNat } ∧
    s.hostWrite (wordAddr 0x18) v = { s with strLen := BitVec.ofNat 9 v.toNat } ∧
    s.hostWrite (wordAddr 0x1C) v = { s with digLen := BitVec.ofNat 6 v.toNat } ∧
    s.hostWrite (wordAddr 0x20) v = { s with alphaLen := BitVec.ofNat 7 v.toNat, alphaValid := false } ∧
    s.hostWrite (wordAddr 0x1C0) v = { s with
      p1 := { s.p1 with inf := v.getLsbD 0 }
      p2 := { s.p2 with inf := v.getLsbD 1 }
      pr := { s.pr with inf := v.getLsbD 2 } } ∧
    (v.getLsbD 0 = false → s.hostWrite (wordAddr 0x04) v = { s with irqEn := v.getLsbD 1 }) ∧
    s.hostWrite (wordAddr 0x10) v = { s with donePend := s.donePend && !v.getLsbD 0 } ∧
    (∀ off ∈ [0x00, 0x0C, 0x24, 0x28], s.hostWrite (wordAddr off) v = s) ∧
    ∀ a : Addr, (0x4000 ≤ 4 * a.toNat ∧ 4 * a.toNat < 0x9000) ∨ locate a = .reserved →
      s.hostWrite a v = s

/-- A host write of a buffer word while idle, at the offsets of R47, stores four bytes, first byte in bits
[31:24], and leaves every other byte; it reads back, and only a write of `ALPHA` also clears `ALPHA_VALID`
(R51, R52, R55, R56; 10_state.md R33, R36–R39). -/
def Obligations.BufferWordWriteReadsBack : Prop :=
  ∀ (s : State) (v : Word) (off : Nat), s.busy = false → off % 4 = 0 →
    (0x200 ≤ off ∧ off < 0x220) ∨ (0x400 ≤ off ∧ off < 0x480) ∨ (0x800 ≤ off ∧ off < 0x900) ∨
      (0x1000 ≤ off ∧ off < 0x1400) →
    let t := s.hostWrite (wordAddr off) v
    (t.hostRead (wordAddr off)).rdata = v ∧
    (∀ i, i < 4 → (t.mem.read (off + i)).map (·.toNat) = some (v.toNat / 2 ^ (24 - 8 * i) % 256)) ∧
    s.mem.SameOutside t.mem off 4 ∧
    t = { s with
      mem := t.mem
      alphaValid := if 0x800 ≤ off ∧ off < 0x900 then false else s.alphaValid }

/-- Host writes while a command runs (10_state.md R25, R27, R35, R41; 20_memory.md R48): to `CMD`, a length,
a data register or a buffer they set `OVR` and change nothing else; to `IRQ` and, without a reset, `CTRL`
they act and leave `OVR`; to read-only and reserved offsets they do nothing. -/
def Obligations.BusyWritesAreDropped : Prop :=
  ∀ (s : State) (a : Addr) (v : Word), s.busy = true →
    (locate a ∉ [.ctrl, .irq, .id, .status, .traceLen, .errinfo, .reserved] →
      (∀ r w, locate a ≠ .trace r w) → s.hostWrite a v = { s with ovr := true }) ∧
    (locate a ∈ [.id, .status, .traceLen, .errinfo, .reserved] → s.hostWrite a v = s) ∧
    (∀ r w, locate a = .trace r w → s.hostWrite a v = s) ∧
    (locate a = .irq → s.hostWrite a v = { s with donePend := s.donePend && !v.getLsbD 0 }) ∧
    (locate a = .ctrl → v.getLsbD 0 = false → s.hostWrite a v = { s with irqEn := v.getLsbD 1 })

/-- The address map of R47, whole: which word of the window is what. A host read changes the read bus and the
count of draws alone. It returns what the location holds,
packed, 0 for a reserved offset; a running command's write set, an unwritten buffer word and an invalid
trace give a draw; `ID`, `CTRL`, `CMD`, `STATUS` and `IRQ` read exactly at all times (R48, R55, R57;
10_state.md R34; 70_reset_and_hazards.md R161). The read bus and the draws are the model's own fields, and
that `ERRINFO` and the whole of `PTAG` are in a write set is its reading (notes/assumptions/3.md, 4.md,
8.md). -/
def Obligations.HostReadReturnsTheHeldWord : Prop :=
  (∀ a : Addr,
    (∀ row ∈ [(0x00, Location.id), (0x04, .ctrl), (0x08, .cmd), (0x0C, .status), (0x10, .irq),
        (0x14, .msgLen), (0x18, .strLen), (0x1C, .digLen), (0x20, .alphaLen), (0x24, .traceLen),
        (0x28, .errinfo), (0x1C0, .ptag)],
      locate a = row.2 ↔ 4 * a.toNat = row.1) ∧
    (∀ r j, locate a = .big r j ↔ j < 8 ∧ ∃ off, 4 * a.toNat = off + 4 * j ∧
      (r, off) ∈ [(BigReg.k, 0x40), (.opa, 0x60), (.opb, 0x80), (.opm, 0xA0), (.res, 0xC0),
        (.p1x, 0x100), (.p1y, 0x120), (.p2x, 0x140), (.p2y, 0x160), (.prx, 0x180), (.pry, 0x1A0)]) ∧
    (∀ off, locate a = .dig off ↔ off = 4 * a.toNat ∧ 0x200 ≤ off ∧ off < 0x220) ∧
    (∀ off, locate a = .msg off ↔ off = 4 * a.toNat ∧ 0x400 ≤ off ∧ off < 0x480) ∧
    (∀ off, locate a = .alpha off ↔ off = 4 * a.toNat ∧ 0x800 ≤ off ∧ off < 0x900) ∧
    (∀ off, locate a = .str off ↔ off = 4 * a.toNat ∧ 0x1000 ≤ off ∧ off < 0x1400) ∧
    (∀ r w, locate a = .trace r w ↔ r < 256 ∧ w < 20 ∧ 4 * a.toNat = 0x4000 + 80 * r + 4 * w) ∧
    (locate a = .reserved ↔ ∃ range ∈ [(0x2C, 0x40), (0xE0, 0x100), (0x1C4, 0x200), (0x220, 0x400),
      (0x480, 0x800), (0x900, 0x1000), (0x1400, 0x4000), (0x9000, 0x10000)],
      range.1 ≤ 4 * a.toNat ∧ 4 * a.toNat < range.2)) ∧
  ∀ (s : State) (a : Addr),
    s.hostRead a = { s with rdata := (s.hostRead a).rdata, draws := (s.hostRead a).draws } ∧
    (s.busy = false ∨ inWriteSet s.command (locate a) = false →
      (∀ w, s.held (locate a) = some w → (s.hostRead a).rdata = w ∧ (s.hostRead a).draws = s.draws) ∧
      (s.held (locate a) = none → (s.hostRead a).rdata = Config.draw s.draws)) ∧
    (s.busy = true → inWriteSet s.command (locate a) = true →
      (s.hostRead a).rdata = Config.draw s.draws ∧ (s.hostRead a).draws = s.draws + 1) ∧
    (locate a = .reserved → (s.hostRead a).rdata = 0) ∧
    (locate a = .id → (s.hostRead a).rdata = 0x42343001) ∧
    (locate a = .cmd → (s.hostRead a).rdata = s.lastcmd) ∧
    (locate a = .status → (s.hostRead a).rdata = s.statusWord) ∧
    (locate a = .ctrl → (s.hostRead a).rdata = s.ctrlWord) ∧
    (locate a = .irq → (s.hostRead a).rdata = s.irqWord)

/-- The control, status, length and tag words and the first four words of a trace record, bit by bit, as the
host reads them at their offsets (10_state.md R23–R31, R42; 20_memory.md R47). `STATUS`, `CTRL`, `CMD`, `IRQ`
and `ID` read so at all times, the others while idle. -/
def Obligations.WindowWordsHoldTheirFields : Prop :=
  ∀ s : State,
    let read := fun off => (s.hostRead (wordAddr off)).rdata
    (read 0x00 = 0x42343001 ∧ read 0x08 = s.lastcmd ∧ (read 0x04).toNat = 2 * s.irqEn.toNat ∧
      (read 0x10).toNat = s.donePend.toNat) ∧
    ((read 0x0C).getLsbD 0 = s.busy ∧ (read 0x0C).getLsbD 1 = s.doneFlag ∧
      (read 0x0C).getLsbD 2 = s.errFlag ∧ (read 0x0C).getLsbD 3 = s.resultFlag ∧
      (read 0x0C).getLsbD 4 = s.traceValid ∧ (read 0x0C).getLsbD 5 = s.alphaValid ∧
      (read 0x0C).getLsbD 6 = s.ovr ∧ (read 0x0C).getLsbD 7 = false ∧
      (read 0x0C).toNat / 256 = s.errcode.code.toNat) ∧
    (s.busy = false →
      (read 0x14).toNat = s.msgLen.toNat ∧ (read 0x18).toNat = s.strLen.toNat ∧
      (read 0x1C).toNat = s.digLen.toNat ∧ (read 0x20).toNat = s.alphaLen.toNat ∧
      (read 0x24).toNat = s.traceLen.toNat ∧ read 0x28 = s.errinfo ∧
      (read 0x1C0).toNat = s.p1.inf.toNat + 2 * s.p2.inf.toNat + 4 * s.pr.inf.toNat ∧
      ∀ (i : Nat) (r : TraceRecord), s.traceValid = true → i < 256 → s.trace[i]? = some r →
        (read (0x4000 + 80 * i)).toNat = r.step.toNat + 2 ^ 9 * r.bit.toNat + 2 ^ 10 * r.op.toNat +
          2 ^ 11 * r.inf.toNat + 2 ^ 12 * r.symv.toNat ∧
        (read (0x4000 + 80 * i + 4)).toNat =
          r.angle.toNat + 2 ^ 16 * r.sidx.toNat + 2 ^ 24 * r.delta.toNat ∧
        read (0x4000 + 80 * i + 8) = r.symbol ∧ read (0x4000 + 80 * i + 12) = 0)

/-- Either reset gives the values of the table of 70_reset_and_hazards.md R160, whatever the state, and
abandons a running command (R163): the write of `CTRL` with bit 0 set, and the reset input, whose event the
model takes in a cycle in which no completion is due (notes/assumptions/1.md). `State.reset` has them too. -/
def Obligations.EitherResetGivesTheResetState : Prop :=
  ResetValues State.reset ∧
  ∀ (s : State) (a : Addr) (v : Word) (rest : List HostEvent),
    (locate a = .ctrl → v.getLsbD 0 = true → ResetValues (s.hostWrite a v)) ∧
    (s.bus = .hardReset :: rest → s.busy = false ∨ s.latencyLeft ≠ 0 →
      ∃ t, step s = .next t ∧ ResetValues t)

/-- The interrupt output follows the mask and the pending bit at once; every completion, of a command or
of an illegal word (`State.illegal`), raises the pending bit; only a write of 1 to `IRQ[0]` and a reset clear
it (60_exceptions.md R151). -/
def Obligations.InterruptFollowsMaskAndPending : Prop :=
  ∀ s : State,
    (s.irq = true ↔ s.irqEn = true ∧ s.donePend = true) ∧
    (∀ i t, exec i s = .next t → t.donePend = true ∧ t.irq = s.irqEn) ∧
    (s.illegal.donePend = true ∧ s.illegal.irq = s.irqEn) ∧
    (∀ a v, locate a = .irq → v.getLsbD 0 = true → (s.hostWrite a v).irq = false) ∧
    (∀ a v, locate a = .ctrl → v.getLsbD 0 = false →
      (s.hostWrite a v).irq = (v.getLsbD 1 && s.donePend)) ∧
    ∀ t, step s = .next t → s.donePend = true → t.donePend = false →
      (∃ rest, s.bus = .hardReset :: rest) ∨
        ∃ a v rest, s.bus = .write a v :: rest ∧ v.getLsbD 0 = true ∧
          (locate a = .irq ∨ locate a = .ctrl)

/-! ### Invariants -/

/-- Every step keeps the memory in its canonical form. -/
def Obligations.StepKeepsTheMemoryCanonical : Prop :=
  ∀ s t : State, s.MemoryHeld → step s = .next t → t.MemoryHeld

/-- Every step keeps the status fields legal (10_state.md R24). -/
def Obligations.StepKeepsTheStatusLegal : Prop :=
  ∀ s t : State, s.StatusLegal → step s = .next t → t.StatusLegal

/-- Every step keeps the promise of `ALPHA_VALID`: 40 distinct symbols stand in the alphabet RAM
(10_state.md R33). -/
def Obligations.StepKeepsTheValidatedAlphabet : Prop :=
  ∀ s t : State, s.AlphabetHeld → step s = .next t → t.AlphabetHeld

/-- Every step keeps the promise of `TRACE_VALID`: the trace has its 256 records (10_state.md R30, R34). -/
def Obligations.StepKeepsTheTraceWhole : Prop :=
  ∀ s t : State, s.TraceHeld → step s = .next t → t.TraceHeld

/-- The state after reset meets the four invariants. That it holds no trace records is the model's choice
(notes/assumptions/9.md). -/
def Obligations.ResetMeetsTheInvariants : Prop :=
  State.reset.MemoryHeld ∧ State.reset.StatusLegal ∧ State.reset.AlphabetHeld ∧ State.reset.TraceHeld
end

