-- ==== Sys2Proof/Laws/Memory.lean ====
section
/-! SUPPORT. Memory: a read after a write, everything a write can do to a read, and the canonical
form. -/

namespace Sys2Proof.Machine

/-! ### Lookups -/

theorem lookup_filter_key (m : Memory) (p : Nat → Bool) (x : Nat) :
    (m.filter fun c => p c.1).lookup x = if p x then m.lookup x else none := by
  induction m with
  | nil => simp
  | cons c m ih =>
    obtain ⟨k, v⟩ := c
    by_cases hk : x = k
    · subst hk
      by_cases hp : p x
      · simp [hp]
      · simpa [hp] using ih
    · have hb : (x == k) = false := by simpa using hk
      by_cases hp : p k <;> simp [hp, List.lookup_cons, hb, ih]

theorem lookup_cells (bs : List Byte) (a x : Nat) :
    (Memory.cells a bs).lookup x =
      if h : a ≤ x ∧ x - a < bs.length then
        (if Memory.unlisted x = some (bs[x - a]'h.2) then none else some (bs[x - a]'h.2))
      else none := by
  induction bs generalizing a with
  | nil => simp [Memory.cells]
  | cons b bs ih =>
    by_cases hx : x = a
    · subst hx
      by_cases hu : Memory.unlisted x = some b
      · have hlt : ¬ (x + 1 ≤ x ∧ x - (x + 1) < bs.length) := by omega
        simp [Memory.cells, hu, ih]
      · simp [Memory.cells, hu]
    · have hb : (x == a) = false := by simpa using hx
      have step : (Memory.cells a (b :: bs)).lookup x = (Memory.cells (a + 1) bs).lookup x := by
        by_cases hu : Memory.unlisted a = some b <;> simp [Memory.cells, hu, List.lookup_cons, hb]
      rw [step, ih]
      by_cases hr : a + 1 ≤ x ∧ x - (a + 1) < bs.length
      · have hr' : a ≤ x ∧ x - a < (b :: bs).length := by simp; omega
        have hget : (b :: bs)[x - a]'hr'.2 = bs[x - (a + 1)]'hr.2 := by
          have : x - a = (x - (a + 1)) + 1 := by omega
          simp [this]
        rw [dif_pos hr, dif_pos hr', hget]
      · have hr' : ¬ (a ≤ x ∧ x - a < (b :: bs).length) := by simp; omega
        rw [dif_neg hr, dif_neg hr']

/-! ### Reads after a write -/

/-- Everything a write does to the reads: the stored bytes, and every other byte as before. -/
theorem Memory.read_write (m : Memory) (a : Nat) (bs : List Byte) (x : Nat) :
    (m.write a bs).read x = if h : a ≤ x ∧ x - a < bs.length then some (bs[x - a]'h.2) else m.read x := by
  have hlook : (m.write a bs).lookup x =
      ((if x < a then m.lookup x else none).or ((Memory.cells a bs).lookup x)).or
        (if a + bs.length ≤ x then m.lookup x else none) := by
    simp only [Memory.write, List.lookup_append]
    rw [lookup_filter_key m (fun k => decide (k < a)), lookup_filter_key m (fun k => decide (a + bs.length ≤ k))]
    simp
  unfold Memory.read
  rw [hlook, lookup_cells]
  by_cases h1 : x < a
  · have hn : ¬ (a ≤ x ∧ x - a < bs.length) := by omega
    have h2 : ¬ (a + bs.length ≤ x) := by omega
    simp [h1, hn, h2]
  · by_cases h2 : a + bs.length ≤ x
    · have hn : ¬ (a ≤ x ∧ x - a < bs.length) := by omega
      simp [h1, hn, h2]
    · have hy : a ≤ x ∧ x - a < bs.length := by omega
      by_cases hu : Memory.unlisted x = some (bs[x - a]'hy.2)
      · simp [h1, h2, hy, hu]
      · simp [h1, h2, hy, hu]

theorem Memory.read_write_inside (m : Memory) (a : Nat) (bs : List Byte) (i : Nat)
    (h : i < bs.length) : (m.write a bs).read (a + i) = some bs[i] := by
  rw [Memory.read_write, dif_pos ⟨by omega, by omega⟩]; simp

theorem Memory.read_write_outside (m : Memory) (a : Nat) (bs : List Byte) (x : Nat)
    (h : x < a ∨ a + bs.length ≤ x) : (m.write a bs).read x = m.read x := by
  rw [Memory.read_write, dif_neg (by omega)]

theorem Memory.write_sameOutside (m : Memory) (a : Nat) (bs : List Byte) :
    m.SameOutside (m.write a bs) a bs.length :=
  fun x h => m.read_write_outside a bs x h

theorem Memory.write_holds (m : Memory) (a : Nat) (bs : List Byte) : (m.write a bs).Holds a bs :=
  fun i h => m.read_write_inside a bs i h

/-! ### The canonical form -/

theorem Memory.wf_iff (m : Memory) :
    m.wf = true ↔ (m.Pairwise fun c d => c.1 < d.1) ∧ ∀ c ∈ m, Memory.unlisted c.1 ≠ some c.2 := by
  simp [Memory.wf]

theorem cells_mem (bs : List Byte) (a : Nat) (c : Host.Cell) (h : c ∈ Memory.cells a bs) :
    a ≤ c.1 ∧ c.1 < a + bs.length ∧ Memory.unlisted c.1 ≠ some c.2 := by
  induction bs generalizing a with
  | nil => simp [Memory.cells] at h
  | cons b bs ih =>
    have tail : c ∈ Memory.cells (a + 1) bs → a ≤ c.1 ∧ c.1 < a + (b :: bs).length ∧
        Memory.unlisted c.1 ≠ some c.2 := fun h' => by
      have := ih (a + 1) h'; simp; refine ⟨by omega, by omega, this.2.2⟩
    by_cases hu : Memory.unlisted a = some b
    · simp [Memory.cells, hu] at h; exact tail h
    · simp [Memory.cells, hu] at h
      rcases h with rfl | h
      · simp [hu]
      · exact tail h

theorem cells_pairwise (bs : List Byte) (a : Nat) :
    (Memory.cells a bs).Pairwise fun c d => c.1 < d.1 := by
  induction bs generalizing a with
  | nil => simp [Memory.cells]
  | cons b bs ih =>
    by_cases hu : Memory.unlisted a = some b
    · simp [Memory.cells, hu, ih]
    · simp only [Memory.cells, hu, if_false, List.pairwise_cons]
      exact ⟨fun c hc => by have := cells_mem bs (a + 1) c hc; show a < c.1; omega, ih (a + 1)⟩

/-- A write keeps the canonical form. -/
theorem Memory.wf_write (m : Memory) (a : Nat) (bs : List Byte) (h : m.wf = true) :
    (m.write a bs).wf = true := by
  rw [Memory.wf_iff] at h ⊢
  obtain ⟨hp, hu⟩ := h
  constructor
  · simp only [Memory.write, List.pairwise_append, List.mem_append, List.mem_filter,
      decide_eq_true_eq]
    refine ⟨⟨hp.filter _, cells_pairwise bs a, ?_⟩, hp.filter _, ?_⟩
    · intro c hc d hd; have := cells_mem bs a d hd; omega
    · intro c hc d hd
      rcases hc with hc | hc
      · omega
      · have := cells_mem bs a c hc; omega
  · intro c hc
    simp only [Memory.write, List.mem_append, List.mem_filter] at hc
    rcases hc with (hc | hc) | hc
    · exact hu c hc.1
    · exact (cells_mem bs a c hc).2.2
    · exact hu c hc.1

theorem Memory.wf_writeWord (m : Memory) (a : Nat) (w : Word) (h : m.wf = true) :
    (m.writeWord a w).wf = true := m.wf_write a _ h

theorem Memory.wf_writeWords (m : Memory) (a : Nat) (ws : List Word) (h : m.wf = true) :
    (m.writeWords a ws).wf = true := m.wf_write a _ h

theorem Memory.wf_nil : Memory.wf [] = true := by decide

/-! ### Words -/

theorem wordOfBytes_bytesOfWord (w : Word) :
    wordOfBytes (w.extractLsb' 24 8) (w.extractLsb' 16 8) (w.extractLsb' 8 8) (w.extractLsb' 0 8) = w := by
  unfold wordOfBytes
  ext i hi
  simp only [BitVec.getElem_append, BitVec.getElem_extractLsb']
  split <;> [skip; split <;> [skip; split]] <;> (rw [← BitVec.getLsbD_eq_getElem]; congr 1; omega)

@[simp] theorem bytesOfWord_length (w : Word) : (bytesOfWord w).length = 4 := rfl

theorem flatMap_bytesOfWord_length (ws : List Word) : (ws.flatMap bytesOfWord).length = 4 * ws.length := by
  induction ws with
  | nil => rfl
  | cons w ws ih => simp only [List.flatMap_cons, List.length_append, bytesOfWord_length, ih, List.length_cons]; omega

theorem flatMap_bytesOfWord_get (ws : List Word) (j i : Nat) (hj : j < ws.length) (hi : i < 4)
    (h : 4 * j + i < (ws.flatMap bytesOfWord).length) :
    (ws.flatMap bytesOfWord)[4 * j + i] = (bytesOfWord ws[j])[i]'(by simpa using hi) := by
  induction ws generalizing j with
  | nil => simp at hj
  | cons w ws ih =>
    cases j with
    | zero => simp [List.flatMap_cons, List.getElem_append, hi]
    | succ j =>
      have hj' : j < ws.length := by simpa using hj
      have hlen := flatMap_bytesOfWord_length ws
      have : 4 * (j + 1) + i - 4 = 4 * j + i := by omega
      simp only [List.flatMap_cons, List.getElem_cons_succ]
      rw [List.getElem_append_right (by simp; omega)]
      simp only [bytesOfWord_length, this]
      exact ih j hj' (by omega)

theorem readWord_of_bytes (m : Memory) (a : Nat) (w : Word)
    (h : ∀ i, (hi : i < 4) → m.read (a + i) = some ((bytesOfWord w)[i]'(by simpa using hi))) :
    m.readWord a = some w := by
  have h0 := h 0 (by omega); have h1 := h 1 (by omega); have h2 := h 2 (by omega)
  have h3 := h 3 (by omega)
  simp only [Nat.add_zero] at h0
  simp only [Memory.readWord, h0, h1, h2, h3]
  exact congrArg some (wordOfBytes_bytesOfWord w)

theorem Memory.readWord_writeWord (m : Memory) (a : Nat) (w : Word) :
    (m.writeWord a w).readWord a = some w :=
  readWord_of_bytes _ _ _ fun i hi => m.read_write_inside a (bytesOfWord w) i (by simpa using hi)

theorem Memory.writeWords_holdsWords (m : Memory) (a : Nat) (ws : List Word) :
    (m.writeWords a ws).HoldsWords a ws := by
  intro j hj
  refine readWord_of_bytes _ _ _ fun i hi => ?_
  have hlen := flatMap_bytesOfWord_length ws
  have hlt : 4 * j + i < (ws.flatMap bytesOfWord).length := by omega
  have := m.read_write_inside a (ws.flatMap bytesOfWord) (4 * j + i) hlt
  rw [flatMap_bytesOfWord_get ws j i hj hi hlt] at this
  rw [← this, Memory.writeWords]
  congr 1; omega

theorem Memory.writeWords_sameOutside (m : Memory) (a : Nat) (ws : List Word) :
    m.SameOutside (m.writeWords a ws) a (4 * ws.length) := by
  have := m.write_sameOutside a (ws.flatMap bytesOfWord)
  rwa [flatMap_bytesOfWord_length] at this

/-- A word all of whose bytes read as before reads as before. -/
theorem Memory.readWord_congr {m m' : Memory} {a : Nat} (h : ∀ i, i < 4 → m'.read (a + i) = m.read (a + i)) :
    m'.readWord a = m.readWord a := by
  have h0 := h 0 (by omega); have h1 := h 1 (by omega); have h2 := h 2 (by omega)
  have h3 := h 3 (by omega)
  simp only [Nat.add_zero] at h0
  simp only [Memory.readWord, h0, h1, h2, h3]

theorem Memory.SameOutside.readWord {m m' : Memory} {a n x : Nat} (h : m.SameOutside m' a n)
    (hx : x + 4 ≤ a ∨ a + n ≤ x) : m'.readWord x = m.readWord x :=
  Memory.readWord_congr fun i hi => h _ (by omega)

/-! ### Engine reads of strings -/

/-- What an engine read of a byte string can answer: the bytes, every one written. -/
theorem Memory.readBytes_ok {m : Memory} {a n : Nat} {bs : List Byte} (h : m.readBytes a n = .ok bs) :
    bs.length = n ∧ m.Holds a bs := by
  induction n generalizing a bs with
  | zero => simp only [Memory.readBytes, Except.ok.injEq] at h; subst h; exact ⟨rfl, fun i hi => by simp at hi⟩
  | succ n ih =>
    simp only [Memory.readBytes, Memory.byteAt] at h
    cases hb : m.read a with
    | none => simp [hb, bind, Except.bind] at h
    | some b =>
      cases hr : m.readBytes (a + 1) n with
      | error e => simp [hb, hr, bind, Except.bind] at h
      | ok cs =>
        simp [hb, hr, bind, Except.bind, pure, Except.pure] at h
        subst h
        obtain ⟨hl, hh⟩ := ih hr
        refine ⟨by simp [hl], fun i hi => ?_⟩
        cases i with
        | zero => simpa using hb
        | succ i => have := hh i (by simpa using hi); simpa [Nat.add_assoc, Nat.add_comm 1 i] using this

theorem Memory.readBytes_of_holds {m : Memory} {a : Nat} {bs : List Byte} (h : m.Holds a bs) :
    m.readBytes a bs.length = .ok bs := by
  induction bs generalizing a with
  | nil => rfl
  | cons b bs ih =>
    have h0 : m.read a = some b := h 0 (by simp)
    have ht : m.Holds (a + 1) bs := fun i hi => by
      have := h (i + 1) (by simpa using hi)
      simpa [Nat.add_assoc, Nat.add_comm 1 i] using this
    simp [Memory.readBytes, Memory.byteAt, h0, ih ht, bind, Except.bind, pure, Except.pure]

/-- An engine read of a byte string answers exactly the bytes that stand there. -/
theorem Memory.readBytes_eq_ok_iff {m : Memory} {a n : Nat} {bs : List Byte} :
    m.readBytes a n = .ok bs ↔ bs.length = n ∧ m.Holds a bs :=
  ⟨Memory.readBytes_ok, fun ⟨hl, hh⟩ => hl ▸ Memory.readBytes_of_holds hh⟩

theorem Memory.readWords_ok {m : Memory} {a n : Nat} {ws : List Word} (h : m.readWords a n = .ok ws) :
    ws.length = n ∧ m.HoldsWords a ws := by
  induction n generalizing a ws with
  | zero => simp only [Memory.readWords, Except.ok.injEq] at h; subst h; exact ⟨rfl, fun i hi => by simp at hi⟩
  | succ n ih =>
    simp only [Memory.readWords, Memory.wordAt] at h
    cases hb : m.readWord a with
    | none => simp [hb, bind, Except.bind] at h
    | some b =>
      cases hr : m.readWords (a + 4) n with
      | error e => simp [hb, hr, bind, Except.bind] at h
      | ok cs =>
        simp [hb, hr, bind, Except.bind, pure, Except.pure] at h
        subst h
        obtain ⟨hl, hh⟩ := ih hr
        refine ⟨by simp [hl], fun i hi => ?_⟩
        cases i with
        | zero => simpa using hb
        | succ i =>
          have := hh i (by simpa using hi)
          have e : a + 4 * (i + 1) = a + 4 + 4 * i := by omega
          simpa [e] using this

theorem Memory.readWords_of_holdsWords {m : Memory} {a : Nat} {ws : List Word} (h : m.HoldsWords a ws) :
    m.readWords a ws.length = .ok ws := by
  induction ws generalizing a with
  | nil => rfl
  | cons b ws ih =>
    have h0 : m.readWord a = some b := h 0 (by simp)
    have ht : m.HoldsWords (a + 4) ws := fun i hi => by
      have := h (i + 1) (by simpa using hi)
      have e : a + 4 * (i + 1) = a + 4 + 4 * i := by omega
      simpa [e] using this
    simp [Memory.readWords, Memory.wordAt, h0, ih ht, bind, Except.bind, pure, Except.pure]

/-- An engine read of a symbol string answers exactly the symbols that stand there. -/
theorem Memory.readWords_eq_ok_iff {m : Memory} {a n : Nat} {ws : List Word} :
    m.readWords a n = .ok ws ↔ ws.length = n ∧ m.HoldsWords a ws :=
  ⟨Memory.readWords_ok, fun ⟨hl, hh⟩ => hl ▸ Memory.readWords_of_holdsWords hh⟩

/-- A string all of whose bytes read as before reads as before. -/
theorem Memory.readBytes_congr {m m' : Memory} {a n : Nat} (h : ∀ i, i < n → m'.read (a + i) = m.read (a + i)) :
    m'.readBytes a n = m.readBytes a n := by
  induction n generalizing a with
  | zero => rfl
  | succ n ih =>
    have h0 : m'.read a = m.read a := by simpa using h 0 (by omega)
    have ht := ih (a := a + 1) fun i hi => by
      have := h (i + 1) (by omega); simpa [Nat.add_assoc, Nat.add_comm 1 i] using this
    simp only [Memory.readBytes, Memory.byteAt, h0, ht]

theorem Memory.readWords_congr {m m' : Memory} {a n : Nat}
    (h : ∀ i, i < 4 * n → m'.read (a + i) = m.read (a + i)) : m'.readWords a n = m.readWords a n := by
  induction n generalizing a with
  | zero => rfl
  | succ n ih =>
    have h0 : m'.readWord a = m.readWord a := Memory.readWord_congr fun i hi => h i (by omega)
    have ht := ih (a := a + 4) fun i hi => by
      have := h (i + 4) (by omega); simpa [Nat.add_assoc, Nat.add_comm 4 i] using this
    simp only [Memory.readWords, Memory.wordAt, h0, ht]

/-- A fault of a byte-string read names a byte nothing has written. -/
theorem Memory.readBytes_error {m : Memory} {a n : Nat} {e : Stop} (h : m.readBytes a n = .error e) :
    ∃ i, i < n ∧ e = .fault (.unwrittenEntry (a + i)) ∧ m.read (a + i) = none := by
  induction n generalizing a e with
  | zero => simp [Memory.readBytes] at h
  | succ n ih =>
    simp only [Memory.readBytes, Memory.byteAt] at h
    cases hb : m.read a with
    | none =>
      simp [hb, bind, Except.bind] at h
      exact ⟨0, by omega, by simp [← h], by simpa using hb⟩
    | some b =>
      cases hr : m.readBytes (a + 1) n with
      | ok cs => simp [hb, hr, bind, Except.bind, pure, Except.pure] at h
      | error e' =>
        simp [hb, hr, bind, Except.bind] at h
        obtain ⟨i, hi, he, hn⟩ := ih hr
        refine ⟨i + 1, by omega, ?_, ?_⟩
        · rw [← h, he]; congr 2; omega
        · rw [← hn]; congr 1; omega

theorem Memory.readWords_error {m : Memory} {a n : Nat} {e : Stop} (h : m.readWords a n = .error e) :
    ∃ i, i < n ∧ e = .fault (.unwrittenEntry (a + 4 * i)) ∧ m.readWord (a + 4 * i) = none := by
  induction n generalizing a e with
  | zero => simp [Memory.readWords] at h
  | succ n ih =>
    simp only [Memory.readWords, Memory.wordAt] at h
    cases hb : m.readWord a with
    | none =>
      simp [hb, bind, Except.bind] at h
      exact ⟨0, by omega, by simp [← h], by simpa using hb⟩
    | some b =>
      cases hr : m.readWords (a + 4) n with
      | ok cs => simp [hb, hr, bind, Except.bind, pure, Except.pure] at h
      | error e' =>
        simp [hb, hr, bind, Except.bind] at h
        obtain ⟨i, hi, he, hn⟩ := ih hr
        refine ⟨i + 1, by omega, ?_, ?_⟩
        · rw [← h, he]; congr 2; omega
        · rw [← hn]; congr 1; omega

/-- `DIG` always reads: reset clears it (70_reset_and_hazards.md R160). -/
theorem Memory.read_dig_isSome (m : Memory) (a : Nat) (h : 0x200 ≤ a ∧ a < 0x220) :
    (m.read a).isSome = true := by
  unfold Memory.read
  cases m.lookup a with
  | some b => rfl
  | none => simp [Memory.unlisted, digBase, Config.digMax, h.1, show a < 0x200 + 32 by omega]

end Sys2Proof.Machine
end

