-- ==== Sys2Proof/Laws/State.lean ====
section
/-! SUPPORT. One lemma per field per update of State, true by rfl, so that no proof unfolds a record
update. -/

namespace Sys2Proof.Machine

variable (s : State)

/-! ### `State.succeed` -/

@[simp] theorem State.succeed_irqEn (result : Bool) :
    (s.succeed result).irqEn = s.irqEn := rfl
@[simp] theorem State.succeed_lastcmd (result : Bool) :
    (s.succeed result).lastcmd = s.lastcmd := rfl
@[simp] theorem State.succeed_busy (result : Bool) :
    (s.succeed result).busy = false := rfl
@[simp] theorem State.succeed_doneFlag (result : Bool) :
    (s.succeed result).doneFlag = true := rfl
@[simp] theorem State.succeed_errFlag (result : Bool) :
    (s.succeed result).errFlag = false := rfl
@[simp] theorem State.succeed_resultFlag (result : Bool) :
    (s.succeed result).resultFlag = result := rfl
@[simp] theorem State.succeed_traceValid (result : Bool) :
    (s.succeed result).traceValid = s.traceValid := rfl
@[simp] theorem State.succeed_alphaValid (result : Bool) :
    (s.succeed result).alphaValid = s.alphaValid := rfl
@[simp] theorem State.succeed_ovr (result : Bool) :
    (s.succeed result).ovr = s.ovr := rfl
@[simp] theorem State.succeed_errcode (result : Bool) :
    (s.succeed result).errcode = .none := rfl
@[simp] theorem State.succeed_donePend (result : Bool) :
    (s.succeed result).donePend = true := rfl
@[simp] theorem State.succeed_msgLen (result : Bool) :
    (s.succeed result).msgLen = s.msgLen := rfl
@[simp] theorem State.succeed_strLen (result : Bool) :
    (s.succeed result).strLen = s.strLen := rfl
@[simp] theorem State.succeed_digLen (result : Bool) :
    (s.succeed result).digLen = s.digLen := rfl
@[simp] theorem State.succeed_alphaLen (result : Bool) :
    (s.succeed result).alphaLen = s.alphaLen := rfl
@[simp] theorem State.succeed_traceLen (result : Bool) :
    (s.succeed result).traceLen = s.traceLen := rfl
@[simp] theorem State.succeed_errinfo (result : Bool) :
    (s.succeed result).errinfo = 0 := rfl
@[simp] theorem State.succeed_k (result : Bool) :
    (s.succeed result).k = s.k := rfl
@[simp] theorem State.succeed_opa (result : Bool) :
    (s.succeed result).opa = s.opa := rfl
@[simp] theorem State.succeed_opb (result : Bool) :
    (s.succeed result).opb = s.opb := rfl
@[simp] theorem State.succeed_opm (result : Bool) :
    (s.succeed result).opm = s.opm := rfl
@[simp] theorem State.succeed_res (result : Bool) :
    (s.succeed result).res = s.res := rfl
@[simp] theorem State.succeed_p1 (result : Bool) :
    (s.succeed result).p1 = s.p1 := rfl
@[simp] theorem State.succeed_p2 (result : Bool) :
    (s.succeed result).p2 = s.p2 := rfl
@[simp] theorem State.succeed_pr (result : Bool) :
    (s.succeed result).pr = s.pr := rfl
@[simp] theorem State.succeed_mem (result : Bool) :
    (s.succeed result).mem = s.mem := rfl
@[simp] theorem State.succeed_trace (result : Bool) :
    (s.succeed result).trace = s.trace := rfl
@[simp] theorem State.succeed_bus (result : Bool) :
    (s.succeed result).bus = s.bus := rfl
@[simp] theorem State.succeed_latencyLeft (result : Bool) :
    (s.succeed result).latencyLeft = s.latencyLeft := rfl
@[simp] theorem State.succeed_rdata (result : Bool) :
    (s.succeed result).rdata = s.rdata := rfl
@[simp] theorem State.succeed_draws (result : Bool) :
    (s.succeed result).draws = s.draws := rfl

/-! ### `State.fail` -/

@[simp] theorem State.fail_irqEn (e : ErrCode) (info : Word) :
    (s.fail e info).irqEn = s.irqEn := rfl
@[simp] theorem State.fail_lastcmd (e : ErrCode) (info : Word) :
    (s.fail e info).lastcmd = s.lastcmd := rfl
@[simp] theorem State.fail_busy (e : ErrCode) (info : Word) :
    (s.fail e info).busy = false := rfl
@[simp] theorem State.fail_doneFlag (e : ErrCode) (info : Word) :
    (s.fail e info).doneFlag = true := rfl
@[simp] theorem State.fail_errFlag (e : ErrCode) (info : Word) :
    (s.fail e info).errFlag = true := rfl
@[simp] theorem State.fail_resultFlag (e : ErrCode) (info : Word) :
    (s.fail e info).resultFlag = false := rfl
@[simp] theorem State.fail_traceValid (e : ErrCode) (info : Word) :
    (s.fail e info).traceValid = s.traceValid := rfl
@[simp] theorem State.fail_alphaValid (e : ErrCode) (info : Word) :
    (s.fail e info).alphaValid = s.alphaValid := rfl
@[simp] theorem State.fail_ovr (e : ErrCode) (info : Word) :
    (s.fail e info).ovr = s.ovr := rfl
@[simp] theorem State.fail_errcode (e : ErrCode) (info : Word) :
    (s.fail e info).errcode = e := rfl
@[simp] theorem State.fail_donePend (e : ErrCode) (info : Word) :
    (s.fail e info).donePend = true := rfl
@[simp] theorem State.fail_msgLen (e : ErrCode) (info : Word) :
    (s.fail e info).msgLen = s.msgLen := rfl
@[simp] theorem State.fail_strLen (e : ErrCode) (info : Word) :
    (s.fail e info).strLen = s.strLen := rfl
@[simp] theorem State.fail_digLen (e : ErrCode) (info : Word) :
    (s.fail e info).digLen = s.digLen := rfl
@[simp] theorem State.fail_alphaLen (e : ErrCode) (info : Word) :
    (s.fail e info).alphaLen = s.alphaLen := rfl
@[simp] theorem State.fail_traceLen (e : ErrCode) (info : Word) :
    (s.fail e info).traceLen = s.traceLen := rfl
@[simp] theorem State.fail_errinfo (e : ErrCode) (info : Word) :
    (s.fail e info).errinfo = info := rfl
@[simp] theorem State.fail_k (e : ErrCode) (info : Word) :
    (s.fail e info).k = s.k := rfl
@[simp] theorem State.fail_opa (e : ErrCode) (info : Word) :
    (s.fail e info).opa = s.opa := rfl
@[simp] theorem State.fail_opb (e : ErrCode) (info : Word) :
    (s.fail e info).opb = s.opb := rfl
@[simp] theorem State.fail_opm (e : ErrCode) (info : Word) :
    (s.fail e info).opm = s.opm := rfl
@[simp] theorem State.fail_res (e : ErrCode) (info : Word) :
    (s.fail e info).res = s.res := rfl
@[simp] theorem State.fail_p1 (e : ErrCode) (info : Word) :
    (s.fail e info).p1 = s.p1 := rfl
@[simp] theorem State.fail_p2 (e : ErrCode) (info : Word) :
    (s.fail e info).p2 = s.p2 := rfl
@[simp] theorem State.fail_pr (e : ErrCode) (info : Word) :
    (s.fail e info).pr = s.pr := rfl
@[simp] theorem State.fail_mem (e : ErrCode) (info : Word) :
    (s.fail e info).mem = s.mem := rfl
@[simp] theorem State.fail_trace (e : ErrCode) (info : Word) :
    (s.fail e info).trace = s.trace := rfl
@[simp] theorem State.fail_bus (e : ErrCode) (info : Word) :
    (s.fail e info).bus = s.bus := rfl
@[simp] theorem State.fail_latencyLeft (e : ErrCode) (info : Word) :
    (s.fail e info).latencyLeft = s.latencyLeft := rfl
@[simp] theorem State.fail_rdata (e : ErrCode) (info : Word) :
    (s.fail e info).rdata = s.rdata := rfl
@[simp] theorem State.fail_draws (e : ErrCode) (info : Word) :
    (s.fail e info).draws = s.draws := rfl

/-! ### `State.putRes` -/

@[simp] theorem State.putRes_irqEn (v : Nat) :
    (s.putRes v).irqEn = s.irqEn := rfl
@[simp] theorem State.putRes_lastcmd (v : Nat) :
    (s.putRes v).lastcmd = s.lastcmd := rfl
@[simp] theorem State.putRes_busy (v : Nat) :
    (s.putRes v).busy = s.busy := rfl
@[simp] theorem State.putRes_doneFlag (v : Nat) :
    (s.putRes v).doneFlag = s.doneFlag := rfl
@[simp] theorem State.putRes_errFlag (v : Nat) :
    (s.putRes v).errFlag = s.errFlag := rfl
@[simp] theorem State.putRes_resultFlag (v : Nat) :
    (s.putRes v).resultFlag = s.resultFlag := rfl
@[simp] theorem State.putRes_traceValid (v : Nat) :
    (s.putRes v).traceValid = s.traceValid := rfl
@[simp] theorem State.putRes_alphaValid (v : Nat) :
    (s.putRes v).alphaValid = s.alphaValid := rfl
@[simp] theorem State.putRes_ovr (v : Nat) :
    (s.putRes v).ovr = s.ovr := rfl
@[simp] theorem State.putRes_errcode (v : Nat) :
    (s.putRes v).errcode = s.errcode := rfl
@[simp] theorem State.putRes_donePend (v : Nat) :
    (s.putRes v).donePend = s.donePend := rfl
@[simp] theorem State.putRes_msgLen (v : Nat) :
    (s.putRes v).msgLen = s.msgLen := rfl
@[simp] theorem State.putRes_strLen (v : Nat) :
    (s.putRes v).strLen = s.strLen := rfl
@[simp] theorem State.putRes_digLen (v : Nat) :
    (s.putRes v).digLen = s.digLen := rfl
@[simp] theorem State.putRes_alphaLen (v : Nat) :
    (s.putRes v).alphaLen = s.alphaLen := rfl
@[simp] theorem State.putRes_traceLen (v : Nat) :
    (s.putRes v).traceLen = s.traceLen := rfl
@[simp] theorem State.putRes_errinfo (v : Nat) :
    (s.putRes v).errinfo = s.errinfo := rfl
@[simp] theorem State.putRes_k (v : Nat) :
    (s.putRes v).k = s.k := rfl
@[simp] theorem State.putRes_opa (v : Nat) :
    (s.putRes v).opa = s.opa := rfl
@[simp] theorem State.putRes_opb (v : Nat) :
    (s.putRes v).opb = s.opb := rfl
@[simp] theorem State.putRes_opm (v : Nat) :
    (s.putRes v).opm = s.opm := rfl
@[simp] theorem State.putRes_res (v : Nat) :
    (s.putRes v).res = BitVec.ofNat 256 v := rfl
@[simp] theorem State.putRes_p1 (v : Nat) :
    (s.putRes v).p1 = s.p1 := rfl
@[simp] theorem State.putRes_p2 (v : Nat) :
    (s.putRes v).p2 = s.p2 := rfl
@[simp] theorem State.putRes_pr (v : Nat) :
    (s.putRes v).pr = s.pr := rfl
@[simp] theorem State.putRes_mem (v : Nat) :
    (s.putRes v).mem = s.mem := rfl
@[simp] theorem State.putRes_trace (v : Nat) :
    (s.putRes v).trace = s.trace := rfl
@[simp] theorem State.putRes_bus (v : Nat) :
    (s.putRes v).bus = s.bus := rfl
@[simp] theorem State.putRes_latencyLeft (v : Nat) :
    (s.putRes v).latencyLeft = s.latencyLeft := rfl
@[simp] theorem State.putRes_rdata (v : Nat) :
    (s.putRes v).rdata = s.rdata := rfl
@[simp] theorem State.putRes_draws (v : Nat) :
    (s.putRes v).draws = s.draws := rfl

/-! ### `State.putPR` -/

@[simp] theorem State.putPR_irqEn (r : Point) :
    (s.putPR r).irqEn = s.irqEn := rfl
@[simp] theorem State.putPR_lastcmd (r : Point) :
    (s.putPR r).lastcmd = s.lastcmd := rfl
@[simp] theorem State.putPR_busy (r : Point) :
    (s.putPR r).busy = s.busy := rfl
@[simp] theorem State.putPR_doneFlag (r : Point) :
    (s.putPR r).doneFlag = s.doneFlag := rfl
@[simp] theorem State.putPR_errFlag (r : Point) :
    (s.putPR r).errFlag = s.errFlag := rfl
@[simp] theorem State.putPR_resultFlag (r : Point) :
    (s.putPR r).resultFlag = s.resultFlag := rfl
@[simp] theorem State.putPR_traceValid (r : Point) :
    (s.putPR r).traceValid = s.traceValid := rfl
@[simp] theorem State.putPR_alphaValid (r : Point) :
    (s.putPR r).alphaValid = s.alphaValid := rfl
@[simp] theorem State.putPR_ovr (r : Point) :
    (s.putPR r).ovr = s.ovr := rfl
@[simp] theorem State.putPR_errcode (r : Point) :
    (s.putPR r).errcode = s.errcode := rfl
@[simp] theorem State.putPR_donePend (r : Point) :
    (s.putPR r).donePend = s.donePend := rfl
@[simp] theorem State.putPR_msgLen (r : Point) :
    (s.putPR r).msgLen = s.msgLen := rfl
@[simp] theorem State.putPR_strLen (r : Point) :
    (s.putPR r).strLen = s.strLen := rfl
@[simp] theorem State.putPR_digLen (r : Point) :
    (s.putPR r).digLen = s.digLen := rfl
@[simp] theorem State.putPR_alphaLen (r : Point) :
    (s.putPR r).alphaLen = s.alphaLen := rfl
@[simp] theorem State.putPR_traceLen (r : Point) :
    (s.putPR r).traceLen = s.traceLen := rfl
@[simp] theorem State.putPR_errinfo (r : Point) :
    (s.putPR r).errinfo = s.errinfo := rfl
@[simp] theorem State.putPR_k (r : Point) :
    (s.putPR r).k = s.k := rfl
@[simp] theorem State.putPR_opa (r : Point) :
    (s.putPR r).opa = s.opa := rfl
@[simp] theorem State.putPR_opb (r : Point) :
    (s.putPR r).opb = s.opb := rfl
@[simp] theorem State.putPR_opm (r : Point) :
    (s.putPR r).opm = s.opm := rfl
@[simp] theorem State.putPR_res (r : Point) :
    (s.putPR r).res = s.res := rfl
@[simp] theorem State.putPR_p1 (r : Point) :
    (s.putPR r).p1 = s.p1 := rfl
@[simp] theorem State.putPR_p2 (r : Point) :
    (s.putPR r).p2 = s.p2 := rfl
@[simp] theorem State.putPR_pr (r : Point) :
    (s.putPR r).pr = r.toReg := rfl
@[simp] theorem State.putPR_mem (r : Point) :
    (s.putPR r).mem = s.mem := rfl
@[simp] theorem State.putPR_trace (r : Point) :
    (s.putPR r).trace = s.trace := rfl
@[simp] theorem State.putPR_bus (r : Point) :
    (s.putPR r).bus = s.bus := rfl
@[simp] theorem State.putPR_latencyLeft (r : Point) :
    (s.putPR r).latencyLeft = s.latencyLeft := rfl
@[simp] theorem State.putPR_rdata (r : Point) :
    (s.putPR r).rdata = s.rdata := rfl
@[simp] theorem State.putPR_draws (r : Point) :
    (s.putPR r).draws = s.draws := rfl

/-! ### `State.putDig` -/

@[simp] theorem State.putDig_irqEn (d : List Byte) :
    (s.putDig d).irqEn = s.irqEn := rfl
@[simp] theorem State.putDig_lastcmd (d : List Byte) :
    (s.putDig d).lastcmd = s.lastcmd := rfl
@[simp] theorem State.putDig_busy (d : List Byte) :
    (s.putDig d).busy = s.busy := rfl
@[simp] theorem State.putDig_doneFlag (d : List Byte) :
    (s.putDig d).doneFlag = s.doneFlag := rfl
@[simp] theorem State.putDig_errFlag (d : List Byte) :
    (s.putDig d).errFlag = s.errFlag := rfl
@[simp] theorem State.putDig_resultFlag (d : List Byte) :
    (s.putDig d).resultFlag = s.resultFlag := rfl
@[simp] theorem State.putDig_traceValid (d : List Byte) :
    (s.putDig d).traceValid = s.traceValid := rfl
@[simp] theorem State.putDig_alphaValid (d : List Byte) :
    (s.putDig d).alphaValid = s.alphaValid := rfl
@[simp] theorem State.putDig_ovr (d : List Byte) :
    (s.putDig d).ovr = s.ovr := rfl
@[simp] theorem State.putDig_errcode (d : List Byte) :
    (s.putDig d).errcode = s.errcode := rfl
@[simp] theorem State.putDig_donePend (d : List Byte) :
    (s.putDig d).donePend = s.donePend := rfl
@[simp] theorem State.putDig_msgLen (d : List Byte) :
    (s.putDig d).msgLen = s.msgLen := rfl
@[simp] theorem State.putDig_strLen (d : List Byte) :
    (s.putDig d).strLen = s.strLen := rfl
@[simp] theorem State.putDig_digLen (d : List Byte) :
    (s.putDig d).digLen = BitVec.ofNat 6 d.length := rfl
@[simp] theorem State.putDig_alphaLen (d : List Byte) :
    (s.putDig d).alphaLen = s.alphaLen := rfl
@[simp] theorem State.putDig_traceLen (d : List Byte) :
    (s.putDig d).traceLen = s.traceLen := rfl
@[simp] theorem State.putDig_errinfo (d : List Byte) :
    (s.putDig d).errinfo = s.errinfo := rfl
@[simp] theorem State.putDig_k (d : List Byte) :
    (s.putDig d).k = s.k := rfl
@[simp] theorem State.putDig_opa (d : List Byte) :
    (s.putDig d).opa = s.opa := rfl
@[simp] theorem State.putDig_opb (d : List Byte) :
    (s.putDig d).opb = s.opb := rfl
@[simp] theorem State.putDig_opm (d : List Byte) :
    (s.putDig d).opm = s.opm := rfl
@[simp] theorem State.putDig_res (d : List Byte) :
    (s.putDig d).res = s.res := rfl
@[simp] theorem State.putDig_p1 (d : List Byte) :
    (s.putDig d).p1 = s.p1 := rfl
@[simp] theorem State.putDig_p2 (d : List Byte) :
    (s.putDig d).p2 = s.p2 := rfl
@[simp] theorem State.putDig_pr (d : List Byte) :
    (s.putDig d).pr = s.pr := rfl
@[simp] theorem State.putDig_mem (d : List Byte) :
    (s.putDig d).mem = s.mem.write digBase (padTo Config.digMax d) := rfl
@[simp] theorem State.putDig_trace (d : List Byte) :
    (s.putDig d).trace = s.trace := rfl
@[simp] theorem State.putDig_bus (d : List Byte) :
    (s.putDig d).bus = s.bus := rfl
@[simp] theorem State.putDig_latencyLeft (d : List Byte) :
    (s.putDig d).latencyLeft = s.latencyLeft := rfl
@[simp] theorem State.putDig_rdata (d : List Byte) :
    (s.putDig d).rdata = s.rdata := rfl
@[simp] theorem State.putDig_draws (d : List Byte) :
    (s.putDig d).draws = s.draws := rfl

/-! ### `State.putMsg` -/

@[simp] theorem State.putMsg_irqEn (m : List Byte) :
    (s.putMsg m).irqEn = s.irqEn := rfl
@[simp] theorem State.putMsg_lastcmd (m : List Byte) :
    (s.putMsg m).lastcmd = s.lastcmd := rfl
@[simp] theorem State.putMsg_busy (m : List Byte) :
    (s.putMsg m).busy = s.busy := rfl
@[simp] theorem State.putMsg_doneFlag (m : List Byte) :
    (s.putMsg m).doneFlag = s.doneFlag := rfl
@[simp] theorem State.putMsg_errFlag (m : List Byte) :
    (s.putMsg m).errFlag = s.errFlag := rfl
@[simp] theorem State.putMsg_resultFlag (m : List Byte) :
    (s.putMsg m).resultFlag = s.resultFlag := rfl
@[simp] theorem State.putMsg_traceValid (m : List Byte) :
    (s.putMsg m).traceValid = s.traceValid := rfl
@[simp] theorem State.putMsg_alphaValid (m : List Byte) :
    (s.putMsg m).alphaValid = s.alphaValid := rfl
@[simp] theorem State.putMsg_ovr (m : List Byte) :
    (s.putMsg m).ovr = s.ovr := rfl
@[simp] theorem State.putMsg_errcode (m : List Byte) :
    (s.putMsg m).errcode = s.errcode := rfl
@[simp] theorem State.putMsg_donePend (m : List Byte) :
    (s.putMsg m).donePend = s.donePend := rfl
@[simp] theorem State.putMsg_msgLen (m : List Byte) :
    (s.putMsg m).msgLen = BitVec.ofNat 9 m.length := rfl
@[simp] theorem State.putMsg_strLen (m : List Byte) :
    (s.putMsg m).strLen = s.strLen := rfl
@[simp] theorem State.putMsg_digLen (m : List Byte) :
    (s.putMsg m).digLen = s.digLen := rfl
@[simp] theorem State.putMsg_alphaLen (m : List Byte) :
    (s.putMsg m).alphaLen = s.alphaLen := rfl
@[simp] theorem State.putMsg_traceLen (m : List Byte) :
    (s.putMsg m).traceLen = s.traceLen := rfl
@[simp] theorem State.putMsg_errinfo (m : List Byte) :
    (s.putMsg m).errinfo = s.errinfo := rfl
@[simp] theorem State.putMsg_k (m : List Byte) :
    (s.putMsg m).k = s.k := rfl
@[simp] theorem State.putMsg_opa (m : List Byte) :
    (s.putMsg m).opa = s.opa := rfl
@[simp] theorem State.putMsg_opb (m : List Byte) :
    (s.putMsg m).opb = s.opb := rfl
@[simp] theorem State.putMsg_opm (m : List Byte) :
    (s.putMsg m).opm = s.opm := rfl
@[simp] theorem State.putMsg_res (m : List Byte) :
    (s.putMsg m).res = s.res := rfl
@[simp] theorem State.putMsg_p1 (m : List Byte) :
    (s.putMsg m).p1 = s.p1 := rfl
@[simp] theorem State.putMsg_p2 (m : List Byte) :
    (s.putMsg m).p2 = s.p2 := rfl
@[simp] theorem State.putMsg_pr (m : List Byte) :
    (s.putMsg m).pr = s.pr := rfl
@[simp] theorem State.putMsg_mem (m : List Byte) :
    (s.putMsg m).mem = s.mem.write msgBase (padTo Config.msgMax m) := rfl
@[simp] theorem State.putMsg_trace (m : List Byte) :
    (s.putMsg m).trace = s.trace := rfl
@[simp] theorem State.putMsg_bus (m : List Byte) :
    (s.putMsg m).bus = s.bus := rfl
@[simp] theorem State.putMsg_latencyLeft (m : List Byte) :
    (s.putMsg m).latencyLeft = s.latencyLeft := rfl
@[simp] theorem State.putMsg_rdata (m : List Byte) :
    (s.putMsg m).rdata = s.rdata := rfl
@[simp] theorem State.putMsg_draws (m : List Byte) :
    (s.putMsg m).draws = s.draws := rfl

/-! ### `State.putStr` -/

@[simp] theorem State.putStr_irqEn (t : List Word) :
    (s.putStr t).irqEn = s.irqEn := rfl
@[simp] theorem State.putStr_lastcmd (t : List Word) :
    (s.putStr t).lastcmd = s.lastcmd := rfl
@[simp] theorem State.putStr_busy (t : List Word) :
    (s.putStr t).busy = s.busy := rfl
@[simp] theorem State.putStr_doneFlag (t : List Word) :
    (s.putStr t).doneFlag = s.doneFlag := rfl
@[simp] theorem State.putStr_errFlag (t : List Word) :
    (s.putStr t).errFlag = s.errFlag := rfl
@[simp] theorem State.putStr_resultFlag (t : List Word) :
    (s.putStr t).resultFlag = s.resultFlag := rfl
@[simp] theorem State.putStr_traceValid (t : List Word) :
    (s.putStr t).traceValid = s.traceValid := rfl
@[simp] theorem State.putStr_alphaValid (t : List Word) :
    (s.putStr t).alphaValid = s.alphaValid := rfl
@[simp] theorem State.putStr_ovr (t : List Word) :
    (s.putStr t).ovr = s.ovr := rfl
@[simp] theorem State.putStr_errcode (t : List Word) :
    (s.putStr t).errcode = s.errcode := rfl
@[simp] theorem State.putStr_donePend (t : List Word) :
    (s.putStr t).donePend = s.donePend := rfl
@[simp] theorem State.putStr_msgLen (t : List Word) :
    (s.putStr t).msgLen = s.msgLen := rfl
@[simp] theorem State.putStr_strLen (t : List Word) :
    (s.putStr t).strLen = BitVec.ofNat 9 t.length := rfl
@[simp] theorem State.putStr_digLen (t : List Word) :
    (s.putStr t).digLen = s.digLen := rfl
@[simp] theorem State.putStr_alphaLen (t : List Word) :
    (s.putStr t).alphaLen = s.alphaLen := rfl
@[simp] theorem State.putStr_traceLen (t : List Word) :
    (s.putStr t).traceLen = s.traceLen := rfl
@[simp] theorem State.putStr_errinfo (t : List Word) :
    (s.putStr t).errinfo = s.errinfo := rfl
@[simp] theorem State.putStr_k (t : List Word) :
    (s.putStr t).k = s.k := rfl
@[simp] theorem State.putStr_opa (t : List Word) :
    (s.putStr t).opa = s.opa := rfl
@[simp] theorem State.putStr_opb (t : List Word) :
    (s.putStr t).opb = s.opb := rfl
@[simp] theorem State.putStr_opm (t : List Word) :
    (s.putStr t).opm = s.opm := rfl
@[simp] theorem State.putStr_res (t : List Word) :
    (s.putStr t).res = s.res := rfl
@[simp] theorem State.putStr_p1 (t : List Word) :
    (s.putStr t).p1 = s.p1 := rfl
@[simp] theorem State.putStr_p2 (t : List Word) :
    (s.putStr t).p2 = s.p2 := rfl
@[simp] theorem State.putStr_pr (t : List Word) :
    (s.putStr t).pr = s.pr := rfl
@[simp] theorem State.putStr_mem (t : List Word) :
    (s.putStr t).mem = s.mem.writeWords strBase (padTo Config.strMax t) := rfl
@[simp] theorem State.putStr_trace (t : List Word) :
    (s.putStr t).trace = s.trace := rfl
@[simp] theorem State.putStr_bus (t : List Word) :
    (s.putStr t).bus = s.bus := rfl
@[simp] theorem State.putStr_latencyLeft (t : List Word) :
    (s.putStr t).latencyLeft = s.latencyLeft := rfl
@[simp] theorem State.putStr_rdata (t : List Word) :
    (s.putStr t).rdata = s.rdata := rfl
@[simp] theorem State.putStr_draws (t : List Word) :
    (s.putStr t).draws = s.draws := rfl

/-! ### `State.putTrace` -/

@[simp] theorem State.putTrace_irqEn (t : List TraceRecord) :
    (s.putTrace t).irqEn = s.irqEn := rfl
@[simp] theorem State.putTrace_lastcmd (t : List TraceRecord) :
    (s.putTrace t).lastcmd = s.lastcmd := rfl
@[simp] theorem State.putTrace_busy (t : List TraceRecord) :
    (s.putTrace t).busy = s.busy := rfl
@[simp] theorem State.putTrace_doneFlag (t : List TraceRecord) :
    (s.putTrace t).doneFlag = s.doneFlag := rfl
@[simp] theorem State.putTrace_errFlag (t : List TraceRecord) :
    (s.putTrace t).errFlag = s.errFlag := rfl
@[simp] theorem State.putTrace_resultFlag (t : List TraceRecord) :
    (s.putTrace t).resultFlag = s.resultFlag := rfl
@[simp] theorem State.putTrace_traceValid (t : List TraceRecord) :
    (s.putTrace t).traceValid = true := rfl
@[simp] theorem State.putTrace_alphaValid (t : List TraceRecord) :
    (s.putTrace t).alphaValid = s.alphaValid := rfl
@[simp] theorem State.putTrace_ovr (t : List TraceRecord) :
    (s.putTrace t).ovr = s.ovr := rfl
@[simp] theorem State.putTrace_errcode (t : List TraceRecord) :
    (s.putTrace t).errcode = s.errcode := rfl
@[simp] theorem State.putTrace_donePend (t : List TraceRecord) :
    (s.putTrace t).donePend = s.donePend := rfl
@[simp] theorem State.putTrace_msgLen (t : List TraceRecord) :
    (s.putTrace t).msgLen = s.msgLen := rfl
@[simp] theorem State.putTrace_strLen (t : List TraceRecord) :
    (s.putTrace t).strLen = s.strLen := rfl
@[simp] theorem State.putTrace_digLen (t : List TraceRecord) :
    (s.putTrace t).digLen = s.digLen := rfl
@[simp] theorem State.putTrace_alphaLen (t : List TraceRecord) :
    (s.putTrace t).alphaLen = s.alphaLen := rfl
@[simp] theorem State.putTrace_traceLen (t : List TraceRecord) :
    (s.putTrace t).traceLen = BitVec.ofNat 9 t.length := rfl
@[simp] theorem State.putTrace_errinfo (t : List TraceRecord) :
    (s.putTrace t).errinfo = s.errinfo := rfl
@[simp] theorem State.putTrace_k (t : List TraceRecord) :
    (s.putTrace t).k = s.k := rfl
@[simp] theorem State.putTrace_opa (t : List TraceRecord) :
    (s.putTrace t).opa = s.opa := rfl
@[simp] theorem State.putTrace_opb (t : List TraceRecord) :
    (s.putTrace t).opb = s.opb := rfl
@[simp] theorem State.putTrace_opm (t : List TraceRecord) :
    (s.putTrace t).opm = s.opm := rfl
@[simp] theorem State.putTrace_res (t : List TraceRecord) :
    (s.putTrace t).res = s.res := rfl
@[simp] theorem State.putTrace_p1 (t : List TraceRecord) :
    (s.putTrace t).p1 = s.p1 := rfl
@[simp] theorem State.putTrace_p2 (t : List TraceRecord) :
    (s.putTrace t).p2 = s.p2 := rfl
@[simp] theorem State.putTrace_pr (t : List TraceRecord) :
    (s.putTrace t).pr = s.pr := rfl
@[simp] theorem State.putTrace_mem (t : List TraceRecord) :
    (s.putTrace t).mem = s.mem := rfl
@[simp] theorem State.putTrace_trace (t : List TraceRecord) :
    (s.putTrace t).trace = t := rfl
@[simp] theorem State.putTrace_bus (t : List TraceRecord) :
    (s.putTrace t).bus = s.bus := rfl
@[simp] theorem State.putTrace_latencyLeft (t : List TraceRecord) :
    (s.putTrace t).latencyLeft = s.latencyLeft := rfl
@[simp] theorem State.putTrace_rdata (t : List TraceRecord) :
    (s.putTrace t).rdata = s.rdata := rfl
@[simp] theorem State.putTrace_draws (t : List TraceRecord) :
    (s.putTrace t).draws = s.draws := rfl

/-! ### `State.issue` -/

@[simp] theorem State.issue_irqEn (v : Word) :
    (s.issue v).irqEn = s.irqEn := rfl
@[simp] theorem State.issue_lastcmd (v : Word) :
    (s.issue v).lastcmd = v := rfl
@[simp] theorem State.issue_busy (v : Word) :
    (s.issue v).busy = true := rfl
@[simp] theorem State.issue_doneFlag (v : Word) :
    (s.issue v).doneFlag = false := rfl
@[simp] theorem State.issue_errFlag (v : Word) :
    (s.issue v).errFlag = false := rfl
@[simp] theorem State.issue_resultFlag (v : Word) :
    (s.issue v).resultFlag = false := rfl
@[simp] theorem State.issue_traceValid (v : Word) :
    (s.issue v).traceValid = if clearsTrace v then false else s.traceValid := rfl
@[simp] theorem State.issue_alphaValid (v : Word) :
    (s.issue v).alphaValid = s.alphaValid := rfl
@[simp] theorem State.issue_ovr (v : Word) :
    (s.issue v).ovr = false := rfl
@[simp] theorem State.issue_errcode (v : Word) :
    (s.issue v).errcode = .none := rfl
@[simp] theorem State.issue_donePend (v : Word) :
    (s.issue v).donePend = s.donePend := rfl
@[simp] theorem State.issue_msgLen (v : Word) :
    (s.issue v).msgLen = s.msgLen := rfl
@[simp] theorem State.issue_strLen (v : Word) :
    (s.issue v).strLen = s.strLen := rfl
@[simp] theorem State.issue_digLen (v : Word) :
    (s.issue v).digLen = s.digLen := rfl
@[simp] theorem State.issue_alphaLen (v : Word) :
    (s.issue v).alphaLen = s.alphaLen := rfl
@[simp] theorem State.issue_traceLen (v : Word) :
    (s.issue v).traceLen = if clearsTrace v then 0 else s.traceLen := rfl
@[simp] theorem State.issue_errinfo (v : Word) :
    (s.issue v).errinfo = 0 := rfl
@[simp] theorem State.issue_k (v : Word) :
    (s.issue v).k = s.k := rfl
@[simp] theorem State.issue_opa (v : Word) :
    (s.issue v).opa = s.opa := rfl
@[simp] theorem State.issue_opb (v : Word) :
    (s.issue v).opb = s.opb := rfl
@[simp] theorem State.issue_opm (v : Word) :
    (s.issue v).opm = s.opm := rfl
@[simp] theorem State.issue_res (v : Word) :
    (s.issue v).res = s.res := rfl
@[simp] theorem State.issue_p1 (v : Word) :
    (s.issue v).p1 = s.p1 := rfl
@[simp] theorem State.issue_p2 (v : Word) :
    (s.issue v).p2 = s.p2 := rfl
@[simp] theorem State.issue_pr (v : Word) :
    (s.issue v).pr = s.pr := rfl
@[simp] theorem State.issue_mem (v : Word) :
    (s.issue v).mem = s.mem := rfl
@[simp] theorem State.issue_trace (v : Word) :
    (s.issue v).trace = if clearsTrace v then [] else s.trace := rfl
@[simp] theorem State.issue_bus (v : Word) :
    (s.issue v).bus = s.bus := rfl
@[simp] theorem State.issue_latencyLeft (v : Word) :
    (s.issue v).latencyLeft = s.cyclesToPass v := rfl
@[simp] theorem State.issue_rdata (v : Word) :
    (s.issue v).rdata = s.rdata := rfl
@[simp] theorem State.issue_draws (v : Word) :
    (s.issue v).draws = s.draws := rfl

/-! ### `State.issuedDue` -/

@[simp] theorem State.issuedDue_irqEn (v : Word) :
    (s.issuedDue v).irqEn = s.irqEn := rfl
@[simp] theorem State.issuedDue_lastcmd (v : Word) :
    (s.issuedDue v).lastcmd = v := rfl
@[simp] theorem State.issuedDue_busy (v : Word) :
    (s.issuedDue v).busy = true := rfl
@[simp] theorem State.issuedDue_doneFlag (v : Word) :
    (s.issuedDue v).doneFlag = false := rfl
@[simp] theorem State.issuedDue_errFlag (v : Word) :
    (s.issuedDue v).errFlag = false := rfl
@[simp] theorem State.issuedDue_resultFlag (v : Word) :
    (s.issuedDue v).resultFlag = false := rfl
@[simp] theorem State.issuedDue_traceValid (v : Word) :
    (s.issuedDue v).traceValid = if clearsTrace v then false else s.traceValid := rfl
@[simp] theorem State.issuedDue_alphaValid (v : Word) :
    (s.issuedDue v).alphaValid = s.alphaValid := rfl
@[simp] theorem State.issuedDue_ovr (v : Word) :
    (s.issuedDue v).ovr = false := rfl
@[simp] theorem State.issuedDue_errcode (v : Word) :
    (s.issuedDue v).errcode = .none := rfl
@[simp] theorem State.issuedDue_donePend (v : Word) :
    (s.issuedDue v).donePend = s.donePend := rfl
@[simp] theorem State.issuedDue_msgLen (v : Word) :
    (s.issuedDue v).msgLen = s.msgLen := rfl
@[simp] theorem State.issuedDue_strLen (v : Word) :
    (s.issuedDue v).strLen = s.strLen := rfl
@[simp] theorem State.issuedDue_digLen (v : Word) :
    (s.issuedDue v).digLen = s.digLen := rfl
@[simp] theorem State.issuedDue_alphaLen (v : Word) :
    (s.issuedDue v).alphaLen = s.alphaLen := rfl
@[simp] theorem State.issuedDue_traceLen (v : Word) :
    (s.issuedDue v).traceLen = if clearsTrace v then 0 else s.traceLen := rfl
@[simp] theorem State.issuedDue_errinfo (v : Word) :
    (s.issuedDue v).errinfo = 0 := rfl
@[simp] theorem State.issuedDue_k (v : Word) :
    (s.issuedDue v).k = s.k := rfl
@[simp] theorem State.issuedDue_opa (v : Word) :
    (s.issuedDue v).opa = s.opa := rfl
@[simp] theorem State.issuedDue_opb (v : Word) :
    (s.issuedDue v).opb = s.opb := rfl
@[simp] theorem State.issuedDue_opm (v : Word) :
    (s.issuedDue v).opm = s.opm := rfl
@[simp] theorem State.issuedDue_res (v : Word) :
    (s.issuedDue v).res = s.res := rfl
@[simp] theorem State.issuedDue_p1 (v : Word) :
    (s.issuedDue v).p1 = s.p1 := rfl
@[simp] theorem State.issuedDue_p2 (v : Word) :
    (s.issuedDue v).p2 = s.p2 := rfl
@[simp] theorem State.issuedDue_pr (v : Word) :
    (s.issuedDue v).pr = s.pr := rfl
@[simp] theorem State.issuedDue_mem (v : Word) :
    (s.issuedDue v).mem = s.mem := rfl
@[simp] theorem State.issuedDue_trace (v : Word) :
    (s.issuedDue v).trace = if clearsTrace v then [] else s.trace := rfl
@[simp] theorem State.issuedDue_bus (v : Word) :
    (s.issuedDue v).bus = s.bus := rfl
@[simp] theorem State.issuedDue_latencyLeft (v : Word) :
    (s.issuedDue v).latencyLeft = 0 := rfl
@[simp] theorem State.issuedDue_rdata (v : Word) :
    (s.issuedDue v).rdata = s.rdata := rfl
@[simp] theorem State.issuedDue_draws (v : Word) :
    (s.issuedDue v).draws = s.draws := rfl

/-! ### `State.resetEngine` -/

@[simp] theorem State.resetEngine_irqEn :
    (s.resetEngine).irqEn = State.reset.irqEn := rfl
@[simp] theorem State.resetEngine_lastcmd :
    (s.resetEngine).lastcmd = State.reset.lastcmd := rfl
@[simp] theorem State.resetEngine_busy :
    (s.resetEngine).busy = State.reset.busy := rfl
@[simp] theorem State.resetEngine_doneFlag :
    (s.resetEngine).doneFlag = State.reset.doneFlag := rfl
@[simp] theorem State.resetEngine_errFlag :
    (s.resetEngine).errFlag = State.reset.errFlag := rfl
@[simp] theorem State.resetEngine_resultFlag :
    (s.resetEngine).resultFlag = State.reset.resultFlag := rfl
@[simp] theorem State.resetEngine_traceValid :
    (s.resetEngine).traceValid = State.reset.traceValid := rfl
@[simp] theorem State.resetEngine_alphaValid :
    (s.resetEngine).alphaValid = State.reset.alphaValid := rfl
@[simp] theorem State.resetEngine_ovr :
    (s.resetEngine).ovr = State.reset.ovr := rfl
@[simp] theorem State.resetEngine_errcode :
    (s.resetEngine).errcode = State.reset.errcode := rfl
@[simp] theorem State.resetEngine_donePend :
    (s.resetEngine).donePend = State.reset.donePend := rfl
@[simp] theorem State.resetEngine_msgLen :
    (s.resetEngine).msgLen = State.reset.msgLen := rfl
@[simp] theorem State.resetEngine_strLen :
    (s.resetEngine).strLen = State.reset.strLen := rfl
@[simp] theorem State.resetEngine_digLen :
    (s.resetEngine).digLen = State.reset.digLen := rfl
@[simp] theorem State.resetEngine_alphaLen :
    (s.resetEngine).alphaLen = State.reset.alphaLen := rfl
@[simp] theorem State.resetEngine_traceLen :
    (s.resetEngine).traceLen = State.reset.traceLen := rfl
@[simp] theorem State.resetEngine_errinfo :
    (s.resetEngine).errinfo = State.reset.errinfo := rfl
@[simp] theorem State.resetEngine_k :
    (s.resetEngine).k = State.reset.k := rfl
@[simp] theorem State.resetEngine_opa :
    (s.resetEngine).opa = State.reset.opa := rfl
@[simp] theorem State.resetEngine_opb :
    (s.resetEngine).opb = State.reset.opb := rfl
@[simp] theorem State.resetEngine_opm :
    (s.resetEngine).opm = State.reset.opm := rfl
@[simp] theorem State.resetEngine_res :
    (s.resetEngine).res = State.reset.res := rfl
@[simp] theorem State.resetEngine_p1 :
    (s.resetEngine).p1 = State.reset.p1 := rfl
@[simp] theorem State.resetEngine_p2 :
    (s.resetEngine).p2 = State.reset.p2 := rfl
@[simp] theorem State.resetEngine_pr :
    (s.resetEngine).pr = State.reset.pr := rfl
@[simp] theorem State.resetEngine_mem :
    (s.resetEngine).mem = State.reset.mem := rfl
@[simp] theorem State.resetEngine_trace :
    (s.resetEngine).trace = State.reset.trace := rfl
@[simp] theorem State.resetEngine_bus :
    (s.resetEngine).bus = s.bus := rfl
@[simp] theorem State.resetEngine_latencyLeft :
    (s.resetEngine).latencyLeft = State.reset.latencyLeft := rfl
@[simp] theorem State.resetEngine_rdata :
    (s.resetEngine).rdata = s.rdata := rfl
@[simp] theorem State.resetEngine_draws :
    (s.resetEngine).draws = s.draws := rfl

/-! ### `State.softReset` -/

@[simp] theorem State.softReset_irqEn :
    (s.softReset).irqEn = State.reset.irqEn := rfl
@[simp] theorem State.softReset_lastcmd :
    (s.softReset).lastcmd = State.reset.lastcmd := rfl
@[simp] theorem State.softReset_busy :
    (s.softReset).busy = State.reset.busy := rfl
@[simp] theorem State.softReset_doneFlag :
    (s.softReset).doneFlag = State.reset.doneFlag := rfl
@[simp] theorem State.softReset_errFlag :
    (s.softReset).errFlag = State.reset.errFlag := rfl
@[simp] theorem State.softReset_resultFlag :
    (s.softReset).resultFlag = State.reset.resultFlag := rfl
@[simp] theorem State.softReset_traceValid :
    (s.softReset).traceValid = State.reset.traceValid := rfl
@[simp] theorem State.softReset_alphaValid :
    (s.softReset).alphaValid = State.reset.alphaValid := rfl
@[simp] theorem State.softReset_ovr :
    (s.softReset).ovr = State.reset.ovr := rfl
@[simp] theorem State.softReset_errcode :
    (s.softReset).errcode = State.reset.errcode := rfl
@[simp] theorem State.softReset_donePend :
    (s.softReset).donePend = State.reset.donePend := rfl
@[simp] theorem State.softReset_msgLen :
    (s.softReset).msgLen = State.reset.msgLen := rfl
@[simp] theorem State.softReset_strLen :
    (s.softReset).strLen = State.reset.strLen := rfl
@[simp] theorem State.softReset_digLen :
    (s.softReset).digLen = State.reset.digLen := rfl
@[simp] theorem State.softReset_alphaLen :
    (s.softReset).alphaLen = State.reset.alphaLen := rfl
@[simp] theorem State.softReset_traceLen :
    (s.softReset).traceLen = State.reset.traceLen := rfl
@[simp] theorem State.softReset_errinfo :
    (s.softReset).errinfo = State.reset.errinfo := rfl
@[simp] theorem State.softReset_k :
    (s.softReset).k = State.reset.k := rfl
@[simp] theorem State.softReset_opa :
    (s.softReset).opa = State.reset.opa := rfl
@[simp] theorem State.softReset_opb :
    (s.softReset).opb = State.reset.opb := rfl
@[simp] theorem State.softReset_opm :
    (s.softReset).opm = State.reset.opm := rfl
@[simp] theorem State.softReset_res :
    (s.softReset).res = State.reset.res := rfl
@[simp] theorem State.softReset_p1 :
    (s.softReset).p1 = State.reset.p1 := rfl
@[simp] theorem State.softReset_p2 :
    (s.softReset).p2 = State.reset.p2 := rfl
@[simp] theorem State.softReset_pr :
    (s.softReset).pr = State.reset.pr := rfl
@[simp] theorem State.softReset_mem : s.softReset.mem =
    if Config.softResetKeepsRam then s.mem.write digBase (List.replicate Config.digMax 0) else [] := rfl
@[simp] theorem State.softReset_trace :
    (s.softReset).trace = State.reset.trace := rfl
@[simp] theorem State.softReset_bus :
    (s.softReset).bus = s.bus := rfl
@[simp] theorem State.softReset_latencyLeft :
    (s.softReset).latencyLeft = State.reset.latencyLeft := rfl
@[simp] theorem State.softReset_rdata :
    (s.softReset).rdata = s.rdata := rfl
@[simp] theorem State.softReset_draws :
    (s.softReset).draws = s.draws := rfl

end Sys2Proof.Machine
end

