-- ==== Sys2Proof/Laws/Ops.lean ====
section
/-! SUPPORT. What each shared operation can do, said once: the sequencing of a computation, its checks, its
completion, reading operands and writing results. -/

namespace Sys2Proof.Machine

/-! ### Computations -/

/-- A sequence answers exactly when both parts do. -/
theorem bind_eq_ok {α β : Type} {c : Comp α} {f : α → Comp β} {b : β} :
    (c >>= f) = .ok b ↔ ∃ a, c = .ok a ∧ f a = .ok b := by
  cases c <;> simp [bind, Except.bind]

/-- A sequence stops where its first stopping part stops. -/
theorem bind_eq_error {α β : Type} {c : Comp α} {f : α → Comp β} {e : Stop} :
    (c >>= f) = .error e ↔ c = .error e ∨ ∃ a, c = .ok a ∧ f a = .error e := by
  cases c <;> simp [bind, Except.bind]

@[simp] theorem ok_bind {α β : Type} (a : α) (f : α → Comp β) : ((.ok a : Comp α) >>= f) = f a := rfl

@[simp] theorem error_bind {α β : Type} (e : Stop) (f : α → Comp β) :
    ((.error e : Comp α) >>= f) = .error e := rfl

@[simp] theorem raise_bind {α β : Type} (e : ErrCode) (info : Word) (f : α → Comp β) :
    ((raise e info : Comp α) >>= f) = .error (.raise e info) := rfl

@[simp] theorem pure_comp {α : Type} (a : α) : (pure a : Comp α) = .ok a := rfl

theorem require_eq_ok {ok : Bool} {e : ErrCode} {info : Word} {u : Unit} :
    require ok e info = .ok u ↔ ok = true := by
  cases ok <;> simp [require, raise]

theorem require_eq_error {ok : Bool} {e : ErrCode} {info : Word} {x : Stop} :
    require ok e info = .error x ↔ ok = false ∧ x = .raise e info := by
  cases ok <;> simp [require, raise, eq_comm]

@[simp] theorem require_true (e : ErrCode) (info : Word) : require true e info = .ok () := rfl

@[simp] theorem require_false (e : ErrCode) (info : Word) :
    require false e info = .error (.raise e info) := rfl

/-! ### Completion -/

@[simp] theorem State.conclude_ok (s t : State) : s.conclude (.ok t) = .next (t.succeed false) := rfl

@[simp] theorem State.conclude_raise (s : State) (e : ErrCode) (info : Word) :
    s.conclude (.error (.raise e info)) = .next (s.fail e info) := rfl

@[simp] theorem State.conclude_fault (s : State) (f : Fault) :
    s.conclude (.error (.fault f)) = .fault f := rfl

/-- A completion gives a next state in two ways: the updates applied and success, or a raised error. -/
theorem State.conclude_eq_next {s t : State} {c : Comp State} :
    s.conclude c = .next t ↔ (∃ u, c = .ok u ∧ t = u.succeed false) ∨
      ∃ e info, c = .error (.raise e info) ∧ t = s.fail e info := by
  rcases c with (⟨e, info⟩ | f) | u <;> simp [eq_comm]

theorem State.conclude_eq_fault {s : State} {c : Comp State} {f : Fault} :
    s.conclude c = .fault f ↔ c = .error (.fault f) := by
  rcases c with (⟨e, info⟩ | f) | u <;> simp

theorem State.conclude_ne_refused (s : State) (c : Comp State) (r : Refusal) :
    s.conclude c ≠ .refused r := by
  rcases c with (⟨e, info⟩ | f) | u <;> simp

theorem State.succeeded_succeed (s : State) (r : Bool) : Succeeded (s.succeed r) r :=
  ⟨rfl, rfl, rfl, rfl, rfl, rfl, rfl⟩

theorem State.failed_fail (s : State) (e : ErrCode) (info : Word) : Failed (s.fail e info) e info :=
  ⟨rfl, rfl, rfl, rfl, rfl, rfl, rfl⟩

theorem State.onlyStatus_succeed (s : State) (r : Bool) : OnlyStatus s (s.succeed r) := rfl

theorem State.onlyStatus_fail (s : State) (e : ErrCode) (info : Word) : OnlyStatus s (s.fail e info) := rfl

/-- A computation that gives a state completes with success. -/
theorem State.conclude_of_ok {s u : State} {c : Comp State} (h : c = .ok u) :
    s.conclude c = .next (u.succeed false) := by rw [h]; rfl

/-- A raised error completes with its status and no other change. -/
theorem State.conclude_of_raise {s : State} {c : Comp State} {e : ErrCode} {info : Word}
    (h : c = .error (.raise e info)) :
    ∃ t, s.conclude c = .next t ∧ Failed t e info ∧ OnlyStatus s t :=
  ⟨s.fail e info, by rw [h]; rfl, s.failed_fail e info, rfl⟩

/-! ### Writing a buffer -/

theorem padTo_length {w : Nat} (n : Nat) (s : List (BitVec w)) : (padTo n s).length = n := by
  simp [padTo]; omega

theorem padTo_eq {w : Nat} {n : Nat} {s : List (BitVec w)} (h : s.length ≤ n) :
    padTo n s = s ++ List.replicate (n - s.length) 0 := by
  rw [padTo, List.take_of_length_le h]; rfl

/-- Writing a digest that fits and completing is what `DigestWritten` says. -/
theorem State.putDig_written (s : State) {d : List Byte} (h : d.length ≤ 32) :
    DigestWritten s ((s.putDig d).succeed false) d := by
  refine ⟨State.succeeded_succeed _ _, rfl, ?_, ?_, ?_⟩
  · simp only [State.succeed_digLen, State.putDig_digLen, BitVec.toNat_ofNat]; omega
  · rw [← padTo_eq (n := 32) h]; exact s.mem.write_holds digBase _
  · have := s.mem.write_sameOutside digBase (padTo 32 d)
    rwa [padTo_length] at this

/-- Writing a byte string that fits and completing is what `MessageWritten` says. -/
theorem State.putMsg_written (s : State) {m : List Byte} (h : m.length ≤ 128) :
    MessageWritten s ((s.putMsg m).succeed false) m := by
  refine ⟨State.succeeded_succeed _ _, rfl, ?_, ?_, ?_⟩
  · simp only [State.succeed_msgLen, State.putMsg_msgLen, BitVec.toNat_ofNat]; omega
  · rw [← padTo_eq (n := 128) h]; exact s.mem.write_holds msgBase _
  · have := s.mem.write_sameOutside msgBase (padTo 128 m)
    rwa [padTo_length] at this

/-- Writing a symbol string that fits and completing is what `StringWritten` says. -/
theorem State.putStr_written (s : State) {w : List Word} (h : w.length ≤ 256) :
    StringWritten s ((s.putStr w).succeed false) w := by
  refine ⟨State.succeeded_succeed _ _, rfl, ?_, ?_, ?_⟩
  · simp only [State.succeed_strLen, State.putStr_strLen, BitVec.toNat_ofNat]; omega
  · rw [← padTo_eq (n := 256) h]; exact s.mem.writeWords_holdsWords strBase _
  · have := s.mem.writeWords_sameOutside strBase (padTo 256 w)
    rwa [padTo_length] at this

/-! ### Reading operands -/

/-- What the message read can answer: the bytes below `MSG_LEN`, which is at most 128. -/
theorem State.message_eq_ok {s : State} {m : List Byte} :
    s.message = .ok m ↔ s.msgLen.toNat ≤ 128 ∧ s.msgString s.msgLen.toNat = .ok m := by
  simp only [State.message, bind_eq_ok, require_eq_ok, decide_eq_true_eq]
  exact ⟨fun ⟨_, h⟩ => h, fun h => ⟨(), h⟩⟩

/-- Why a message read stops: the length first, then a byte nothing has written. -/
theorem State.message_eq_error {s : State} {x : Stop} (h : s.message = .error x) :
    (128 < s.msgLen.toNat ∧ x = .raise .lengthError (s.msgLen.setWidth 32)) ∨
      ∃ i, i < s.msgLen.toNat ∧ x = .fault (.unwrittenEntry (msgBase + i)) ∧
        s.mem.read (msgBase + i) = none := by
  simp only [State.message, bind_eq_error, require_eq_error, require_eq_ok, decide_eq_false_iff_not,
    decide_eq_true_eq] at h
  rcases h with ⟨h, rfl⟩ | ⟨_, _, h⟩
  · exact .inl ⟨Nat.lt_of_not_le h, rfl⟩
  · exact .inr (Memory.readBytes_error h)

/-- `DIG` always reads: no digest read stops. -/
theorem State.digString_ok (s : State) {n : Nat} (h : n ≤ 32) :
    ∃ d, s.digString n = .ok d ∧ d.length = n := by
  cases hd : s.digString n with
  | ok d => exact ⟨d, rfl, (Memory.readBytes_ok hd).1⟩
  | error e =>
    obtain ⟨i, hi, -, hn⟩ := Memory.readBytes_error hd
    have := s.mem.read_dig_isSome (digBase + i) (by simp only [digBase]; omega)
    rw [hn] at this; simp at this

theorem State.alphabet_eq_ok {s : State} {A : List Word} :
    s.alphabet = .ok A ↔ A.length = 40 ∧ s.mem.HoldsWords alphaBase A := Memory.readWords_eq_ok_iff

/-- A word that reads nothing has a byte that nothing has written. -/
theorem Memory.readWord_eq_none {m : Memory} {a : Nat} (h : m.readWord a = none) :
    ∃ d, d < 4 ∧ m.read (a + d) = none := by
  rcases h0 : m.read a with _ | b0
  · exact ⟨0, by omega, h0⟩
  rcases h1 : m.read (a + 1) with _ | b1
  · exact ⟨1, by omega, h1⟩
  rcases h2 : m.read (a + 2) with _ | b2
  · exact ⟨2, by omega, h2⟩
  rcases h3 : m.read (a + 3) with _ | b3
  · exact ⟨3, by omega, h3⟩
  · simp [Memory.readWord, h0, h1, h2, h3] at h

end Sys2Proof.Machine
end

