-- ==== Sys2Proof/Laws/Field.lean ====
section
/-! SUPPORT. The field arithmetic: residues, powers, the inverse. -/

namespace Sys2Proof.Machine

/-! ### Residues -/

theorem fred_eq (v : Int) : (fred v : Int) = v % (curveP : Int) :=
  Int.toNat_of_nonneg (Int.emod_nonneg _ (by decide))

theorem fred_lt (v : Int) : fred v < curveP := by
  have h1 := fred_eq v
  have h2 := Int.emod_lt_of_pos v (show (0 : Int) < curveP by decide)
  omega

theorem fred_lt_word (v : Int) : fred v < 2 ^ 256 :=
  Nat.lt_trans (fred_lt v) (by decide)

theorem fred_natCast (v : Nat) : fred v = v % curveP := by
  have := fred_eq v; omega

theorem fred_eq_zero {v : Int} : fred v = 0 ↔ v % (curveP : Int) = 0 := by
  have := fred_eq v; omega

/-- A residue written to a register reads as itself. -/
theorem toNat_fred (v : Int) : (BitVec.ofNat 256 (fred v)).toNat = fred v := by
  rw [BitVec.toNat_ofNat, Nat.mod_eq_of_lt (fred_lt_word v)]

/-! ### Powers -/

theorem modPowLoop_eq (m fuel b e acc : Nat) (he : e < 2 ^ fuel) :
    modPowLoop m fuel b e acc % m = acc * b ^ e % m := by
  induction fuel generalizing b e acc with
  | zero => have : e = 0 := by simpa using he
            simp [modPowLoop, this]
  | succ fuel ih =>
    have h2 : e / 2 < 2 ^ fuel := by rw [Nat.pow_succ] at he; omega
    rw [modPowLoop, ih _ _ _ h2, Nat.mul_mod, Nat.pow_mod (b * b % m), Nat.mod_mod, ← Nat.pow_mod,
      ← Nat.mul_mod]
    have hs : (b * b) ^ (e / 2) = b ^ (2 * (e / 2)) := by rw [← Nat.pow_two, ← Nat.pow_mul]
    rcases Nat.mod_two_eq_zero_or_one e with h | h
    · have he' : 2 * (e / 2) = e := by omega
      rw [if_neg (by omega), hs, he']
    · have he' : b ^ e = b * b ^ (2 * (e / 2)) := by
        rw [← Nat.pow_succ']; congr 1; omega
      rw [if_pos h, hs, he', Nat.mul_mod, Nat.mod_mod, ← Nat.mul_mod, Nat.mul_assoc]

theorem modPowLoop_lt (m fuel b e acc : Nat) (ha : acc < m) : modPowLoop m fuel b e acc < m := by
  induction fuel generalizing b e acc with
  | zero => exact ha
  | succ fuel ih =>
    refine ih _ _ _ ?_
    split
    · exact Nat.mod_lt _ (by omega)
    · exact ha

/-- Square and multiply is the power. -/
theorem modPow_eq {b e m : Nat} (hm : m ≠ 0) (he : e < 2 ^ 256) : modPow b e m = b ^ e % m := by
  have hlt : modPow b e m < m := modPowLoop_lt _ _ _ _ _ (Nat.mod_lt _ (by omega))
  have h := modPowLoop_eq m 256 (b % m) e (1 % m) he
  rw [← Nat.mod_eq_of_lt hlt]
  calc modPow b e m % m = 1 % m * (b % m) ^ e % m := h
    _ = b ^ e % m := by rw [Nat.mul_mod, Nat.mod_mod, ← Nat.mul_mod, Nat.one_mul, ← Nat.pow_mod]

theorem modPow_lt {b e m : Nat} (hm : m ≠ 0) : modPow b e m < m :=
  modPowLoop_lt _ _ _ _ _ (Nat.mod_lt _ (by omega))

/-! ### The inverse -/

/-- Everything the inverse can answer. -/
theorem inv_cases (info : Word) (k : Int) :
    (fred k = 0 ∧ inv info k = .error (.raise .divisionByZero info)) ∨
      (fred k ≠ 0 ∧ inv info k = .ok (modPow (fred k) (curveP - 2) curveP)) := by
  by_cases h : fred k = 0
  · exact .inl ⟨h, by simp [inv, h, raise]⟩
  · exact .inr ⟨h, by simp [inv, h]⟩

theorem inv_eq_error {info : Word} {k : Int} {e : Stop} :
    inv info k = .error e ↔ fred k = 0 ∧ e = .raise .divisionByZero info := by
  rcases inv_cases info k with ⟨h, h'⟩ | ⟨h, h'⟩ <;> simp [h, h', eq_comm]

end Sys2Proof.Machine
end

