-- ==== Sys2Proof/Laws/Curve.lean ====
section
/-! SUPPORT. Doubling, addition and serialisation of points: everything each can answer. -/

namespace Sys2Proof.Machine

/-- The affine result of the chord and tangent formulas with slope `m` (42_curve.md R89, R90). -/
def slopeResult (m x1 y1 x2 : Int) : Point :=
  .aff (BitVec.ofNat 256 (fred (m ^ 2 - x1 - x2)))
    (BitVec.ofNat 256 (fred (m * (x1 - fred (m ^ 2 - x1 - x2)) - y1)))

/-- A point both of whose coordinates are residues. -/
def Point.Reduced : Point → Prop
  | .inf => True
  | .aff x y => x.toNat < curveP ∧ y.toNat < curveP

theorem slopeResult_reduced (m x1 y1 x2 : Int) : (slopeResult m x1 y1 x2).Reduced := by
  simp only [slopeResult, Point.Reduced, toNat_fred]
  exact ⟨fred_lt _, fred_lt _⟩

@[simp] theorem pdbl_inf (info : Word) : pdbl info .inf = .ok .inf := rfl

/-- Everything a doubling of an affine point can answer. -/
theorem pdbl_aff_cases (info : Word) (x y : Big) :
    (y = 0 ∧ pdbl info (.aff x y) = .ok .inf) ∨
    (y ≠ 0 ∧ fred (2 * (y.toNat : Int)) = 0 ∧
      pdbl info (.aff x y) = .error (.raise .divisionByZero info)) ∨
    (y ≠ 0 ∧ fred (2 * (y.toNat : Int)) ≠ 0 ∧ ∃ i, inv info (2 * (y.toNat : Int)) = .ok i ∧
      pdbl info (.aff x y) = .ok (slopeResult
        (fred ((3 * (x.toNat : Int) ^ 2 + curveA) * i)) x.toNat y.toNat x.toNat)) := by
  by_cases hy : y = 0
  · exact .inl ⟨hy, by simp [pdbl, hy]⟩
  · rcases inv_cases info (2 * (y.toNat : Int)) with ⟨h, hi⟩ | ⟨h, hi⟩
    · refine .inr (.inl ⟨hy, h, ?_⟩)
      simp only [pdbl, if_neg hy, hi, error_bind]
    · refine .inr (.inr ⟨hy, h, _, hi, ?_⟩)
      simp only [pdbl, if_neg hy, hi, ok_bind, pure_comp, slopeResult]
      rw [sub_sub, ← two_mul]

/-- A doubling stops only with a division by zero. -/
theorem pdbl_eq_error {info : Word} {P : Point} {e : Stop} (h : pdbl info P = .error e) :
    e = .raise .divisionByZero info := by
  cases P with
  | inf => simp at h
  | aff x y =>
    rcases pdbl_aff_cases info x y with ⟨_, hp⟩ | ⟨_, _, hp⟩ | ⟨_, _, _, _, hp⟩ <;> rw [hp] at h <;>
      simp_all

@[simp] theorem padd_inf_left (info : Word) (Q : Point) : padd info .inf Q = .ok Q := by
  cases Q <;> rfl

@[simp] theorem padd_inf_right (info : Word) (P : Point) : padd info P .inf = .ok P := by
  cases P <;> rfl

/-- Everything an addition of two affine points can answer. -/
theorem padd_aff_cases (info : Word) (x1 y1 x2 y2 : Big) :
    (x1 = x2 ∧ y1 ≠ y2 ∧ padd info (.aff x1 y1) (.aff x2 y2) = .ok .inf) ∨
    (x1 = x2 ∧ y1 = y2 ∧ padd info (.aff x1 y1) (.aff x2 y2) = pdbl info (.aff x1 y1)) ∨
    (x1 ≠ x2 ∧ fred ((x2.toNat : Int) - x1.toNat) = 0 ∧
      padd info (.aff x1 y1) (.aff x2 y2) = .error (.raise .divisionByZero info)) ∨
    (x1 ≠ x2 ∧ fred ((x2.toNat : Int) - x1.toNat) ≠ 0 ∧
      ∃ i, inv info ((x2.toNat : Int) - x1.toNat) = .ok i ∧
      padd info (.aff x1 y1) (.aff x2 y2) = .ok (slopeResult
        (fred (((y2.toNat : Int) - y1.toNat) * i)) x1.toNat y1.toNat x2.toNat)) := by
  by_cases hx : x1 = x2
  · by_cases hy : y1 = y2
    · exact .inr (.inl ⟨hx, hy, by simp [padd, hx, hy]⟩)
    · exact .inl ⟨hx, hy, by simp [padd, hx, hy]⟩
  · rcases inv_cases info ((x2.toNat : Int) - x1.toNat) with ⟨h, hi⟩ | ⟨h, hi⟩
    · refine .inr (.inr (.inl ⟨hx, h, ?_⟩))
      simp only [padd, hx, false_and, if_false, hi, error_bind]
    · refine .inr (.inr (.inr ⟨hx, h, _, hi, ?_⟩))
      simp only [padd, hx, false_and, if_false, hi, ok_bind, pure_comp, slopeResult]

/-- An addition stops only with a division by zero. -/
theorem padd_eq_error {info : Word} {P Q : Point} {e : Stop} (h : padd info P Q = .error e) :
    e = .raise .divisionByZero info := by
  cases P with
  | inf => simp at h
  | aff x1 y1 =>
    cases Q with
    | inf => simp at h
    | aff x2 y2 =>
      rcases padd_aff_cases info x1 y1 x2 y2 with ⟨_, _, hp⟩ | ⟨_, _, hp⟩ | ⟨_, _, hp⟩ | ⟨_, _, _, _, hp⟩ <;>
        rw [hp] at h
      · simp at h
      · exact pdbl_eq_error h
      · simp_all
      · simp at h

theorem fred_eq_zero_iff_dvd {v : Int} : fred v = 0 ↔ (curveP : Int) ∣ v :=
  fred_eq_zero.trans Int.dvd_iff_emod_eq_zero.symm

/-- Doubling a reduced coordinate gives the zero residue only for 0. -/
theorem fred_two_mul_eq_zero {y : Nat} (hy : y < curveP) (h : fred (2 * (y : Int)) = 0) : y = 0 := by
  have hd : curveP ∣ 2 * y := Int.natCast_dvd_natCast.1 (by
    rw [Nat.cast_mul]; exact fred_eq_zero_iff_dvd.1 h)
  have hc : Nat.Coprime curveP 2 := by decide +kernel
  exact Nat.eq_zero_of_dvd_of_lt (hc.dvd_of_dvd_mul_left hd) hy

/-- Reduced coordinates with the zero residue as their difference are equal. -/
theorem fred_sub_eq_zero {x y : Nat} (hx : x < curveP) (hy : y < curveP)
    (h : fred ((x : Int) - y) = 0) : x = y := by
  have hl : |(x : Int) - y| < (curveP : Int) := by
    rw [abs_lt]; constructor <;> omega
  have := Int.eq_zero_of_abs_lt_dvd (fred_eq_zero_iff_dvd.1 h) hl
  omega

/-- Doubling a reduced point never stops, and gives a reduced point. -/
theorem pdbl_reduced (info : Word) {P : Point} (h : P.Reduced) : ∃ Q, pdbl info P = .ok Q ∧ Q.Reduced := by
  cases P with
  | inf => exact ⟨.inf, rfl, trivial⟩
  | aff x y =>
    rcases pdbl_aff_cases info x y with ⟨_, hp⟩ | ⟨hy, hf, _⟩ | ⟨_, _, _, _, hp⟩
    · exact ⟨_, hp, trivial⟩
    · exact absurd (BitVec.eq_of_toNat_eq (fred_two_mul_eq_zero h.2 hf)) hy
    · exact ⟨_, hp, slopeResult_reduced _ _ _ _⟩

/-- Adding reduced points never stops, and gives a reduced point. -/
theorem padd_reduced (info : Word) {P Q : Point} (hP : P.Reduced) (hQ : Q.Reduced) :
    ∃ R, padd info P Q = .ok R ∧ R.Reduced := by
  cases P with
  | inf => exact ⟨Q, by simp, hQ⟩
  | aff x1 y1 =>
    cases Q with
    | inf => exact ⟨_, by simp, hP⟩
    | aff x2 y2 =>
      rcases padd_aff_cases info x1 y1 x2 y2 with ⟨_, _, hp⟩ | ⟨_, _, hp⟩ | ⟨hx, hf, _⟩ | ⟨_, _, _, _, hp⟩
      · exact ⟨_, hp, trivial⟩
      · rw [hp]; exact pdbl_reduced info hP
      · exact absurd (BitVec.eq_of_toNat_eq (fred_sub_eq_zero hQ.1 hP.1 hf).symm) hx
      · exact ⟨_, hp, slopeResult_reduced _ _ _ _⟩

/-- What a point holds once written and read back. -/
@[simp] theorem Point.pt_toReg (P : Point) : P.toReg.pt = P := by cases P <;> rfl

theorem bytesBe_length (v n : Nat) : (bytesBe v n).length = n := by simp [bytesBe]

theorem intBe_append_singleton (s : List Byte) (b : Byte) : intBe (s ++ [b]) = intBe s * 256 + b.toNat := by
  simp [intBe]

/-- The big-endian string of a value that fits reads back as the value (00_scope.md R13). -/
theorem intBe_bytesBe (n v : Nat) (h : v < 256 ^ n) : intBe (bytesBe v n) = v := by
  induction n generalizing v with
  | zero => simp at h; simp [bytesBe, intBe, h]
  | succ n ih =>
    have hs : bytesBe v (n + 1) = bytesBe (v / 256) n ++ [BitVec.ofNat 8 v] := by
      simp only [bytesBe, List.range_succ, List.map_append, List.map_cons, List.map_nil]
      congr 1
      · refine List.map_congr_left fun i hi => ?_
        have hi : i < n := List.mem_range.1 hi
        congr 1
        rw [Nat.div_div_eq_div_mul, ← Nat.pow_succ']
        congr 2; omega
      · simp
    have hv : v / 256 < 256 ^ n := by rw [Nat.pow_succ] at h; omega
    rw [hs, intBe_append_singleton, ih _ hv, BitVec.toNat_ofNat]
    omega

end Sys2Proof.Machine
end

