-- ==== Sys2Proof/Laws/Hash.lean ====
section
/-! SUPPORT. The hash functions: padded lengths, block counts and digest lengths. -/

namespace Sys2Proof.Machine

@[simp] theorem sha256_length (m : List Byte) : (sha256 m).length = 32 := rfl

@[simp] theorem ripemd160_length (m : List Byte) : (ripemd160 m).length = 20 := rfl

@[simp] theorem checksum_length (m : List Byte) : (checksum m).length = 4 := rfl

theorem bytesLe_length (v n : Nat) : (bytesLe v n).length = n := by simp [bytesLe]

/-- The padding makes the length a multiple of 64 bytes (44_hash.md R111, R114), with the fewest zeros. -/
theorem padZeros_spec (len : Nat) : (len + 1 + padZeros len + 8) % 64 = 0 ∧ padZeros len < 64 := by
  unfold padZeros; omega

theorem sha256Pad_length (m : List Byte) :
    (sha256Pad m).length = m.length + 9 + padZeros m.length := by
  simp [sha256Pad, bytesBe]; omega

theorem ripemdPad_length (m : List Byte) :
    (ripemdPad m).length = m.length + 9 + padZeros m.length := by
  simp [ripemdPad, bytesLe]; omega

theorem wordsBe_length (n : Nat) (bs : List Byte) (h : bs.length = 4 * n) : (wordsBe bs).length = n := by
  induction n generalizing bs with
  | zero => simp at h; simp [h, wordsBe]
  | succ n ih =>
    match bs, h with
    | b0 :: b1 :: b2 :: b3 :: bs, h => simp [wordsBe, ih bs (by simp at h; omega)]

theorem wordsLe_length (n : Nat) (bs : List Byte) (h : bs.length = 4 * n) : (wordsLe bs).length = n := by
  induction n generalizing bs with
  | zero => simp at h; simp [h, wordsLe]
  | succ n ih =>
    match bs, h with
    | b0 :: b1 :: b2 :: b3 :: bs, h => simp [wordsLe, ih bs (by simp at h; omega)]

theorem blocks_length (n : Nat) (ws : List Word) : (blocks n ws).length = n := by
  induction n generalizing ws with
  | zero => rfl
  | succ n ih => simp [blocks, ih]

/-- Every block has 16 words. -/
theorem blocks_block_length (n : Nat) (ws : List Word) (h : ws.length = 16 * n) :
    ∀ b ∈ blocks n ws, b.length = 16 := by
  induction n generalizing ws with
  | zero => simp [blocks]
  | succ n ih =>
    simp only [blocks, List.mem_cons]
    rintro b (rfl | hb)
    · simp; omega
    · exact ih _ (by simp; omega) b hb

/-- The blocks of a message are its padded words, no word dropped. -/
theorem blocks_flatten (n : Nat) (ws : List Word) (h : ws.length = 16 * n) :
    (blocks n ws).flatten = ws := by
  induction n generalizing ws with
  | zero => simp at h; simp [blocks, h]
  | succ n ih =>
    simp only [blocks, List.flatten_cons]
    rw [ih _ (by simp; omega), List.take_append_drop]

theorem sha256Extend_length (n : Nat) (ws : List Word) : (sha256Extend n ws).length = ws.length + n := by
  induction n generalizing ws with
  | zero => rfl
  | succ n ih => rw [sha256Extend, ih]; simp; omega

/-- The schedule has its 64 words (R113). -/
theorem sha256Schedule_length {b : List Word} (h : b.length = 16) : (sha256Schedule b).length = 64 := by
  simp [sha256Schedule, sha256Extend_length, h]

end Sys2Proof.Machine
end

