-- ==== Sys2Proof/Laws/Base58.lean ====
section
/-! SUPPORT. The positional digits and the lengths of the Base58 strings. -/

namespace Sys2Proof.Machine

/-- The digits are the positional digits, when the fuel is enough. -/
theorem digitsLE_eq {b : Nat} (hb : 2 ≤ b) (fuel v : Nat) (h : v < 2 ^ fuel) : digitsLE b fuel v = Nat.digits b v := by
  induction fuel generalizing v with
  | zero => have : v = 0 := by simpa using h
            simp [digitsLE, this]
  | succ fuel ih =>
    rw [digitsLE]
    by_cases hv : v = 0
    · simp [hv]
    · have hd : v / b < 2 ^ fuel := by
        rw [Nat.pow_succ] at h
        have h2 : v / b ≤ v / 2 := Nat.div_le_div_left hb (by omega)
        have h3 : v / 2 < 2 ^ fuel := by omega
        exact Nat.lt_of_le_of_lt h2 h3
      have hp : 0 < v := Nat.pos_of_ne_zero hv
      rw [if_neg hv, ih _ hd, Nat.digits_def' (b := b) (by omega) hp]

theorem intBe_lt (s : List Byte) : intBe s < 256 ^ s.length := by
  induction s using List.reverseRecOn with
  | nil => simp [intBe]
  | append_singleton s b ih =>
    rw [intBe_append_singleton, List.length_append, List.length_singleton, Nat.pow_succ]
    have := b.isLt
    omega

theorem intBe_lt_two_pow (s : List Byte) : intBe s < 2 ^ (8 * s.length) := by
  have h := intBe_lt s
  have e : (256 : Nat) = 2 ^ 8 := rfl
  rwa [e, ← Nat.pow_mul] at h

/-- The number of digits of a value below a power of the base. -/
theorem digits_length_le {b v n : Nat} (hb : 2 ≤ b) (h : v < b ^ n) : (Nat.digits b v).length ≤ n :=
  (Nat.digits_length_le_iff (by omega) v).2 h

theorem base58Symbol_zero : base58Symbol 0 = 0x31 := by decide

theorem base58Alphabet_length : base58Alphabet.length = Config.b58Size := by decide

/-- The Base58 string of a byte string (45_base58.md R123), in positional digits. -/
theorem b58enc_eq {s : List Byte} (h : s ≠ []) :
    b58enc s = List.replicate (s.takeWhile (· = 0)).length (base58Symbol 0) ++
      ((Nat.digits 58 (intBe s)).reverse.map base58Symbol) := by
  rw [b58enc, if_neg h, digitsLE_eq (b := Config.b58Size) (by decide) _ _ (intBe_lt_two_pow s), List.map_reverse]
  rfl

/-- Leading zero bytes are worth nothing: the value is that of the rest. -/
theorem intBe_dropWhile (s : List Byte) : intBe (s.dropWhile (· = 0)) = intBe s := by
  induction s with
  | nil => rfl
  | cons b s ih =>
    by_cases hb : b = 0
    · simp only [hb, List.dropWhile_cons, decide_true, if_true, ih]
      simp [intBe]
    · rw [List.dropWhile_cons_of_neg (by simpa using hb)]

/-- The length of a Base58 string: a symbol per leading zero byte, and the digits of the rest. -/
theorem b58enc_length_le {s : List Byte} {n d : Nat} (hs : s ≠ []) (hl : s.length ≤ n)
    (hd : ∀ k, k ≤ n → 256 ^ k ≤ 58 ^ (k + d)) : (b58enc s).length ≤ n + d := by
  rw [b58enc_eq hs, List.length_append, List.length_replicate, List.length_map, List.length_reverse]
  have hsum : (s.takeWhile (· = 0)).length + (s.dropWhile (· = 0)).length = s.length := by
    rw [← List.length_append, List.takeWhile_append_dropWhile]
  have hlt := intBe_lt (s.dropWhile (· = 0))
  rw [intBe_dropWhile] at hlt
  have := digits_length_le (b := 58) (by omega) (Nat.lt_of_lt_of_le hlt (hd _ (by omega)))
  omega

theorem b58chk_eq (h : List Byte) (v : Byte) : b58chk h v = b58enc (v :: h ++ checksum (v :: h)) := rfl

end Sys2Proof.Machine
end

