-- ==== Sys2Proof/Laws/Base40.lean ====
section
/-! SUPPORT. The Base40 unit: everything the alphabet scan and the decoding scan can answer, and the digits of
an encoding. -/

namespace Sys2Proof.Machine

/-! ### Entries -/

/-- Symbols that stand in memory are the entries read there. -/
theorem Memory.entries_of_holdsWords {m : Memory} {a : Nat} {ws : List Word} (h : m.HoldsWords a ws) :
    m.entries a ws.length = ws.map some := by
  refine List.ext_getElem (by simp [Memory.entries]) fun j h1 h2 => ?_
  simp only [Memory.entries, List.getElem_map, List.getElem_range]
  exact h j (by simpa using h2)

/-! ### The alphabet scan -/

/-- The scan passes exactly when the entries are distinct and none stands among those seen. -/
theorem alphaScan_eq_ok {seen A : List Word} {j : Nat} :
    alphaScan seen j (A.map some) = .ok () ↔ A.Nodup ∧ ∀ c ∈ A, c ∉ seen := by
  induction A generalizing seen j with
  | nil => simp [alphaScan]
  | cons c A ih =>
    simp only [List.map_cons, alphaScan]
    by_cases hc : c ∈ seen
    · simp [hc, raise]
    · rw [if_neg hc, ih]
      simp only [List.nodup_cons, List.mem_cons, not_or]
      constructor
      · rintro ⟨hn, h⟩
        refine ⟨⟨fun hm => (h c hm).1 rfl, hn⟩, ?_⟩
        rintro d (rfl | hd)
        · exact hc
        · exact (h d hd).2
      · rintro ⟨⟨hm, hn⟩, h⟩
        exact ⟨hn, fun d hd => ⟨fun e => hm (e ▸ hd), h d (.inr hd)⟩⟩

/-- The scan stops at the first entry that stands before it. -/
theorem alphaScan_append {seen A B : List Word} {j : Nat} (hn : A.Nodup) (hs : ∀ c ∈ A, c ∉ seen) :
    alphaScan seen j ((A ++ B).map some) = alphaScan (A.reverse ++ seen) (j + A.length) (B.map some) := by
  induction A generalizing seen j with
  | nil => simp
  | cons c A ih =>
    have hc : c ∉ seen := hs c (by simp)
    simp only [List.cons_append, List.map_cons, alphaScan, if_neg hc]
    rw [List.nodup_cons] at hn
    rw [ih hn.2 fun d hd => ?_]
    · simp [Nat.add_assoc, Nat.add_comm 1]
    · simp only [List.mem_cons, not_or]
      exact ⟨fun e => hn.1 (e ▸ hd), hs d (by simp [hd])⟩

/-! ### The decoding scan -/

/-- The scan of symbols that all stand in the alphabet answers their positional value (46_base40.md R130). -/
theorem b40scan_of_mem {A S : List Word} (q v : Nat) (h : ∀ c ∈ S, c ∈ A) :
    b40scan A (S.map some) q v = .ok (v + 40 ^ q * Nat.ofDigits 40 (S.map fun c => A.idxOf c)) := by
  induction S generalizing q v with
  | nil => simp [b40scan]
  | cons c S ih =>
    have hc : A.idxOf? c = some (A.idxOf c) := by
      rw [List.idxOf?_eq_some_iff]
      have hlt := List.idxOf_lt_length_iff.2 (h c (by simp))
      refine ⟨hlt, by simp, fun j hj he => ?_⟩
      have := List.not_of_lt_findIdx (p := (· == c)) hj
      simp_all
    simp only [List.map_cons, b40scan, hc, ih _ _ fun d hd => h d (by simp [hd]), Nat.ofDigits_cons]
    congr 1
    rw [Nat.pow_succ]; ring

/-- The scan stops at the first scanned symbol that the alphabet does not hold. -/
theorem b40scan_append {A S T : List Word} (q v : Nat) (h : ∀ c ∈ S, c ∈ A) :
    ∃ w, b40scan A ((S ++ T).map some) q v = b40scan A (T.map some) (q + S.length) w := by
  induction S generalizing q v with
  | nil => exact ⟨v, by simp⟩
  | cons c S ih =>
    have hc : (A.idxOf? c).isSome = true := by simp [h c (by simp)]
    obtain ⟨d, hd⟩ := Option.isSome_iff_exists.1 hc
    obtain ⟨w, hw⟩ := ih (q + 1) (v + d * 40 ^ q) fun e he => h e (by simp [he])
    exact ⟨w, by simp only [List.cons_append, List.map_cons, b40scan, hd]; rw [hw]; simp [Nat.add_assoc, Nat.add_comm 1]⟩

/-! ### Encoding -/

/-- The Base40 string of a value (R129), in positional digits. -/
theorem b40enc_eq {v : Nat} (A : List Word) (hv : v ≠ 0) (h : v < 2 ^ 256) :
    b40enc v A = (Nat.digits 40 v).reverse.map fun d => A.getD d 0 := by
  rw [b40enc, if_neg hv, digitsLE_eq (b := Config.alphaSize) (by decide) Config.scalarBits v h, List.map_reverse]
  rfl

theorem b40enc_zero (A : List Word) : b40enc 0 A = [A.getD 0 0] := rfl

/-- At most 49 digits for a 256-bit value (R134). -/
theorem b40enc_length_le {v : Nat} (A : List Word) (h : v < 2 ^ 256) : (b40enc v A).length ≤ 49 := by
  by_cases hv : v = 0
  · simp [hv, b40enc_zero]
  · rw [b40enc_eq A hv h, List.length_map, List.length_reverse]
    exact digits_length_le (by omega) (Nat.lt_of_lt_of_le h (by decide +kernel))

end Sys2Proof.Machine
end

