-- ==== Sys2Proof/Laws/Config.lean ====
section
/-! SUPPORT. The parameters of 00_scope.md R8: the word types have the widths that Config.lean names, and the
open parameters have the bounds the spec gives them. -/

namespace Sys2Proof

theorem word_eq_hostDataWidth : Word = BitVec Config.hostDataWidth := rfl

theorem word_eq_symWidth : Word = BitVec Config.symWidth := rfl

theorem big_eq_scalarBits : Big = BitVec Config.scalarBits := rfl

theorem addr_eq_hostOffsetWidth : Addr = BitVec (Config.hostOffsetWidth - 2) := rfl

theorem Config.latency_pos (cmd : Word) (operands : List Nat) : 0 < Config.latency cmd operands :=
  Nat.succ_pos _

theorem Config.instances_pos : 0 < Config.instances := Nat.succ_pos _

end Sys2Proof
end

