-- ==== Sys2Proof/Laws/Decode.lean ====
section
/-! SUPPORT. The fields of a command word, and what a row of the decoder can answer. -/

namespace Sys2Proof

/-- A word is its three fields side by side. -/
theorem word_fields (w : Word) : w = rsvField w ++ argField w ++ opcodeField w := by
  unfold rsvField argField opcodeField
  refine BitVec.eq_of_getLsbD_eq fun i hi => ?_
  simp only [BitVec.getLsbD_append, BitVec.getLsbD_extractLsb']
  by_cases h1 : i < 8
  · simp [h1]
  · by_cases h2 : i - 8 < 8
    · rw [if_neg h1, if_pos h2]; simp [h2, show 8 + (i - 8) = i by omega]
    · rw [if_neg h1, if_neg h2]; simp [show 16 + (i - 8 - 8) = i by omega, show i - 8 - 8 < 16 by omega]

theorem opcodeField_wordOf (op arg : Byte) : opcodeField (wordOf op arg) = op := by
  unfold opcodeField wordOf
  exact BitVec.extractLsb'_append_eq_right

theorem argField_wordOf (op arg : Byte) : argField (wordOf op arg) = arg := by
  unfold argField wordOf
  refine BitVec.eq_of_getLsbD_eq fun i hi => ?_
  simp only [BitVec.getLsbD_append, BitVec.getLsbD_extractLsb']
  rw [if_neg (by omega), if_pos (by omega)]
  simp [hi]

theorem rsvField_wordOf (op arg : Byte) : rsvField (wordOf op arg) = 0 := by
  unfold rsvField wordOf
  refine BitVec.eq_of_getLsbD_eq fun i hi => ?_
  simp only [BitVec.getLsbD_append, BitVec.getLsbD_extractLsb']
  rw [if_neg (by omega), if_neg (by omega)]
  simp

/-- A row of the decoder is a row of the opcode map, and the command it selects is written as the opcode
with the argument where the row uses it. -/
theorem opcodeRow_eq_some {op arg : Byte} {i : Instr} {used : Bool} (h : opcodeRow op arg = some (i, used)) :
    (op, used) ∈ opcodeMap ∧ encode i = wordOf op (if used then arg else 0) := by
  unfold opcodeRow at h
  split at h <;> first
    | (simp only [Option.some.injEq, Prod.mk.injEq] at h; obtain ⟨rfl, rfl⟩ := h
       exact ⟨by decide, rfl⟩)
    | simp at h

/-- Every row of the opcode map is a row of the decoder. -/
theorem opcodeRow_of_mem {op arg : Byte} {used : Bool} (h : (op, used) ∈ opcodeMap) :
    ∃ i, opcodeRow op arg = some (i, used) := by
  simp only [opcodeMap, List.mem_cons, List.not_mem_nil, or_false, Prod.mk.injEq] at h
  rcases h with h | h | h | h | h | h | h | h | h | h | h | h | h | h | h | h | h | h | h | h | h <;>
    (obtain ⟨rfl, rfl⟩ := h; exact ⟨_, rfl⟩)

/-- What the decoder accepts: a row whose checks of `RSV` and `ARG` pass. -/
theorem decode_eq_ok {w : Word} {i : Instr} :
    decode w = .ok i ↔ ∃ used, opcodeRow (opcodeField w) (argField w) = some (i, used) ∧
      rsvField w = 0 ∧ (argField w = 0 ∨ used = true) := by
  unfold decode
  cases hr : opcodeRow (opcodeField w) (argField w) with
  | none => simp
  | some r =>
    obtain ⟨j, used⟩ := r
    by_cases h0 : rsvField w = 0#16 <;> by_cases ha : argField w = 0#8 <;> cases used <;>
      simp_all

/-- Each opcode has one row of the map. -/
theorem opcodeMap_unique {op : Byte} {u v : Bool} (hu : (op, u) ∈ opcodeMap) (hv : (op, v) ∈ opcodeMap) :
    u = v := by
  have : ∀ r ∈ opcodeMap, ∀ q ∈ opcodeMap, r.1 = q.1 → r.2 = q.2 := by decide +kernel
  exact this _ hu _ hv rfl

end Sys2Proof
end

