-- ==== Sys2Proof/Laws/Prime.lean ====
section
/-! SUPPORT. The field modulus and the group order of the curve (41_field.md R73) are prime: certificates
of Pratt's kind, each a witness of order `q - 1` and the factors of `q - 1`. -/

namespace Sys2Proof.Machine

/-- The check of a certificate: `a` has order `q - 1`, whose factors are `fs` with their exponents. -/
def prattCheck (q a : Nat) (fs : List (Nat × Nat)) : Bool :=
  decide (1 < q ∧ q < 2 ^ 256) && decide ((fs.map fun f => f.1 ^ f.2).prod = q - 1) &&
    decide (modPow a (q - 1) q = 1) && fs.all fun f => decide (modPow a ((q - 1) / f.1) q ≠ 1)

/-- A certificate that checks, with prime factors, shows a prime. -/
theorem prime_of_pratt {q : Nat} (a : Nat) (fs : List (Nat × Nat)) (hc : prattCheck q a fs = true)
    (hf : ∀ f ∈ fs, f.1.Prime) : q.Prime := by
  simp only [prattCheck, Bool.and_eq_true, decide_eq_true_eq, List.all_eq_true] at hc
  obtain ⟨⟨⟨⟨h1, hq⟩, hprod⟩, hpow⟩, hne⟩ := hc
  have cast : ∀ e, e < 2 ^ 256 → ((a : ZMod q) ^ e = 1 ↔ modPow a e q = 1) := fun e he => by
    rw [modPow_eq (by omega) he, ← Nat.cast_one, ← Nat.cast_pow, ZMod.natCast_eq_natCast_iff', Nat.mod_eq_of_lt h1]
  refine lucas_primality q (a : ZMod q) ((cast _ (by omega)).2 hpow) fun r hr hd => ?_
  rw [← hprod, hr.prime.dvd_prod_iff] at hd
  obtain ⟨x, hx, hrx⟩ := hd
  obtain ⟨f, hfm, rfl⟩ := List.mem_map.1 hx
  have : r = f.1 := (Nat.prime_dvd_prime_iff_eq hr (hf f hfm)).1 (hr.dvd_of_dvd_pow hrx)
  subst this
  rw [Ne, cast _ (Nat.lt_of_le_of_lt (Nat.div_le_self _ _) (by omega))]
  exact hne f hfm

theorem prime_13331831 : Nat.Prime 13331831 :=
  prime_of_pratt 13
    [(2, 1), (5, 1), (971, 1), (1373, 1)]
    (by decide +kernel) (by
      simp only [List.forall_mem_cons, List.not_mem_nil, false_imp_iff, implies_true, and_true]
      exact ⟨by norm_num, by norm_num, by norm_num, by norm_num⟩)

theorem prime_173378833005251801 : Nat.Prime 173378833005251801 :=
  prime_of_pratt 6
    [(2, 3), (5, 2), (2621, 1), (24809, 1), (13331831, 1)]
    (by decide +kernel) (by
      simp only [List.forall_mem_cons, List.not_mem_nil, false_imp_iff, implies_true, and_true]
      exact ⟨by norm_num, by norm_num, by norm_num, by norm_num, prime_13331831⟩)

theorem prime_22149492674086928081353 : Nat.Prime 22149492674086928081353 :=
  prime_of_pratt 5
    [(2, 3), (3, 1), (5323, 1), (173378833005251801, 1)]
    (by decide +kernel) (by
      simp only [List.forall_mem_cons, List.not_mem_nil, false_imp_iff, implies_true, and_true]
      exact ⟨by norm_num, by norm_num, by norm_num, prime_173378833005251801⟩)

theorem prime_132896956044521568488119 : Nat.Prime 132896956044521568488119 :=
  prime_of_pratt 6
    [(2, 1), (3, 1), (22149492674086928081353, 1)]
    (by decide +kernel) (by
      simp only [List.forall_mem_cons, List.not_mem_nil, false_imp_iff, implies_true, and_true]
      exact ⟨by norm_num, by norm_num, prime_22149492674086928081353⟩)

theorem prime_1206781 : Nat.Prime 1206781 :=
  prime_of_pratt 10
    [(2, 2), (3, 1), (5, 1), (20113, 1)]
    (by decide +kernel) (by
      simp only [List.forall_mem_cons, List.not_mem_nil, false_imp_iff, implies_true, and_true]
      exact ⟨by norm_num, by norm_num, by norm_num, by norm_num⟩)

theorem prime_7240687 : Nat.Prime 7240687 :=
  prime_of_pratt 3
    [(2, 1), (3, 1), (1206781, 1)]
    (by decide +kernel) (by
      simp only [List.forall_mem_cons, List.not_mem_nil, false_imp_iff, implies_true, and_true]
      exact ⟨by norm_num, by norm_num, prime_1206781⟩)

theorem prime_107590001 : Nat.Prime 107590001 :=
  prime_of_pratt 3
    [(2, 4), (5, 4), (7, 1), (29, 1), (53, 1)]
    (by decide +kernel) (by
      simp only [List.forall_mem_cons, List.not_mem_nil, false_imp_iff, implies_true, and_true]
      exact ⟨by norm_num, by norm_num, by norm_num, by norm_num, by norm_num⟩)

theorem prime_255515944373312847190720520512484175977 : Nat.Prime 255515944373312847190720520512484175977 :=
  prime_of_pratt 3
    [(2, 3), (7, 2), (11, 1), (1627, 1), (2657, 1), (4423, 1), (41201, 1), (96557, 1), (7240687, 1),
     (107590001, 1)]
    (by decide +kernel) (by
      simp only [List.forall_mem_cons, List.not_mem_nil, false_imp_iff, implies_true, and_true]
      exact ⟨by norm_num, by norm_num, by norm_num, by norm_num, by norm_num, by norm_num, by norm_num,
       by norm_num, prime_7240687, prime_107590001⟩)

theorem prime_205115282021455665897114700593932402728804164701536103180137503955397371 : Nat.Prime 205115282021455665897114700593932402728804164701536103180137503955397371 :=
  prime_of_pratt 10
    [(2, 1), (3, 1), (5, 1), (29, 2), (31, 1), (7723, 1), (132896956044521568488119, 1),
     (255515944373312847190720520512484175977, 1)]
    (by decide +kernel) (by
      simp only [List.forall_mem_cons, List.not_mem_nil, false_imp_iff, implies_true, and_true]
      exact ⟨by norm_num, by norm_num, by norm_num, by norm_num, by norm_num, by norm_num,
       prime_132896956044521568488119, prime_255515944373312847190720520512484175977⟩)

/-- `p` is prime (R73). -/
theorem curveP_prime : Nat.Prime curveP :=
  prime_of_pratt 3
    [(2, 1), (3, 1), (7, 1), (13441, 1),
     (205115282021455665897114700593932402728804164701536103180137503955397371, 1)]
    (by decide +kernel) (by
      simp only [List.forall_mem_cons, List.not_mem_nil, false_imp_iff, implies_true, and_true]
      exact ⟨by norm_num, by norm_num, by norm_num, by norm_num,
       prime_205115282021455665897114700593932402728804164701536103180137503955397371⟩)

theorem prime_4681609 : Nat.Prime 4681609 :=
  prime_of_pratt 23
    [(2, 3), (3, 1), (97, 1), (2011, 1)]
    (by decide +kernel) (by
      simp only [List.forall_mem_cons, List.not_mem_nil, false_imp_iff, implies_true, and_true]
      exact ⟨by norm_num, by norm_num, by norm_num, by norm_num⟩)

theorem prime_107361793816595537 : Nat.Prime 107361793816595537 :=
  prime_of_pratt 3
    [(2, 4), (16699, 1), (85831, 1), (4681609, 1)]
    (by decide +kernel) (by
      simp only [List.forall_mem_cons, List.not_mem_nil, false_imp_iff, implies_true, and_true]
      exact ⟨by norm_num, by norm_num, by norm_num, prime_4681609⟩)

theorem prime_44706919 : Nat.Prime 44706919 :=
  prime_of_pratt 6
    [(2, 1), (3, 1), (797, 1), (9349, 1)]
    (by decide +kernel) (by
      simp only [List.forall_mem_cons, List.not_mem_nil, false_imp_iff, implies_true, and_true]
      exact ⟨by norm_num, by norm_num, by norm_num, by norm_num⟩)

theorem prime_174723607534414371449 : Nat.Prime 174723607534414371449 :=
  prime_of_pratt 3
    [(2, 3), (17, 1), (59, 1), (4051, 1), (120233, 1), (44706919, 1)]
    (by decide +kernel) (by
      simp only [List.forall_mem_cons, List.not_mem_nil, false_imp_iff, implies_true, and_true]
      exact ⟨by norm_num, by norm_num, by norm_num, by norm_num, by norm_num, prime_44706919⟩)

theorem prime_545358713 : Nat.Prime 545358713 :=
  prime_of_pratt 5
    [(2, 3), (41, 1), (59, 1), (28181, 1)]
    (by decide +kernel) (by
      simp only [List.forall_mem_cons, List.not_mem_nil, false_imp_iff, implies_true, and_true]
      exact ⟨by norm_num, by norm_num, by norm_num, by norm_num⟩)

theorem prime_1627771 : Nat.Prime 1627771 :=
  prime_of_pratt 3
    [(2, 1), (3, 1), (5, 1), (29, 1), (1871, 1)]
    (by decide +kernel) (by
      simp only [List.forall_mem_cons, List.not_mem_nil, false_imp_iff, implies_true, and_true]
      exact ⟨by norm_num, by norm_num, by norm_num, by norm_num, by norm_num⟩)

theorem prime_297159362677 : Nat.Prime 297159362677 :=
  prime_of_pratt 2
    [(2, 2), (3, 2), (11, 1), (461, 1), (1627771, 1)]
    (by decide +kernel) (by
      simp only [List.forall_mem_cons, List.not_mem_nil, false_imp_iff, implies_true, and_true]
      exact ⟨by norm_num, by norm_num, by norm_num, by norm_num, prime_1627771⟩)

theorem prime_29047611873442575647497758179 : Nat.Prime 29047611873442575647497758179 :=
  prime_of_pratt 2
    [(2, 1), (293, 1), (305873, 1), (545358713, 1), (297159362677, 1)]
    (by decide +kernel) (by
      simp only [List.forall_mem_cons, List.not_mem_nil, false_imp_iff, implies_true, and_true]
      exact ⟨by norm_num, by norm_num, by norm_num, prime_545358713, prime_297159362677⟩)

theorem prime_341948486974166000522343609283189 : Nat.Prime 341948486974166000522343609283189 :=
  prime_of_pratt 2
    [(2, 2), (3, 3), (109, 1), (29047611873442575647497758179, 1)]
    (by decide +kernel) (by
      simp only [List.forall_mem_cons, List.not_mem_nil, false_imp_iff, implies_true, and_true]
      exact ⟨by norm_num, by norm_num, by norm_num, prime_29047611873442575647497758179⟩)

/-- `n` is prime (R73). -/
theorem curveN_prime : Nat.Prime curveN :=
  prime_of_pratt 7
    [(2, 6), (3, 1), (149, 1), (631, 1), (107361793816595537, 1), (174723607534414371449, 1),
     (341948486974166000522343609283189, 1)]
    (by decide +kernel) (by
      simp only [List.forall_mem_cons, List.not_mem_nil, false_imp_iff, implies_true, and_true]
      exact ⟨by norm_num, by norm_num, by norm_num, by norm_num, prime_107361793816595537,
       prime_174723607534414371449, prime_341948486974166000522343609283189⟩)

end Sys2Proof.Machine
end

