-- ==== Sys2Proof/Laws/Scalar.lean ====
section
/-! SUPPORT. The scalar multiplier: everything a step, the loop and the checks before it can answer, and what
a record holds. -/

namespace Sys2Proof.Machine

theorem validScalar_iff {k : Nat} : validScalar k = true ↔ 1 ≤ k ∧ k < curveN := by
  simp [validScalar]

/-! ### One step -/

theorem scalarStep_eq_ok {n : Nat} {b : Bool} {B P Q : Point} :
    scalarStep n b B P = .ok Q ↔ ∃ D, pdbl (BitVec.ofNat 32 n) P = .ok D ∧
      (if b then padd (BitVec.ofNat 32 n) D B else .ok D) = .ok Q := by
  rw [scalarStep, bind_eq_ok]; rfl

/-- A step stops only with a division by zero that carries the step number. -/
theorem scalarStep_eq_error {n : Nat} {b : Bool} {B P : Point} {e : Stop} (h : scalarStep n b B P = .error e) :
    e = .raise .divisionByZero (BitVec.ofNat 32 n) := by
  rw [scalarStep, bind_eq_error] at h
  rcases h with h | ⟨D, _, h⟩
  · exact pdbl_eq_error h
  · cases b
    · simp at h
    · exact padd_eq_error h

/-- A step from reduced points never stops, and gives a reduced point. -/
theorem scalarStep_reduced (n : Nat) (b : Bool) {B P : Point} (hB : B.Reduced) (hP : P.Reduced) :
    ∃ Q, scalarStep n b B P = .ok Q ∧ Q.Reduced := by
  obtain ⟨D, hD, hDr⟩ := pdbl_reduced (BitVec.ofNat 32 n) hP
  cases b
  · exact ⟨D, scalarStep_eq_ok.2 ⟨D, hD, rfl⟩, hDr⟩
  · obtain ⟨Q, hQ, hQr⟩ := padd_reduced (BitVec.ofNat 32 n) hDr hB
    exact ⟨Q, scalarStep_eq_ok.2 ⟨D, hD, hQ⟩, hQr⟩

/-! ### Records -/

theorem angleOf_lt (x : Nat) : angleOf (x % 40) = 9 * (x % 40) := by
  simp only [angleOf]; omega

theorem deltaOf_lt (si : Nat) (prev : Option Nat) : deltaOf si prev < 40 := by
  cases prev <;> simp only [deltaOf] <;> omega

/-- The point a record shows is the accumulator it was made from. -/
@[simp] theorem traceRecord_point (A : List Word) (n : Nat) (b : Bool) (prev : Option Nat) (P : Point) :
    (traceRecord A n b prev P).1.point = P := by
  cases P <;> rfl

@[simp] theorem traceRecord_step (A : List Word) (n : Nat) (b : Bool) (prev : Option Nat) (P : Point) :
    (traceRecord A n b prev P).1.step = BitVec.ofNat 9 n := by cases P <;> rfl

@[simp] theorem traceRecord_bit (A : List Word) (n : Nat) (b : Bool) (prev : Option Nat) (P : Point) :
    (traceRecord A n b prev P).1.bit = b := by cases P <;> rfl

@[simp] theorem traceRecord_op (A : List Word) (n : Nat) (b : Bool) (prev : Option Nat) (P : Point) :
    (traceRecord A n b prev P).1.op = b := by cases P <;> rfl

/-- The symbol index an accumulator selects, none for `INF`: what the next record's difference is taken
against (43_scalar.md R99, R101). -/
theorem traceRecord_next (A : List Word) (n : Nat) (b : Bool) (prev : Option Nat) (P : Point) :
    (traceRecord A n b prev P).2 =
      if (traceRecord A n b prev P).1.symv then some (traceRecord A n b prev P).1.sidx.toNat else none := by
  cases P with
  | inf => rfl
  | aff x y =>
    have h : angleOf (x.toNat % 40) / 9 < 64 := by rw [angleOf_lt]; omega
    simp only [traceRecord, if_true, BitVec.toNat_ofNat, Nat.mod_eq_of_lt h]

/-- The circular difference a record holds. -/
theorem traceRecord_delta (A : List Word) (n : Nat) (b : Bool) (prev : Option Nat) (P : Point) :
    (traceRecord A n b prev P).1.delta.toNat =
      if (traceRecord A n b prev P).1.symv then deltaOf (traceRecord A n b prev P).1.sidx.toNat prev else 0 := by
  cases P with
  | inf => rfl
  | aff x y =>
    have h : angleOf (x.toNat % 40) / 9 < 64 := by rw [angleOf_lt]; omega
    have hd := deltaOf_lt (angleOf (x.toNat % 40) / 9) prev
    simp only [traceRecord, if_true, BitVec.toNat_ofNat, Nat.mod_eq_of_lt h]
    omega

/-- A record holds the annotation of its own accumulator. -/
theorem traceRecord_holds {A : List Word} (hA : A.length = 40) (n : Nat) (b : Bool) (prev : Option Nat)
    (P : Point) : RecordHolds A (traceRecord A n b prev P).1 := by
  cases P with
  | inf => exact ⟨rfl, fun _ => ⟨rfl, rfl, rfl, rfl, rfl, rfl⟩, fun h => by simp [traceRecord] at h⟩
  | aff x y =>
    refine ⟨rfl, fun h => by simp [traceRecord] at h, fun _ => ?_⟩
    have h9 : angleOf (x.toNat % 40) / 9 = x.toNat % 40 := by rw [angleOf_lt]; omega
    have hlt : x.toNat % 40 < A.length := by omega
    refine ⟨?_, ?_, ?_⟩
    · simp only [traceRecord, h9, BitVec.toNat_ofNat]; omega
    · simp only [traceRecord, angleOf_lt, BitVec.toNat_ofNat]; omega
    · simp only [traceRecord, h9, List.getElem?_eq_getElem hlt, List.getD_eq_getElem?_getD,
        Option.getD_some]

/-! ### The loop -/

/-- One iteration of the loop: everything it can answer. -/
theorem smulFrom_succ_eq_ok {k : Big} {B : Point} {A : List Word} {n : Nat} {acc R : Point} {prev : Option Nat}
    {tr : List TraceRecord} :
    smulFrom k B A (n + 1) acc prev = .ok (R, tr) ↔ ∃ acc' rest,
      scalarStep (256 - n) (k.getLsbD n) B acc = .ok acc' ∧
      smulFrom k B A n acc' (traceRecord A (256 - n) (k.getLsbD n) prev acc').2 = .ok (R, rest) ∧
      tr = (traceRecord A (256 - n) (k.getLsbD n) prev acc').1 :: rest := by
  simp only [smulFrom, bind_eq_ok, pure_comp, Except.ok.injEq, Prod.mk.injEq, Prod.exists]
  constructor
  · rintro ⟨acc', h1, P, rest, h2, rfl, rfl⟩; exact ⟨acc', rest, h1, h2, rfl⟩
  · rintro ⟨acc', rest, h1, h2, rfl⟩; exact ⟨acc', h1, R, rest, h2, rfl, rfl⟩

/-- The loop records one record an iteration. -/
theorem smulFrom_length {k : Big} {B : Point} {A : List Word} {n : Nat} {acc R : Point} {prev : Option Nat}
    {tr : List TraceRecord} (h : smulFrom k B A n acc prev = .ok (R, tr)) : tr.length = n := by
  induction n generalizing acc prev tr with
  | zero => simp only [smulFrom, Except.ok.injEq, Prod.mk.injEq] at h; simp [← h.2]
  | succ n ih =>
    obtain ⟨acc', rest, _, h2, rfl⟩ := smulFrom_succ_eq_ok.1 h
    simp [ih h2]

/-- Everything a completed loop answers, record by record: the step number, bit and operation, the circular
difference to the record before, the accumulator as the step of the one before, the annotation; and the last
accumulator as the result. -/
theorem smulFrom_records {k : Big} {B : Point} {A : List Word} {n : Nat} (hn : n ≤ 256) {acc R : Point}
    {prev : Option Nat} {tr : List TraceRecord} (h : smulFrom k B A n acc prev = .ok (R, tr)) :
    (∀ r, (h : r < tr.length) →
      tr[r].step.toNat = 256 - n + r + 1 ∧ tr[r].bit = k.getLsbD (n - 1 - r) ∧ tr[r].op = tr[r].bit ∧
      (tr[r].delta.toNat = if tr[r].symv then
          deltaOf tr[r].sidx.toNat (if r = 0 then prev
            else if (tr[r - 1]'(by omega)).symv then some (tr[r - 1]'(by omega)).sidx.toNat else none)
        else 0) ∧
      scalarStep (256 - n + r + 1) (k.getLsbD (n - 1 - r)) B
        (if r = 0 then acc else (tr[r - 1]'(by omega)).point) = .ok tr[r].point ∧
      (A.length = 40 → RecordHolds A tr[r])) ∧
    R = (tr.getLast?.map fun r => r.point).getD acc := by
  induction n generalizing acc prev tr with
  | zero =>
    simp only [smulFrom, Except.ok.injEq, Prod.mk.injEq] at h
    obtain ⟨rfl, rfl⟩ := h
    simp
  | succ n ih =>
    obtain ⟨acc', rest, h1, h2, rfl⟩ := smulFrom_succ_eq_ok.1 h
    obtain ⟨hr, hR⟩ := ih (by omega) h2
    refine ⟨fun r hlt => ?_, ?_⟩
    · cases r with
      | zero =>
        simp only [List.getElem_cons_zero, traceRecord_step, traceRecord_bit, traceRecord_op,
          traceRecord_point]
        refine ⟨by rw [BitVec.toNat_ofNat]; omega, rfl, trivial, ?_, ?_, fun hA => traceRecord_holds hA _ _ _ _⟩
        · rw [traceRecord_delta]; rfl
        · rw [show 256 - (n + 1) + 0 + 1 = 256 - n by omega]; exact h1
      | succ r =>
        obtain ⟨a1, a2, a3, a4, a5, a6⟩ := hr r (by simpa using hlt)
        simp only [List.getElem_cons_succ]
        have e1 : 256 - (n + 1) + (r + 1) + 1 = 256 - n + r + 1 := by omega
        have e2 : n + 1 - 1 - (r + 1) = n - 1 - r := by omega
        rw [e1, e2]
        refine ⟨a1, a2, a3, ?_, ?_, a6⟩
        · rw [a4]
          cases r with
          | zero => simp [traceRecord_next]
          | succ r => simp
        · rw [← a5]
          cases r with
          | zero => simp
          | succ r => simp
    · rw [hR]
      cases rest with
      | nil => simp
      | cons x xs => simp [List.getLast?_cons]

/-- Zero bits before the first one bit keep the accumulator at `INF` (43_scalar.md R104): the loop is that of
the lower bits, with one record more for each. -/
theorem smulFrom_leading_zeros (k : Big) (B : Point) (A : List Word) (n m : Nat)
    (hz : ∀ i, n ≤ i → i < n + m → k.getLsbD i = false) :
    ∃ pre, pre.length = m ∧ smulFrom k B A (n + m) .inf none =
      (smulFrom k B A n .inf none).map fun r => (r.1, pre ++ r.2) := by
  induction m with
  | zero => exact ⟨[], rfl, by cases smulFrom k B A n .inf none <;> rfl⟩
  | succ m ih =>
    obtain ⟨pre, hl, h⟩ := ih fun i h1 h2 => hz i h1 (by omega)
    refine ⟨(traceRecord A (256 - (n + m)) false none .inf).1 :: pre, by simp [hl], ?_⟩
    have hs : scalarStep (256 - (n + m)) (k.getLsbD (n + m)) B .inf = .ok .inf := by
      rw [hz (n + m) (by omega) (by omega)]; rfl
    have hn : (traceRecord A (256 - (n + m)) false none .inf).2 = none := rfl
    rw [← Nat.add_assoc, smulFrom]
    simp only [Config.scalarBits, hs, ok_bind]
    rw [hz (n + m) (by omega) (by omega), hn, h]
    cases smulFrom k B A n .inf none <;> rfl

/-- The loop stops only with a division by zero that carries the number of one of its steps. -/
theorem smulFrom_eq_error {k : Big} {B : Point} {A : List Word} {n : Nat} {acc : Point} {prev : Option Nat}
    {e : Stop} (h : smulFrom k B A n acc prev = .error e) :
    ∃ i, i < n ∧ e = .raise .divisionByZero (BitVec.ofNat 32 (256 - i)) := by
  induction n generalizing acc prev with
  | zero => simp [smulFrom] at h
  | succ n ih =>
    simp only [smulFrom, bind_eq_error, pure_comp] at h
    rcases h with h | ⟨acc', _, h | ⟨r, _, h⟩⟩
    · exact ⟨n, by omega, scalarStep_eq_error h⟩
    · obtain ⟨i, hi, he⟩ := ih h
      exact ⟨i, by omega, he⟩
    · simp at h

/-- The loop over reduced points never stops, and gives a reduced point. -/
theorem smulFrom_reduced (k : Big) {B : Point} (A : List Word) (n : Nat) {acc : Point} (prev : Option Nat)
    (hB : B.Reduced) (hacc : acc.Reduced) : ∃ R tr, smulFrom k B A n acc prev = .ok (R, tr) ∧ R.Reduced := by
  induction n generalizing acc prev with
  | zero => exact ⟨acc, [], rfl, hacc⟩
  | succ n ih =>
    obtain ⟨acc', h1, hr⟩ := scalarStep_reduced (256 - n) (k.getLsbD n) hB hacc
    obtain ⟨R, rest, h2, hR⟩ := ih (traceRecord A (256 - n) (k.getLsbD n) prev acc').2 hr
    exact ⟨R, _, smulFrom_succ_eq_ok.2 ⟨acc', rest, h1, h2, rfl⟩, hR⟩

/-! ### The checks before the loop -/

/-- What the multiplication answers, and when. -/
theorem State.multiply_eq_ok {s : State} {B : Point} {r : Point × List TraceRecord} :
    s.multiply B = .ok r ↔ s.alphaValid = true ∧ (1 ≤ s.k.toNat ∧ s.k.toNat < curveN) ∧
      ∃ A, s.alphabet = .ok A ∧ smul s.k B A = .ok r := by
  simp only [State.multiply, bind_eq_ok, require_eq_ok, validScalar_iff]
  exact ⟨fun ⟨_, h1, _, h2, h3⟩ => ⟨h1, h2, h3⟩, fun ⟨h1, h2, h3⟩ => ⟨(), h1, (), h2, h3⟩⟩

/-- Why the multiplication stops: its checks in order, an alphabet entry nothing has written, then a division
by zero in a step. -/
theorem State.multiply_eq_error {s : State} {B : Point} {e : Stop} (h : s.multiply B = .error e) :
    (s.alphaValid = false ∧ e = .raise .invalidAlphabet 0) ∨
    (s.alphaValid = true ∧ ¬ (1 ≤ s.k.toNat ∧ s.k.toNat < curveN) ∧ e = .raise .invalidScalar 0) ∨
    (∃ j, j < 40 ∧ e = .fault (.unwrittenEntry (alphaBase + 4 * j)) ∧
      s.mem.readWord (alphaBase + 4 * j) = none) ∨
    ∃ n, 1 ≤ n ∧ n ≤ 256 ∧ e = .raise .divisionByZero (BitVec.ofNat 32 n) := by
  simp only [State.multiply, bind_eq_error, require_eq_error, require_eq_ok] at h
  rcases h with ⟨h, rfl⟩ | ⟨_, hv, ⟨hk, rfl⟩ | ⟨_, _, h | ⟨A, _, h⟩⟩⟩
  · exact .inl ⟨h, rfl⟩
  · exact .inr (.inl ⟨hv, by simpa [validScalar] using hk, rfl⟩)
  · exact .inr (.inr (.inl (Memory.readWords_error h)))
  · obtain ⟨i, hi, he⟩ := smulFrom_eq_error h
    exact .inr (.inr (.inr ⟨256 - i, by simp [Config.scalarBits] at hi; omega, by omega, he⟩))

end Sys2Proof.Machine
end

