-- ==== Sys2Proof/Laws/Group.lean ====
section
/-! SUPPORT. The point unit over reduced points of the curve is the curve's group law (Mathlib's
`WeierstrassCurve.Affine.Point`), and the multiplier is the multiple of the base (43_scalar.md R99). -/

namespace Sys2Proof.Machine

/-- The field of the curve. -/
abbrev Fp : Type := ZMod curveP

/-- The curve of 41_field.md R73. -/
abbrev theCurve : WeierstrassCurve.Affine Fp := { a₁ := 0, a₂ := 0, a₃ := 0, a₄ := 0, a₆ := 7 }

theorem fact_curveP : Fact curveP.Prime := ⟨curveP_prime⟩

/-! ### The field -/

theorem cast_fred (v : Int) : ((fred v : Nat) : Fp) = (v : Fp) := by
  rw [← Int.cast_natCast, fred_eq]
  exact ZMod.intCast_mod v curveP

theorem cast_inj_of_lt {x y : Nat} (hx : x < curveP) (hy : y < curveP) (h : (x : Fp) = y) : x = y := by
  rw [ZMod.natCast_eq_natCast_iff', Nat.mod_eq_of_lt hx, Nat.mod_eq_of_lt hy] at h
  exact h

/-- The Fermat inverse is the inverse of the field. -/
theorem cast_inv [Fact curveP.Prime] {info : Word} {v : Int} {i : Nat} (h : inv info v = .ok i) :
    (v : Fp) ≠ 0 ∧ (i : Fp) = (v : Fp)⁻¹ := by
  rcases inv_cases info v with ⟨_, hi⟩ | ⟨hv, hi⟩
  · rw [hi] at h; simp at h
  · have hv' : (v : Fp) ≠ 0 := by
      rw [← cast_fred]
      intro h0
      exact hv (cast_inj_of_lt (fred_lt v) (by decide) (by simpa using h0))
    have hi' : i = modPow (fred v) (curveP - 2) curveP := by rw [hi] at h; simpa using h.symm
    refine ⟨hv', ?_⟩
    rw [hi', modPow_eq (by decide) (by decide), ZMod.natCast_mod, Nat.cast_pow, cast_fred]
    refine eq_inv_of_mul_eq_one_left ?_
    rw [← pow_succ]
    exact ZMod.pow_card_sub_one_eq_one hv'

/-! ### The group law -/

/-- A reduced point of the curve and the element of the group it stands for. -/
inductive Rep : Point → theCurve.Point → Prop
  | inf : Rep .inf 0
  | aff (x y : Big) (hx : x.toNat < curveP) (hy : y.toNat < curveP)
      (h : theCurve.Nonsingular (x.toNat : Fp) (y.toNat : Fp)) : Rep (.aff x y) (.some _ _ h)

/-- The formulas of the spec give the group's third point, for the group's slope. -/
theorem slopeResult_rep {m : Int} {x1 y1 x2 : Nat} {l : Fp} (hm : (m : Fp) = l)
    (h : theCurve.Nonsingular (theCurve.addX (x1 : Fp) x2 l) (theCurve.addY (x1 : Fp) x2 y1 l)) :
    Rep (slopeResult m x1 y1 x2) (.some _ _ h) := by
  have hX : ((BitVec.ofNat 256 (fred (m ^ 2 - x1 - x2))).toNat : Fp) = theCurve.addX (x1 : Fp) x2 l := by
    rw [toNat_fred, cast_fred]
    simp [WeierstrassCurve.Affine.addX, ← hm]
  have hY : ((BitVec.ofNat 256 (fred (m * (x1 - fred (m ^ 2 - x1 - x2)) - y1))).toNat : Fp) =
      theCurve.addY (x1 : Fp) x2 y1 l := by
    rw [toNat_fred, cast_fred]
    simp only [WeierstrassCurve.Affine.addY, WeierstrassCurve.Affine.negY,
      WeierstrassCurve.Affine.negAddY]
    rw [toNat_fred] at hX
    push_cast
    rw [hX, hm]
    ring
  simp only [← hX, ← hY]
  exact Rep.aff _ _ (by rw [toNat_fred]; exact fred_lt _) (by rw [toNat_fred]; exact fred_lt _) _

/-- Doubling is doubling in the group. -/
theorem pdbl_rep [Fact curveP.Prime] (info : Word) {P : Point} {Q : theCurve.Point} (h : Rep P Q) :
    ∃ R, pdbl info P = .ok R ∧ Rep R (Q + Q) := by
  cases h with
  | inf => exact ⟨.inf, rfl, by rw [add_zero]; exact Rep.inf⟩
  | aff x y hx hy h =>
    rcases pdbl_aff_cases info x y with ⟨h0, hp⟩ | ⟨h0, hf, _⟩ | ⟨h0, _, i, hi, hp⟩
    · refine ⟨_, hp, ?_⟩
      rw [WeierstrassCurve.Affine.Point.add_self_of_Y_eq]
      · exact Rep.inf
      · simp [WeierstrassCurve.Affine.negY, h0]
    · exact absurd (BitVec.eq_of_toNat_eq (fred_two_mul_eq_zero hy hf)) h0
    · obtain ⟨hne, hi⟩ := cast_inv hi
      have hy2 : (y.toNat : Fp) ≠ theCurve.negY (x.toNat : Fp) (y.toNat : Fp) := by
        intro he
        apply hne
        simp only [WeierstrassCurve.Affine.negY] at he
        push_cast
        linear_combination he
      refine ⟨_, hp, ?_⟩
      rw [WeierstrassCurve.Affine.Point.add_self_of_Y_ne hy2]
      refine slopeResult_rep ?_ _
      rw [WeierstrassCurve.Affine.slope_of_Y_ne rfl hy2, Int.cast_natCast, cast_fred]
      push_cast
      rw [hi, div_eq_mul_inv]
      simp [WeierstrassCurve.Affine.negY, curveA, two_mul]

/-- Addition is addition in the group. -/
theorem padd_rep [Fact curveP.Prime] (info : Word) {P P' : Point} {Q Q' : theCurve.Point}
    (h : Rep P Q) (h' : Rep P' Q') : ∃ R, padd info P P' = .ok R ∧ Rep R (Q + Q') := by
  cases h with
  | inf => exact ⟨P', padd_inf_left _ _, by rw [zero_add]; exact h'⟩
  | aff x1 y1 hx1 hy1 hn1 =>
    cases h' with
    | inf => exact ⟨_, padd_inf_right _ _, by rw [add_zero]; exact Rep.aff _ _ hx1 hy1 hn1⟩
    | aff x2 y2 hx2 hy2 hn2 =>
      rcases padd_aff_cases info x1 y1 x2 y2 with ⟨hx, hy, hp⟩ | ⟨hx, hy, hp⟩ | ⟨hx, hf, _⟩ |
        ⟨hx, _, i, hi, hp⟩
      · refine ⟨_, hp, ?_⟩
        have he : (x1.toNat : Fp) = x2.toNat := by rw [hx]
        have hye : (y1.toNat : Fp) = theCurve.negY (x2.toNat : Fp) (y2.toNat : Fp) :=
          (WeierstrassCurve.Affine.Y_eq_of_X_eq hn1.1 hn2.1 he).resolve_left fun hy' =>
            hy (BitVec.eq_of_toNat_eq (cast_inj_of_lt hy1 hy2 hy'))
        rw [WeierstrassCurve.Affine.Point.add_of_Y_eq he hye]
        exact Rep.inf
      · subst hx hy
        rw [hp]
        exact pdbl_rep info (Rep.aff _ _ hx1 hy1 hn1)
      · exact absurd (BitVec.eq_of_toNat_eq (fred_sub_eq_zero hx2 hx1 hf).symm) hx
      · obtain ⟨_, hi⟩ := cast_inv hi
        have he : (x1.toNat : Fp) ≠ x2.toNat := fun he =>
          hx (BitVec.eq_of_toNat_eq (cast_inj_of_lt hx1 hx2 he))
        refine ⟨_, hp, ?_⟩
        rw [WeierstrassCurve.Affine.Point.add_of_X_ne he]
        refine slopeResult_rep ?_ _
        rw [WeierstrassCurve.Affine.slope_of_X_ne he, Int.cast_natCast, cast_fred]
        push_cast
        rw [hi]
        push_cast
        rw [div_eq_mul_inv, ← neg_sub (y2.toNat : Fp), ← neg_sub (x2.toNat : Fp), inv_neg, neg_mul_neg]

/-! ### The multiplier -/

/-- One iteration doubles the accumulator and adds the base for a one bit. -/
theorem scalarStep_rep [Fact curveP.Prime] (n : Nat) (b : Bool) {B P : Point} {H Q : theCurve.Point}
    (hB : Rep B H) (hP : Rep P Q) :
    ∃ R, scalarStep n b B P = .ok R ∧ Rep R (Q + Q + b.toNat • H) := by
  obtain ⟨D, hD, hDr⟩ := pdbl_rep (BitVec.ofNat 32 n) hP
  cases b
  · exact ⟨D, scalarStep_eq_ok.2 ⟨D, hD, rfl⟩, by simpa using hDr⟩
  · obtain ⟨R, hR, hRr⟩ := padd_rep (BitVec.ofNat 32 n) hDr hB
    exact ⟨R, scalarStep_eq_ok.2 ⟨D, hD, hR⟩, by simpa using hRr⟩

/-- The loop over the low `n` bits. -/
theorem smulFrom_rep [Fact curveP.Prime] (k : Big) {B : Point} {H : theCurve.Point} (A : List Word)
    (hB : Rep B H) (n : Nat) {acc : Point} {Q : theCurve.Point} (prev : Option Nat) (h : Rep acc Q) :
    ∃ R tr, smulFrom k B A n acc prev = .ok (R, tr) ∧ Rep R (2 ^ n • Q + (k.toNat % 2 ^ n) • H) := by
  induction n generalizing acc Q prev with
  | zero => exact ⟨acc, [], rfl, by simpa [Nat.mod_one] using h⟩
  | succ n ih =>
    obtain ⟨acc', h1, hr⟩ := scalarStep_rep (256 - n) (k.getLsbD n) hB h
    obtain ⟨R, rest, h2, hR⟩ := ih (traceRecord A (256 - n) (k.getLsbD n) prev acc').2 hr
    refine ⟨R, _, smulFrom_succ_eq_ok.2 ⟨acc', rest, h1, h2, rfl⟩, ?_⟩
    have hm : k.toNat % 2 ^ (n + 1) = 2 ^ n * (k.getLsbD n).toNat + k.toNat % 2 ^ n := by
      rw [Nat.mod_pow_succ, BitVec.getLsbD, Nat.toNat_testBit, Nat.add_comm]
    have e : 2 ^ n • (Q + Q + (k.getLsbD n).toNat • H) + (k.toNat % 2 ^ n) • H =
        2 ^ (n + 1) • Q + (k.toNat % 2 ^ (n + 1)) • H := by
      rw [hm]; module
    rw [← e]
    exact hR

/-- The multiplier answers the multiple of its base by the scalar, and never stops. -/
theorem smul_rep [Fact curveP.Prime] (k : Big) {B : Point} {H : theCurve.Point} (A : List Word)
    (hB : Rep B H) : ∃ R tr, smul k B A = .ok (R, tr) ∧ Rep R (k.toNat • H) := by
  obtain ⟨R, tr, h, hR⟩ := smulFrom_rep k A hB 256 none Rep.inf
  refine ⟨R, tr, h, ?_⟩
  have e : (2 ^ 256 : Nat) • (0 : theCurve.Point) = 0 := nsmul_zero _
  rwa [e, zero_add, Nat.mod_eq_of_lt k.isLt] at hR

/-! ### Reading a representation back -/

theorem rep_inf [Fact curveP.Prime] {Q : theCurve.Point} : Rep .inf Q ↔ Q = 0 :=
  ⟨fun h => by cases h; rfl, fun h => h ▸ Rep.inf⟩

/-- A represented point is on the curve. -/
theorem Rep.onCurve {P : Point} {Q : theCurve.Point} (h : Rep P Q) : P.OnCurve := by
  cases h with
  | inf => trivial
  | aff x y hx hy h =>
    have he := (WeierstrassCurve.Affine.equation_iff ..).1 h.1
    refine Int.emod_eq_zero_of_dvd ((ZMod.intCast_zmod_eq_zero_iff_dvd _ curveP).1 ?_)
    push_cast
    linear_combination he

/-- Every reduced point of the curve is represented. -/
theorem exists_rep [Fact curveP.Prime] {P : Point} (hr : P.Reduced) (hc : P.OnCurve) :
    ∃ Q, Rep P Q := by
  cases P with
  | inf => exact ⟨0, Rep.inf⟩
  | aff x y =>
    have hc := (ZMod.intCast_zmod_eq_zero_iff_dvd _ curveP).2 (Int.dvd_of_emod_eq_zero hc)
    push_cast at hc
    have he : theCurve.Equation (x.toNat : Fp) (y.toNat : Fp) := by
      rw [WeierstrassCurve.Affine.equation_iff]
      linear_combination hc
    have hd : theCurve.Δ ≠ 0 := by
      intro h0
      have h1 : ((21168 : Nat) : Fp) = (0 : Nat) := by
        simp only [WeierstrassCurve.Δ, WeierstrassCurve.b₂, WeierstrassCurve.b₄, WeierstrassCurve.b₆,
          WeierstrassCurve.b₈] at h0
        push_cast
        linear_combination -h0
      exact absurd (cast_inj_of_lt (by decide) (by decide) h1) (by decide)
    exact ⟨_, Rep.aff x y hr.1 hr.2 ((WeierstrassCurve.Affine.equation_iff_nonsingular_of_Δ_ne_zero hd).1 he)⟩

/-! ### The generator -/

/-- The multiplication of the generator by the group order ends in `INF`. -/
theorem smul_order_generator : (smul (BitVec.ofNat 256 curveN) curveG []).map Prod.fst = .ok .inf := by
  decide +kernel

/-- The generator is a reduced point of the curve, and its order is `n` (41_field.md R73). -/
theorem exists_generator [Fact curveP.Prime] :
    ∃ H : theCurve.Point, Rep curveG H ∧ addOrderOf H = curveN := by
  obtain ⟨H, hH⟩ := exists_rep (P := curveG) (by unfold curveG Point.Reduced; decide +kernel)
    (by unfold curveG Point.OnCurve; decide +kernel)
  refine ⟨H, hH, ?_⟩
  have hN : (BitVec.ofNat 256 curveN).toNat = curveN := by decide
  obtain ⟨R, tr, hs, hR⟩ := smul_rep (BitVec.ofNat 256 curveN) [] hH
  have h0 := smul_order_generator
  rw [hs] at h0
  have hRi : R = .inf := by simpa [Except.map] using h0
  rw [hRi, rep_inf, hN] at hR
  have : Fact curveN.Prime := ⟨curveN_prime⟩
  refine addOrderOf_eq_prime hR fun hz => ?_
  rw [hz] at hH
  cases hH

/-- No valid scalar multiplies the generator to `INF`, and every multiple is on the curve (43_scalar.md
R106). -/
theorem smul_generator {k : Big} (h1 : 1 ≤ k.toNat) (hn : k.toNat < curveN) (A : List Word) :
    ∃ R tr, smul k curveG A = .ok (R, tr) ∧ R ≠ .inf ∧ R.OnCurve := by
  have := fact_curveP
  obtain ⟨H, hH, ho⟩ := exists_generator
  obtain ⟨R, tr, hs, hR⟩ := smul_rep k A hH
  refine ⟨R, tr, hs, fun hi => ?_, hR.onCurve⟩
  rw [hi, rep_inf] at hR
  have hd := addOrderOf_dvd_of_nsmul_eq_zero hR
  rw [ho] at hd
  exact absurd (Nat.le_of_dvd h1 hd) (by omega)

end Sys2Proof.Machine
end

