-- ==== Sys2Proof/Laws/PerInstr.lean ====
section
/-! SUPPORT. Statements for all commands, a lemma per constructor: the word of every command is legal
(30_encoding.md R66). -/

namespace Sys2Proof.Laws.EncodeLegal

/-- The command's word passes the three checks of R66. -/
def Statement (i : Instr) : Prop := wordLegal (encode i) = true

/-- A word whose opcode's row uses `ARG` is legal with every argument. -/
theorem argument_word (op arg : Byte) (h : (op, true) ∈ opcodeMap) : wordLegal (wordOf op arg) = true := by
  have ho : (wordOf op arg).extractLsb' 0 8 = op := opcodeField_wordOf op arg
  have hr : (wordOf op arg).extractLsb' 16 16 = 0#16 := rsvField_wordOf op arg
  simp only [wordLegal, opcodeAssigned, rsvZero, argAllowed, ho, hr, Bool.and_eq_true, Bool.or_eq_true,
    List.any_eq_true, beq_self_eq_true, and_true]
  exact ⟨⟨_, h, by simp⟩, .inr ⟨_, h, by simp⟩⟩

theorem nop : Statement .nop := by unfold Statement; decide

theorem fred : Statement .fred := by unfold Statement; decide

theorem modinv : Statement .modinv := by unfold Statement; decide

theorem modexp : Statement .modexp := by unfold Statement; decide

theorem oncurve : Statement .oncurve := by unfold Statement; decide

theorem padd : Statement .padd := by unfold Statement; decide

theorem pdbl : Statement .pdbl := by unfold Statement; decide

theorem pser : Statement .pser := by unfold Statement; decide

theorem smul : Statement .smul := by unfold Statement; decide

theorem derive : Statement .derive := by unfold Statement; decide

theorem keychk : Statement .keychk := by unfold Statement; decide

theorem sha256 : Statement .sha256 := by unfold Statement; decide

theorem rmd160 : Statement .rmd160 := by unfold Statement; decide

theorem hash160 : Statement .hash160 := by unfold Statement; decide

theorem chksum : Statement .chksum := by unfold Statement; decide

theorem b58enc : Statement .b58enc := by unfold Statement; decide

theorem b58chk (version : Byte) : Statement (.b58chk version) := argument_word _ version (by decide)

theorem alphav : Statement .alphav := by unfold Statement; decide

theorem b40enc : Statement .b40enc := by unfold Statement; decide

theorem b40dec : Statement .b40dec := by unfold Statement; decide

theorem b40h (target : Byte) : Statement (.b40h target) := argument_word _ target (by decide)

end Sys2Proof.Laws.EncodeLegal
end

