-- ==== Sys2Proof/Laws/Window.lean ====
section
/-! SUPPORT. The host window and one clock cycle: everything a host access and a step can do, and where the
locations of the address map lie. -/

namespace Sys2Proof.Machine

/-! ### The address map -/

/-- The map in numbers (20_memory.md R47). -/
theorem locateOffset_eq (off : Nat) : locateOffset off =
    if off < 0x40 then
      match off with
      | 0x00 => .id
      | 0x04 => .ctrl
      | 0x08 => .cmd
      | 0x0C => .status
      | 0x10 => .irq
      | 0x14 => .msgLen
      | 0x18 => .strLen
      | 0x1C => .digLen
      | 0x20 => .alphaLen
      | 0x24 => .traceLen
      | 0x28 => .errinfo
      | _ => .reserved
    else if off < 0x1C0 then
      match bigRegAt off with
      | some r => .big r (off % 32 / 4)
      | none => .reserved
    else if off = 0x1C0 then .ptag
    else if 0x200 ≤ off ∧ off < 0x220 then .dig off
    else if 0x400 ≤ off ∧ off < 0x480 then .msg off
    else if 0x800 ≤ off ∧ off < 0x900 then .alpha off
    else if 0x1000 ≤ off ∧ off < 0x1400 then .str off
    else if 0x4000 ≤ off ∧ off < 0x9000 then .trace ((off - 0x4000) / 80) ((off - 0x4000) % 80 / 4)
    else .reserved := rfl

/-- The byte offset of the word address of an aligned offset in the window. -/
theorem wordAddr_toNat {off : Nat} (h : off < 0x10000) : (wordAddr off).toNat = off / 4 := by
  simp only [wordAddr, Config.hostOffsetWidth, Config.hostDataWidth, BitVec.toNat_ofNat]
  omega

theorem locate_wordAddr {off : Nat} (h : off < 0x10000) (h4 : off % 4 = 0) :
    locate (wordAddr off) = locateOffset off := by
  rw [locate, wordAddr_toNat h]
  congr 1; omega

/-- Every byte offset a word address can select lies in the window. -/
theorem addr_lt_window (a : Addr) : 4 * a.toNat < 2 ^ Config.hostOffsetWidth := by
  have := a.isLt
  simp only [Config.hostOffsetWidth]
  omega

theorem locate_big {a : Addr} {r : BigReg} {j : Nat} (h : locate a = .big r j) :
    j < 8 ∧ bigRegAt (4 * a.toNat) = some r ∧ j = 4 * a.toNat % 32 / 4 := by
  rw [locate, locateOffset_eq] at h
  split at h
  · split at h <;> simp at h
  split at h
  · split at h
    · rename_i hr
      simp only [Location.big.injEq] at h
      obtain ⟨rfl, rfl⟩ := h
      exact ⟨by omega, hr, rfl⟩
    · simp at h
  repeat' split at h
  all_goals simp at h

theorem locate_dig {a : Addr} {off : Nat} (h : locate a = .dig off) :
    off = 4 * a.toNat ∧ 0x200 ≤ off ∧ off < 0x220 := by
  rw [locate, locateOffset_eq] at h
  repeat' split at h
  all_goals simp at h
  subst h; omega

theorem locate_msg {a : Addr} {off : Nat} (h : locate a = .msg off) :
    off = 4 * a.toNat ∧ 0x400 ≤ off ∧ off < 0x480 := by
  rw [locate, locateOffset_eq] at h
  repeat' split at h
  all_goals simp at h
  subst h; omega

theorem locate_alpha {a : Addr} {off : Nat} (h : locate a = .alpha off) :
    off = 4 * a.toNat ∧ 0x800 ≤ off ∧ off < 0x900 := by
  rw [locate, locateOffset_eq] at h
  repeat' split at h
  all_goals simp at h
  subst h; omega

theorem locate_str {a : Addr} {off : Nat} (h : locate a = .str off) :
    off = 4 * a.toNat ∧ 0x1000 ≤ off ∧ off < 0x1400 := by
  rw [locate, locateOffset_eq] at h
  repeat' split at h
  all_goals simp at h
  subst h; omega

theorem locate_trace {a : Addr} {r w : Nat} (h : locate a = .trace r w) : r < 256 ∧ w < 20 := by
  rw [locate, locateOffset_eq] at h
  repeat' split at h
  all_goals simp at h
  omega

@[simp] theorem locate_cmdAddr : locate cmdAddr = .cmd := by decide

@[simp] theorem locate_statusAddr : locate statusAddr = .status := by decide

/-! ### Host reads -/

/-- A host read changes the read bus and the count of draws alone. -/
theorem State.hostRead_eq (s : State) (a : Addr) :
    ∃ r d, s.hostRead a = { s with rdata := r, draws := d } := by
  unfold State.hostRead
  split <;> exact ⟨_, _, rfl⟩

theorem State.hostRead_of_some {s : State} {a : Addr} {w : Word} (h : s.readable (locate a) = some w) :
    s.hostRead a = { s with rdata := w } := by
  simp only [State.hostRead, h]

theorem State.hostRead_of_none {s : State} {a : Addr} (h : s.readable (locate a) = none) :
    s.hostRead a = { s with rdata := Config.draw s.draws, draws := s.draws + 1 } := by
  simp only [State.hostRead, h]

/-! ### Host writes -/

/-- Everything a host write can do, in the order of 20_memory.md R56. -/
theorem State.hostWrite_cases (s : State) (a : Addr) (v : Word) :
    (locate a = .ctrl ∧ v.getLsbD 0 = true ∧ s.hostWrite a v = s.softReset) ∨
    (locate a = .ctrl ∧ v.getLsbD 0 = false ∧ s.hostWrite a v = { s with irqEn := v.getLsbD 1 }) ∨
    (locate a = .irq ∧ s.hostWrite a v = { s with donePend := s.donePend && !v.getLsbD 0 }) ∨
    ((locate a).readOnly = true ∧ s.hostWrite a v = s) ∨
    (s.busy = true ∧ s.hostWrite a v = { s with ovr := true }) ∨
    (s.busy = false ∧ locate a = .cmd ∧ s.hostWrite a v = s.issue v) ∨
    (s.busy = false ∧ (locate a).readOnly = false ∧ locate a ≠ .ctrl ∧ locate a ≠ .irq ∧
      locate a ≠ .cmd ∧ s.hostWrite a v = s.store v (locate a)) := by
  unfold State.hostWrite
  by_cases h1 : locate a = .ctrl
  · cases v.getLsbD 0 <;> simp [h1]
  by_cases h2 : locate a = .irq
  · cases v.getLsbD 0 <;> simp [h2]
  by_cases h3 : (locate a).readOnly = true
  · simp [h1, h2, h3]
  cases hb : s.busy
  · by_cases h4 : locate a = .cmd
    · simp [h4, Location.readOnly]
    · simp [h1, h2, h3, h4]
  · simp [h1, h2, h3]

/-- Everything the store of a named location can do while idle: a length, a 256-bit register, the infinity
flags, or one word of a buffer. -/
theorem State.store_cases (s : State) (v : Word) (l : Location) :
    s.store v l = s ∨
    s.store v l = { s with msgLen := v.setWidth 9 } ∨
    s.store v l = { s with strLen := v.setWidth 9 } ∨
    s.store v l = { s with digLen := v.setWidth 6 } ∨
    s.store v l = { s with alphaLen := v.setWidth 7, alphaValid := false } ∨
    (∃ r x, s.store v l = s.setBig r x) ∨
    (∃ p q r, s.store v l = { s with p1 := p, p2 := q, pr := r }) ∨
    (∃ off, (l = .dig off ∨ l = .msg off ∨ l = .str off) ∧
      s.store v l = { s with mem := s.mem.writeWord off v }) ∨
    ∃ off, l = .alpha off ∧ s.store v l = { s with mem := s.mem.writeWord off v, alphaValid := false } := by
  cases l <;> simp [State.store]

/-- Writing a 256-bit register changes the eleven of them alone. -/
theorem State.setBig_eq (s : State) (r : BigReg) (v : Big) :
    ∃ k a b m e p q o, s.setBig r v =
      { s with k := k, opa := a, opb := b, opm := m, res := e, p1 := p, p2 := q, pr := o } := by
  cases r <;> exact ⟨_, _, _, _, _, _, _, _, rfl⟩

@[simp] theorem State.setBig_big (s : State) (r : BigReg) (v : Big) : (s.setBig r v).big r = v := by
  cases r <;> rfl

/-! ### Words of a 256-bit register -/

theorem bigWord_toNat (v : Big) (j : Nat) :
    (bigWord v j).toNat = v.toNat / 2 ^ (224 - 32 * j) % 2 ^ 32 := by
  simp [bigWord, BitVec.extractLsb'_toNat, Nat.shiftRight_eq_div_pow]

/-- The bits of a register with one word replaced. -/
theorem setBigWord_getLsbD (v : Big) (j : Nat) (w : Word) (i : Nat) (hi : i < 256) :
    (setBigWord v j w).getLsbD i =
      if 224 - 32 * j ≤ i ∧ i < 224 - 32 * j + 32 then w.getLsbD (i - (224 - 32 * j)) else v.getLsbD i := by
  have hc : ∀ k, k < 256 → (0xFFFFFFFF#256).getLsbD k = decide (k < 32) := by decide +kernel
  unfold setBigWord
  simp only [BitVec.getLsbD_or, BitVec.getLsbD_and, BitVec.getLsbD_not, BitVec.getLsbD_shiftLeft,
    BitVec.getLsbD_setWidth, hi, decide_true, Bool.true_and]
  by_cases h1 : i < 224 - 32 * j
  · rw [if_neg (by omega)]; simp [h1]
  · have hk : i - (224 - 32 * j) < 256 := by omega
    rw [hc _ hk]
    by_cases h2 : i < 224 - 32 * j + 32
    · simp [h1, h2, show i - (224 - 32 * j) < 32 by omega, show 224 - 32 * j ≤ i by omega, hk]
    · have hw : w.getLsbD (i - (224 - 32 * j)) = false := BitVec.getLsbD_of_ge _ _ (by omega)
      simp [h1, h2, show ¬ i - (224 - 32 * j) < 32 by omega, hw]

/-- Replacing word `j` sets that word and leaves the seven others. -/
theorem bigWord_setBigWord (v : Big) {j k : Nat} (w : Word) (hj : j < 8) (hk : k < 8) :
    bigWord (setBigWord v j w) k = if k = j then w else bigWord v k := by
  refine BitVec.eq_of_getLsbD_eq fun i hi => ?_
  have e : (bigWord (setBigWord v j w) k).getLsbD i = (setBigWord v j w).getLsbD (224 - 32 * k + i) := by
    simp [bigWord, hi]
  rw [e, setBigWord_getLsbD _ _ _ _ (by omega)]
  by_cases h : k = j
  · subst h; rw [if_pos (by omega), if_pos rfl]; congr 1; omega
  · rw [if_neg (by omega), if_neg h]; simp [bigWord, hi]

/-! ### Resets -/

/-- A soft reset makes the memory empty or only clears `DIG`. -/
theorem State.softReset_mem_cases (s : State) :
    s.softReset.mem = [] ∨ s.softReset.mem = s.mem.write digBase (List.replicate 32 0) := by
  rw [State.softReset_mem]
  cases Config.softResetKeepsRam
  · exact .inl rfl
  · exact .inr rfl

/-- A soft reset keeps the canonical form. -/
theorem State.softReset_wf {s : State} (h : s.mem.wf = true) : s.softReset.mem.wf = true := by
  rcases s.softReset_mem_cases with e | e <;> rw [e]
  · exact Memory.wf_nil
  · exact s.mem.wf_write _ _ h

/-- Every byte of `DIG` reads 0 after a soft reset. -/
theorem State.softReset_dig (s : State) {i : Nat} (h : i < 32) : s.softReset.mem.read (digBase + i) = some 0 := by
  rcases s.softReset_mem_cases with e | e <;> rw [e]
  · have : digBase + i < digBase + Config.digMax := by simp only [Config.digMax]; omega
    simp [Memory.read, Memory.unlisted, this]
  · rw [Memory.read_write_inside _ _ _ _ (by simpa using h), List.getElem_replicate]

/-! ### One clock cycle -/

/-- Everything an event of the host can do: a read or nothing, a write, a reset. -/
theorem State.hostEvent_cases (s : State) (rest : List HostEvent) (e : HostEvent) :
    (∃ b r d, (b = s.bus ∨ b = rest ∧ e ≠ .hardReset ∧ ∀ a v, e ≠ .write a v) ∧
      s.hostEvent rest e = { s with bus := b, rdata := r, draws := d }) ∨
    (∃ a v, e = .write a v ∧ s.hostEvent rest e = State.hostWrite { s with bus := rest } a v) ∨
    e = .hardReset ∧
      s.hostEvent rest e = { State.reset with bus := rest, rdata := s.rdata, draws := s.draws } := by
  cases e with
  | read a =>
    obtain ⟨r, d, h⟩ := State.hostRead_eq { s with bus := rest } a
    exact .inl ⟨rest, r, d, .inr ⟨rfl, by simp, by simp⟩, h⟩
  | write a v => exact .inr (.inl ⟨a, v, rfl, rfl⟩)
  | wait =>
    by_cases hb : s.busy = true
    · obtain ⟨r, d, h⟩ := State.hostRead_eq s statusAddr
      refine .inl ⟨s.bus, r, d, .inl rfl, ?_⟩
      rw [State.hostEvent, if_pos hb]; exact h
    · obtain ⟨r, d, h⟩ := State.hostRead_eq { s with bus := rest } statusAddr
      refine .inl ⟨rest, r, d, .inr ⟨rfl, by simp, by simp⟩, ?_⟩
      rw [State.hostEvent, if_neg hb]; exact h
  | idle => exact .inl ⟨rest, s.rdata, s.draws, .inr ⟨rfl, by simp, by simp⟩, rfl⟩
  | hardReset => exact .inr (.inr ⟨rfl, rfl⟩)

/-- Everything one clock cycle of the host can do: nothing or a read, a write, a reset. -/
theorem State.passCycle_cases (s : State) :
    (∃ b r d, (b = s.bus ∨ ∃ e, e ≠ .hardReset ∧ (∀ a v, e ≠ .write a v) ∧ s.bus = e :: b) ∧ s.passCycle =
      { s with latencyLeft := s.latencyLeft - 1, bus := b, rdata := r, draws := d }) ∨
    (∃ a v rest, s.bus = .write a v :: rest ∧ s.passCycle =
      State.hostWrite { s with latencyLeft := s.latencyLeft - 1, bus := rest } a v) ∨
    ∃ rest, s.bus = .hardReset :: rest ∧
      s.passCycle = { State.reset with bus := rest, rdata := s.rdata, draws := s.draws } := by
  unfold State.passCycle State.hostCycle
  dsimp only
  split
  · rename_i hb
    exact .inl ⟨s.bus, s.rdata, s.draws, .inl rfl, rfl⟩
  · rename_i e rest hb
    rcases State.hostEvent_cases { s with latencyLeft := s.latencyLeft - 1 } rest e with
      ⟨b, r, d, h1, h2⟩ | ⟨a, v, rfl, h⟩ | ⟨rfl, h⟩
    · refine .inl ⟨b, r, d, h1.imp_right ?_, h2⟩
      rintro ⟨rfl, h3, h4⟩
      exact ⟨e, h3, h4, hb⟩
    · exact .inr (.inl ⟨a, v, rest, hb, h⟩)
    · exact .inr (.inr ⟨rest, hb, h⟩)

theorem State.due_eq_some {s : State} {w : Word} :
    s.due = some w ↔ s.busy = true ∧ s.latencyLeft = 0 ∧ w = s.lastcmd := by
  unfold State.due
  by_cases h : s.busy && decide (s.latencyLeft = 0)
  · rw [if_pos h]; simp only [Bool.and_eq_true, decide_eq_true_eq] at h; simp [h, eq_comm]
  · rw [if_neg h]; simp only [Bool.and_eq_true, decide_eq_true_eq] at h
    simp only [reduceCtorEq, false_iff]; exact fun hh => h ⟨hh.1, hh.2.1⟩

theorem State.due_eq_none {s : State} : s.due = none ↔ s.busy = false ∨ s.latencyLeft ≠ 0 := by
  unfold State.due
  cases s.busy <;> by_cases h : s.latencyLeft = 0 <;> simp [h]

/-- Everything one step can do: a completion of the running command, the completion of an illegal word, or a
clock cycle in which nothing completes. -/
theorem step_cases {s t : State} (h : step s = .next t) :
    (∃ i, s.busy = true ∧ s.latencyLeft = 0 ∧ decode s.lastcmd = .ok i ∧ exec i s = .next t) ∨
    (∃ e, s.busy = true ∧ s.latencyLeft = 0 ∧ decode s.lastcmd = .error e ∧ t = s.illegal) ∨
    ((s.busy = false ∨ s.latencyLeft ≠ 0) ∧ t = s.passCycle) := by
  unfold step at h
  rcases hd : s.due with _ | w
  · simp only [hd, Host.Outcome.next.injEq] at h
    exact .inr (.inr ⟨State.due_eq_none.1 hd, h.symm⟩)
  · obtain ⟨hb, hl, rfl⟩ := State.due_eq_some.1 hd
    simp only [hd] at h
    rcases hw : decode s.lastcmd with e | i
    · simp only [hw, Host.Outcome.next.injEq] at h
      exact .inr (.inl ⟨e, hb, hl, rfl, h.symm⟩)
    · simp only [hw] at h
      exact .inl ⟨i, hb, hl, rfl, h⟩

end Sys2Proof.Machine
end

