-- ==== Sys2Proof/Machine/HostProgram.lean ====
section
/-! DEFINITION. The host-program syntax of 30_encoding.md R71, R72 as lists of host events: what each
form expands to. The host's own branches are its own control flow (R70) and are not here. -/

namespace Sys2Proof.Machine

/-- `wr OFF, V`. -/
def hostWr (off : Nat) (v : Word) : List HostEvent := [.write (wordAddr off) v]

/-- `rd OFF`. -/
def hostRd (off : Nat) : List HostEvent := [.read (wordAddr off)]

/-- `cmd M [A]`: one write of the command word to `CMD`. -/
def hostCmd (i : Instr) : List HostEvent := hostWr 0x0008 (encode i)

/-- `wait`. -/
def hostWait : List HostEvent := [.wait]

/-- `wr256 OFF, V`: eight writes in increasing `j`. -/
def hostWr256 (off : Nat) (v : Big) : List HostEvent :=
  (List.range 8).flatMap fun j => hostWr (off + 4 * j) (bigWord v j)

/-- `rd256 OFF`: eight reads in increasing `j`. -/
def hostRd256 (off : Nat) : List HostEvent := (List.range 8).flatMap fun j => hostRd (off + 4 * j)

/-- `wrsyms OFF, c0 c1 ...`: one write a symbol. -/
def hostWrSyms (off : Nat) (cs : List Word) : List HostEvent :=
  cs.zipIdx.flatMap fun c => hostWr (off + 4 * c.2) c.1

/-- `wrbytes OFF, b0 b1 ...`: one write per four bytes, the last word padded with 0 bytes. -/
def hostWrBytes (off : Nat) : List Byte → List HostEvent
  | [] => []
  | [b0] => hostWr off (wordOfBytes b0 0 0 0)
  | [b0, b1] => hostWr off (wordOfBytes b0 b1 0 0)
  | [b0, b1, b2] => hostWr off (wordOfBytes b0 b1 b2 0)
  | b0 :: b1 :: b2 :: b3 :: bs => hostWr off (wordOfBytes b0 b1 b2 b3) ++ hostWrBytes (off + 4) bs

end Sys2Proof.Machine
end

