-- ==== Sys2Proof/Tests/Slice0.lean ====
section
/-! SUPPORT. The model's own tests: refused words, decoded words, one step of each command with the values
the spec's rules give, and a witness for the hypotheses of each statement. -/

namespace Sys2Proof.Tests

set_option Elab.async false

open Sys2Proof Sys2Proof.Machine

/-- A check of the state an outcome goes on with; false where it stops. -/
def nextThat (o : Host.Outcome State Fault Refusal) (p : State → Bool) : Bool :=
  match o with
  | .next t => p t
  | .fault _ | .refused _ => false

theorem exists_of_nextThat {o : Host.Outcome State Fault Refusal} {p : State → Bool}
    (h : nextThat o p = true) : ∃ t, o = .next t ∧ p t = true := by
  cases o with
  | next t => exact ⟨t, rfl, h⟩
  | fault f => cases h
  | refused r => cases h

/-- The ASCII codes of a text, as symbols. -/
def codes (s : String) : List Word := s.toList.map fun c => BitVec.ofNat 32 c.toNat

/-- The alphabet `TA` of 95_test_vectors.md. -/
def alphaTA : List Word :=
  [0x30, 0x31, 0x32, 0x33, 0x34, 0x35, 0x36, 0x37, 0x38, 0x39, 0x41, 0x42, 0x43, 0x44,
   0x45, 0x46, 0x47, 0x48, 0x49, 0x4A, 0x4B, 0x4C, 0x4D, 0x4E, 0x4F, 0x50, 0x51, 0x52,
   0x53, 0x54, 0x55, 0x56, 0x57, 0x58, 0x59, 0x5A, 0x2E, 0x2D, 0x3A, 0x2B]

/-- The state after reset with the alphabet `TA` loaded and validated. -/
def alphaState : State :=
  { State.reset with
    mem := Memory.writeWords [] alphaBase alphaTA
    alphaLen := 40
    alphaValid := true }

/-- The state after reset with a message. -/
def msgState (m : List Byte) : State :=
  { State.reset with mem := Memory.write [] msgBase m, msgLen := BitVec.ofNat 9 m.length }

/-- The same state with a digest of 20 bytes. -/
def digState (s : State) (v : Nat) : State :=
  { s with mem := s.mem.write digBase (bytesBe v 20), digLen := 20 }

/-- A state with a symbol string. -/
def strState (s : State) (t : String) : State :=
  { s with mem := s.mem.writeWords strBase (codes t), strLen := BitVec.ofNat 9 (codes t).length }

/-- An affine point register. -/
def reg (x y : Nat) : PointReg := { inf := false, x := BitVec.ofNat 256 x, y := BitVec.ofNat 256 y }

/-- The generator as a register. -/
def regG : PointReg := curveG.toReg

/-- Does the outcome write this text into `STR`? -/
def writesText (o : Host.Outcome State Fault Refusal) (t : String) : Bool :=
  nextThat o fun s => decide (s.mem.readWords strBase s.strLen.toNat = .ok (codes t)) && !s.errFlag

/-- Does the outcome write this digest, read big-endian, into `DIG`? -/
def writesDigest (o : Host.Outcome State Fault Refusal) (n v : Nat) : Bool :=
  nextThat o fun s => decide (s.digLen.toNat = n) && decide (s.digString n = .ok (bytesBe v n)) && !s.errFlag

/-- Does the outcome fail with this error? -/
def failsWith (o : Host.Outcome State Fault Refusal) (e : ErrCode) (info : Word) : Bool :=
  nextThat o fun s => decide (s.errcode = e) && decide (s.errinfo = info) && s.errFlag

/-! ### Well-formedness and decoding -/

theorem test_wf_opcode_refused : opcodeAssigned 0x00000004 = false ∧ wordLegal 0x00000004 = false ∧
    decode 0x00000004 = .error .reservedOpcode := by decide

theorem test_wf_rsv_refused : rsvZero 0x00010000 = false ∧ wordLegal 0x00010000 = false ∧
    decode 0x00010000 = .error .rsvNonzero := by decide

theorem test_wf_arg_refused : argAllowed 0x00000100 = false ∧ wordLegal 0x00000100 = false ∧
    decode 0x00000100 = .error .argNonzero := by decide

theorem test_decode_order : decode 0xFFFFFFFF = .error .reservedOpcode ∧
    decode 0x80000130 = .error .rsvNonzero := by decide

theorem test_decode_nop : decode 0x00000000 = .ok .nop := by decide

theorem test_decode_fred : decode 0x00000001 = .ok .fred := by decide

theorem test_decode_modinv : decode 0x00000002 = .ok .modinv := by decide

theorem test_decode_modexp : decode 0x00000003 = .ok .modexp := by decide

theorem test_decode_oncurve : decode 0x00000010 = .ok .oncurve := by decide

theorem test_decode_padd : decode 0x00000011 = .ok .padd := by decide

theorem test_decode_pdbl : decode 0x00000012 = .ok .pdbl := by decide

theorem test_decode_pser : decode 0x00000013 = .ok .pser := by decide

theorem test_decode_smul : decode 0x00000020 = .ok .smul := by decide

theorem test_decode_derive : decode 0x00000021 = .ok .derive := by decide

theorem test_decode_keychk : decode 0x00000022 = .ok .keychk := by decide

theorem test_decode_sha256 : decode 0x00000030 = .ok .sha256 := by decide

theorem test_decode_rmd160 : decode 0x00000031 = .ok .rmd160 := by decide

theorem test_decode_hash160 : decode 0x00000032 = .ok .hash160 := by decide

theorem test_decode_chksum : decode 0x00000033 = .ok .chksum := by decide

theorem test_decode_b58enc : decode 0x00000040 = .ok .b58enc := by decide

theorem test_decode_alphav : decode 0x00000050 = .ok .alphav := by decide

theorem test_decode_b40enc : decode 0x00000051 = .ok .b40enc := by decide

theorem test_decode_b40dec : decode 0x00000052 = .ok .b40dec := by decide

theorem test_decode_b58chk : decode 0x00006F41 = .ok (.b58chk 0x6F) := by decide

theorem test_decode_b40h : decode 0x00001F53 = .ok (.b40h 31) := by decide

theorem test_decode_table_word : decodeTableWord 16 0x6F41 = some (.b58chk 0x6F) ∧
    decodeTableWord 32 0x00010000 = none := by decide

/-! ### Field unit -/

/-- 95_test_vectors.md: `TA`. -/
theorem test_alphaTA : alphaTA = codes "0123456789ABCDEFGHIJKLMNOPQRSTUVWXYZ.-:+" := by decide +kernel

/-- R83, example. -/
theorem test_nop : nextThat (step (State.reset.withFetchWord 32 0)) (fun t => decide (t.statusWord = 2)) = true := by
  decide +kernel

/-- R84, example and corner case. -/
theorem test_fred_all_ones : nextThat (exec .fred { State.reset with opa := BitVec.allOnes 256 })
    (fun t => decide (t.res = 0x1000003D0)) = true := by decide +kernel

theorem test_fred_p : nextThat (exec .fred { State.reset with opa := BitVec.ofNat 256 curveP })
    (fun t => decide (t.res = 0)) = true := by decide +kernel

/-- R85, example and error. -/
theorem test_modinv_two : nextThat (exec .modinv { State.reset with opa := 2 })
    (fun t => decide (t.res = 0x7FFFFFFFFFFFFFFFFFFFFFFFFFFFFFFFFFFFFFFFFFFFFFFFFFFFFFFF7FFFFE18)) = true := by
  decide +kernel

theorem test_modinv_p : failsWith (exec .modinv { State.reset with opa := BitVec.ofNat 256 curveP })
    .divisionByZero 0 = true := by decide +kernel

/-- R86, example; R77, `0^0 mod 1 = 0`. -/
theorem test_modexp : nextThat (exec .modexp { State.reset with opa := 2, opb := 10, opm := 1000 })
    (fun t => decide (t.res = 24)) = true := by decide +kernel

theorem test_modexp_one : nextThat (exec .modexp { State.reset with res := 5, opm := 1 })
    (fun t => decide (t.res = 0)) = true := by decide +kernel

/-! ### Point unit -/

/-- R93, example and corner case. -/
theorem test_oncurve_g : nextThat (exec .oncurve { State.reset with p1 := regG })
    (fun t => decide (t.statusWord = 0xA)) = true := by decide +kernel

theorem test_oncurve_reset : nextThat (exec .oncurve State.reset) (fun t => !t.resultFlag) = true := by
  decide +kernel

/-- R94, corner cases. -/
theorem test_padd_off_curve : nextThat (exec .padd { State.reset with p1 := reg 1 2, p2 := reg 3 4 })
    (fun t => decide (t.pr = reg (curveP - 3) 2)) = true := by decide +kernel

theorem test_padd_congruent : failsWith
    (exec .padd { State.reset with p1 := reg 1 2, p2 := reg (curveP + 1) 2 }) .divisionByZero 0 = true := by
  decide +kernel

/-- R95, example and error. -/
theorem test_pdbl_g : nextThat (exec .pdbl { State.reset with p1 := regG }) (fun t => decide (t.pr = reg
    0xC6047F9441ED7D6D3045406E95C07CD85C778E4B8CEF3CA7ABAC09B95C709EE5
    0x1AE168FEA63DC339A3C58419466CEAEEF7F632653266D0E1236431A950CFE52A)) = true := by decide +kernel

theorem test_pdbl_p : failsWith (exec .pdbl { State.reset with p1 := reg 5 curveP }) .divisionByZero 0 = true := by
  decide +kernel

/-- R96, example and error. -/
theorem test_pser_g : nextThat (exec .pser { State.reset with pr := regG })
    (fun t => decide (t.msgLen = 65) && decide (t.mem.readWord 0x400 = some 0x0479BE66) &&
      decide (t.mem.readWord 0x47C = some 0)) = true := by decide +kernel

theorem test_pser_inf : failsWith (exec .pser { State.reset with pr := Point.inf.toReg })
    .malformedPublicKey 0 = true := by decide +kernel

/-! ### Scalar multiplier -/

/-- R99, `k = 2`: the point and its two affine records. -/
theorem test_smul_two : nextThat (exec .smul { alphaState with k := 2, p1 := reg 1 2 })
    (fun t => decide (t.pr = reg 0x8FFFFFFFFFFFFFFFFFFFFFFFFFFFFFFFFFFFFFFFFFFFFFFFFFFFFFFF6FFFFDD9
        0x93FFFFFFFFFFFFFFFFFFFFFFFFFFFFFFFFFFFFFFFFFFFFFFFFFFFFFF6BFFFDCB) &&
      decide ((t.trace[253]?.map fun r => (r.step, r.inf, r.symv)) = some (254, true, false)) &&
      decide ((t.trace[254]?.map fun r => (r.step, r.bit, r.sidx, r.delta)) = some (255, true, 1, 0))) = true := by
  decide +kernel

theorem test_smul_n : failsWith (exec .smul { alphaState with k := BitVec.ofNat 256 curveN })
    .invalidScalar 0 = true := by decide +kernel

/-- R108: `k = 1` gives `G`. -/
theorem test_derive_one : nextThat (exec .derive { alphaState with k := 1 })
    (fun t => decide (t.pr = regG) && t.traceValid && decide (t.traceLen = 256)) = true := by decide +kernel

theorem test_derive_no_alphabet : failsWith (exec .derive State.reset) .invalidAlphabet 0 = true := by
  decide +kernel

/-- R107, example. -/
theorem test_keychk_n : nextThat (exec .keychk { State.reset with opa := BitVec.ofNat 256 curveN, k := 7 })
    (fun t => decide (t.k = 7) && !t.resultFlag && !t.errFlag) = true := by decide +kernel

theorem test_keychk_one : nextThat (exec .keychk { State.reset with opa := 1 })
    (fun t => decide (t.k = 1) && t.resultFlag) = true := by decide +kernel

/-! ### Hash unit -/

/-- R117, example. -/
theorem test_sha256_abc : writesDigest (exec .sha256 (msgState [0x61, 0x62, 0x63])) 32
    0xba7816bf8f01cfea414140de5dae2223b00361a396177a9cb410ff61f20015ad = true := by decide +kernel

/-- R118, example. -/
theorem test_rmd160_empty : writesDigest (exec .rmd160 State.reset) 20
    0x9c1185a5c5e9fc54612808977ee8f548b2258d31 = true := by decide +kernel

/-- R119, example and error. -/
theorem test_hash160_g : nextThat (exec .pser { State.reset with pr := regG })
    (fun t => writesDigest (exec .hash160 t) 20 0x91b24bf9f5288532960ac687abb035127b1d28a5) = true := by
  decide +kernel

theorem test_hash160_prefix : failsWith (exec .hash160 { msgState [0x02] with msgLen := 65 })
    .malformedPublicKey 0x10002 = true := by decide +kernel

/-- R120, corner case. -/
theorem test_chksum_empty : writesDigest (exec .chksum State.reset) 4 0x5df6e0e2 = true := by decide +kernel

theorem test_chksum_too_long : failsWith (exec .chksum { State.reset with msgLen := 129 })
    .lengthError 129 = true := by decide +kernel

/-! ### Base58 unit -/

/-- R126, example and corner case. -/
theorem test_b58enc : writesText (exec .b58enc (msgState [0, 0, 1, 2, 3])) "11Ldp" = true := by decide +kernel

theorem test_b58enc_empty : writesText (exec .b58enc State.reset) "1" = true := by decide +kernel

/-- R127, example and error. -/
theorem test_b58chk : writesText
    (exec (.b58chk 0) (digState State.reset 0x91b24bf9f5288532960ac687abb035127b1d28a5))
    "1EHNa6Q4Jz2uvNExL497mE43ikXhwF6kZm" = true := by decide +kernel

theorem test_b58chk_length : failsWith (exec (.b58chk 0) { State.reset with digLen := 32 })
    .malformedHashInput 32 = true := by decide +kernel

/-! ### Base40 unit -/

/-- R135, example. -/
theorem test_alphav : nextThat (exec .alphav { alphaState with alphaValid := false })
    (fun t => t.alphaValid && !t.errFlag) = true := by decide +kernel

theorem test_alphav_duplicate : failsWith
    (exec .alphav { alphaState with mem := alphaState.mem.writeWord (alphaBase + 156) 0x30 })
    .invalidAlphabet 0x10027 = true := by decide +kernel

/-- R136, example and corner case. -/
theorem test_b40enc : writesText (exec .b40enc { alphaState with opa := 12345 }) "7SP" = true := by
  decide +kernel

theorem test_b40enc_max : writesText (exec .b40enc { alphaState with opa := BitVec.allOnes 256 })
    "1IIG47QKBW8NDTDRE9BC.AGG5REDY08VH9.+2K:UC-1.QAO:F" = true := by decide +kernel

/-- R137, example and corner case. -/
theorem test_b40dec : nextThat (exec .b40dec (strState alphaState "AB")) (fun t => decide (t.res = 411)) = true := by
  decide +kernel

theorem test_b40dec_absent : failsWith (exec .b40dec (strState alphaState "?A?")) .symbolNotFound 2 = true := by
  decide +kernel

/-- R138, example and corner case. -/
theorem test_b40h : writesText
    (exec (.b40h 31) (digState alphaState 0x91b24bf9f5288532960ac687abb035127b1d28a5))
    "0SYD27+0KXL:LHDU5DY:V:HH8UEW1FD" = true := by decide +kernel

theorem test_b40h_not_cut : writesText (exec (.b40h 20) (digState alphaState (2 ^ 160 - 1)))
    "1AS9PLILFS:T6IHIH7MLCAF2FRIP+EF" = true := by decide +kernel

/-! ### Host accesses -/

/-- 20_memory.md R47: the word addresses of the map. -/
theorem test_locate : locate 0#14 = .id ∧ locate 0x2F#14 = .big .opm 7 ∧ locate 0x70#14 = .ptag ∧
    locate 0x36#14 = .big .res 6 ∧ locate 0x3014#14 = .reserved ∧ locate 0x1014#14 = .trace 1 0 := by decide

/-- 10_state.md R35: a write while busy sets `OVR` and is dropped. -/
theorem test_busy_write : ((State.reset.issue 0).hostWrite 0x18#14 5).ovr = true ∧
    ((State.reset.issue 0).hostWrite 0x18#14 5).opa = 0 := by decide +kernel

/-- 30_encoding.md R71: the word `B40H 31` spells goes to `CMD`. -/
theorem test_host_cmd : hostCmd (.b40h 31) = [.write cmdAddr 0x1F53] := by decide

/-- 70_reset_and_hazards.md R161: an engine read of an unwritten entry is the model's fault. -/
theorem test_unwritten : exec .b58enc { State.reset with msgLen := 5 } = .fault (.unwrittenEntry 0x400) := by
  rfl

/-! ### Witnesses: a state and operands that meet the hypotheses of each statement -/

/-- A state in which the command word `w` runs and `n` cycles still pass. -/
def running (s : State) (w : Word) (n : Nat) : State := { s.issue w with latencyLeft := n }

theorem witness_EncodeOfDecodedWordIsTheWord : decode 0x0000FF53 = .ok (.b40h 255) := by decide

theorem witness_DecodeAcceptsExactlyTheLegalWords : rsvField 0x80000000 ≠ 0 ∧
    (∃ i, decode 0x0000FF41 = .ok i) ∧ wordLegal 0x0000FF41 = true := ⟨by decide, ⟨_, rfl⟩, by decide⟩

theorem witness_StepRunsTheDecodedCommand : (running State.reset 0 0).busy = true ∧
    (running State.reset 0 0).latencyLeft = 0 ∧ decode (running State.reset 0 0).lastcmd = .ok .nop :=
  ⟨rfl, rfl, rfl⟩

theorem witness_IdleCommandWriteIssues : State.reset.busy = false := rfl

theorem witness_IllegalWordCompletesWithIllegalCommand : wordLegal 0x00002021 = false ∧
    State.reset.busy = false := by decide

theorem witness_IdleAndRunning_issue : ∃ t, step { State.reset with bus := [.write cmdAddr 0] } = .next t ∧
    t.busy = true := ⟨_, rfl, rfl⟩

theorem witness_IdleAndRunning_completion : ∃ t, step (running State.reset 0 0) = .next t ∧
    (running State.reset 0 0).busy = true ∧ t.busy = false := ⟨_, rfl, rfl, rfl⟩

theorem witness_IdleAndRunning_hardReset : ∃ t,
    step { running State.reset 0 1 with bus := [.hardReset] } = .next t ∧ t.busy = false := ⟨_, rfl, rfl⟩

theorem witness_IdleAndRunning_softReset : ∃ t,
    step { running State.reset 0 1 with bus := [.write 1 1] } = .next t ∧ t.busy = false := ⟨_, rfl, rfl⟩

theorem witness_RunningCommandReachesItsCompletion :
    (running State.reset 0 2).busy = true ∧ noReset [HostEvent.write 1 2, .wait] := by
  refine ⟨rfl, fun e he => ?_⟩
  simp only [List.mem_cons, List.not_mem_nil, or_false] at he
  rcases he with rfl | rfl
  · exact by decide
  · exact trivial

theorem witness_OperandsHoldWhileACommandRuns : (running State.reset 0 2).busy = true ∧
    (running State.reset 0 2).latencyLeft ≠ 0 ∧ noReset (running State.reset 0 2).bus ∧
    ∃ t, step (running State.reset 0 2) = .next t :=
  ⟨rfl, by decide, fun e he => absurd he (List.not_mem_nil (a := e)), _, rfl⟩

theorem witness_EveryCompletionReportsItsStatus : (∃ t, exec .nop State.reset = .next t) ∧
    (∃ t, step (running State.reset 0 0) = .next t) ∧
    (running State.reset 4 0).busy = true ∧ (running State.reset 4 0).latencyLeft = 0 ∧
    ∃ t, step (running State.reset 4 0) = .next t := ⟨⟨_, rfl⟩, ⟨_, rfl⟩, rfl, rfl, _, rfl⟩

theorem witness_FailingCompletionWritesOnlyStatus : (∃ t, exec .derive State.reset = .next t ∧
    t.errFlag = true) ∧ (∃ t, exec .alphav alphaState.resetEngine = .next t ∧ t.errFlag = true) ∧
    (running State.reset 4 0).busy = true ∧ (running State.reset 4 0).latencyLeft = 0 ∧
    wordLegal (running State.reset 4 0).lastcmd = false :=
  ⟨⟨_, rfl, rfl⟩, ⟨_, rfl, rfl⟩, rfl, rfl, by decide⟩

theorem witness_ErrorsAreThoseOfTheTable :
    ∃ t, exec .pser { State.reset with pr := Point.inf.toReg } = .next t := ⟨_, rfl⟩

theorem witness_CommandsWriteOnlyTheirWriteSets : ∃ t, exec .keychk { State.reset with opa := 1 } = .next t ∧
    t.k = 1 := by
  obtain ⟨t, h, hk⟩ := exists_of_nextThat test_keychk_one
  exact ⟨t, h, by simp only [Bool.and_eq_true, decide_eq_true_eq] at hk; exact hk.1⟩

theorem witness_StopsNameUnwrittenEntries :
    exec .b58enc { State.reset with msgLen := 5 } = .fault (.unwrittenEntry 0x400) ∧
    exec .alphav { State.reset with alphaLen := 40 } = .fault (.unwrittenEntry 0x800) := ⟨rfl, rfl⟩

theorem witness_NopChangesOnlyStatus : State.reset.busy = false ∧ State.reset.traceValid = false ∧
    State.reset.alphaValid = false := ⟨rfl, rfl, rfl⟩

theorem witness_InverseIsTheFermatPower : (-(curveP : Int)) % (curveP : Int) = 0 ∧
    (-1 : Int) % (curveP : Int) ≠ 0 := by decide +kernel

theorem witness_ModinvWritesTheInverse : ((1 : Big).toNat ≠ 0 ∧ (1 : Big).toNat ≠ curveP) ∧
    (0 : Big).toNat = 0 ∧ (BitVec.ofNat 256 curveP).toNat = curveP := by decide +kernel

theorem witness_ModexpWritesThePower : (1 : Big).toNat ≠ 0 ∧ (0 : Big).toNat = 0 := by decide

theorem witness_PdblWritesTheTangentResult : Point.inf.toReg.inf = true ∧ (reg 5 0).y.toNat = 0 ∧
    ((reg 5 curveP).inf = false ∧ (reg 5 curveP).y.toNat = curveP) ∧
    ((reg 1 2).inf = false ∧ (reg 1 2).y.toNat ≠ 0 ∧ (reg 1 2).y.toNat ≠ curveP) := by decide +kernel

theorem witness_PaddWritesTheChordResult :
    Point.inf.toReg.inf = true ∧
    ((reg 1 2).inf = false ∧ (reg 1 3).inf = false ∧ (reg 1 2).x.toNat = (reg 1 3).x.toNat ∧
      (reg 1 2).y.toNat ≠ (reg 1 3).y.toNat) ∧
    ((reg 1 2).x.toNat ≠ (reg (curveP + 1) 2).x.toNat ∧
      (((reg (curveP + 1) 2).x.toNat : Int) - (reg 1 2).x.toNat) % (curveP : Int) = 0) ∧
    (((reg 3 4).x.toNat : Int) - (reg 1 2).x.toNat) % (curveP : Int) ≠ 0 := by decide +kernel

/-- A register of the generator holds a point of the curve. -/
theorem regG_onCurve : regG.pt.OnCurve := by
  show (_ : Int) % (curveP : Int) = 0
  decide +kernel

theorem witness_PointResultsStayOnTheCurve :
    ({ State.reset with p1 := regG, p2 := regG } : State).p1.pt.OnCurve ∧ regG.pt.OnCurve ∧
    (∃ t, exec .pdbl { State.reset with p1 := regG, p2 := regG } = .next t ∧ t.errFlag = false) ∧
    ∃ t, exec .padd { State.reset with p1 := regG, p2 := regG } = .next t ∧ t.errFlag = false := by
  refine ⟨regG_onCurve, regG_onCurve, ?_, ?_⟩
  · obtain ⟨t, h, ht⟩ := exists_of_nextThat
      (o := exec .pdbl { State.reset with p1 := regG, p2 := regG }) (p := fun t => !t.errFlag) (by decide +kernel)
    exact ⟨t, h, by simpa using ht⟩
  · obtain ⟨t, h, ht⟩ := exists_of_nextThat
      (o := exec .padd { State.reset with p1 := regG, p2 := regG }) (p := fun t => !t.errFlag) (by decide +kernel)
    exact ⟨t, h, by simpa using ht⟩

theorem witness_PserWritesTheUncompressedKey : State.reset.pr.inf = false ∧ Point.inf.toReg.inf = true :=
  ⟨rfl, rfl⟩

theorem alphaState_alphabet : alphaState.alphabet = .ok alphaTA := by decide +kernel

theorem witness_AlphabetIsCheckedBeforeTheScalar : State.reset.alphaValid = false ∧
    alphaState.alphaValid = true ∧ alphaState.k.toNat = 0 ∧ curveN ≤ (BitVec.ofNat 256 curveN).toNat :=
  ⟨rfl, rfl, rfl, by decide +kernel⟩

/-- The loop of a state with scalar 1 and any base is the base after one step. -/
theorem smul_one (B : Point) (A : List Word) : ∃ tr, smul 1 B A = .ok (B, tr) := by
  obtain ⟨pre, -, h⟩ := smulFrom_leading_zeros 1 B A 1 255 (by decide +kernel)
  have h1 : smulFrom 1 B A 1 .inf none = .ok (B, [(traceRecord A 256 true none B).1]) :=
    smulFrom_succ_eq_ok.2 ⟨B, [], scalarStep_eq_ok.2 ⟨.inf, rfl, padd_inf_left (BitVec.ofNat 32 256) B⟩, rfl, rfl⟩
  exact ⟨_, by rw [smul]; rw [show Config.scalarBits = 1 + 255 from rfl, h, h1]; rfl⟩

theorem witness_MultiplicationWritesResultAndTrace :
    alphaState.alphaValid = true ∧ 1 ≤ (1 : Big).toNat ∧ (1 : Big).toNat < curveN ∧
    alphaState.alphabet = .ok alphaTA ∧ (∃ tr, smul 1 alphaState.p1.pt alphaTA = .ok (alphaState.p1.pt, tr)) ∧
    (∃ tr, smul 1 curveG alphaTA = .ok (curveG, tr)) ∧ curveG ≠ .inf :=
  ⟨rfl, by decide, by decide +kernel, alphaState_alphabet, smul_one _ _, smul_one _ _, by decide⟩

theorem witness_MultiplicationWritesResultAndTrace_failure :
    smul 3 (.aff 5 (BitVec.ofNat 256 curveP)) alphaTA = .error (.raise .divisionByZero 256) := by decide +kernel

theorem alphaState_held : alphaState.AlphabetHeld := fun _ =>
  ⟨rfl, alphaTA, alphaState_alphabet, by decide +kernel⟩

theorem witness_SmulOfReducedBaseCompletes : alphaState.AlphabetHeld ∧ alphaState.alphaValid = true ∧
    1 ≤ (BitVec.ofNat 256 (curveN - 1)).toNat ∧ (BitVec.ofNat 256 (curveN - 1)).toNat < curveN ∧
    Point.inf.toReg.inf = true ∧ (reg (curveP - 1) 0).x.toNat < curveP ∧ (reg (curveP - 1) 0).y.toNat < curveP :=
  ⟨alphaState_held, rfl, by decide +kernel⟩

theorem witness_DeriveCompletesForEveryValidKey : alphaState.AlphabetHeld ∧ alphaState.alphaValid = true ∧
    1 ≤ (BitVec.ofNat 256 (curveN - 1)).toNat ∧ (BitVec.ofNat 256 (curveN - 1)).toNat < curveN :=
  ⟨alphaState_held, rfl, by decide +kernel⟩

theorem witness_DeriveOfOneAndTwo : alphaState.AlphabetHeld ∧ alphaState.alphaValid = true ∧
    ({ alphaState with k := 1 } : State).k = 1 ∧ ({ alphaState with k := 2 } : State).k = 2 :=
  ⟨alphaState_held, rfl, rfl, rfl⟩

theorem smul_of_multiply {s : State} {R : Point} {tr : List TraceRecord} (h : s.multiply s.p1.pt = .ok (R, tr)) :
    exec .smul s = .next (((s.putPR R).putTrace tr).succeed false) := State.conclude_of_ok (by rw [h]; rfl)

theorem derive_of_multiply {s : State} {R : Point} {tr : List TraceRecord} (h : s.multiply curveG = .ok (R, tr))
    (hR : R ≠ .inf) : exec .derive s = .next (((s.putPR R).putTrace tr).succeed false) :=
  State.conclude_of_ok (by rw [h]; simp [hR])

/-- With a validated alphabet and the scalar 1 the multiplication of any base completes. -/
theorem multiply_one (B : Point) : ∃ tr, State.multiply { alphaState with k := 1 } B = .ok (B, tr) := by
  obtain ⟨tr, h⟩ := smul_one B alphaTA
  exact ⟨tr, State.multiply_eq_ok.2 ⟨rfl, by decide +kernel, alphaTA, alphaState_alphabet, h⟩⟩

theorem smul_completes : ∃ t, exec .smul { alphaState with k := 1 } = .next t ∧ t.errFlag = false := by
  obtain ⟨tr, h⟩ := multiply_one alphaState.p1.pt
  exact ⟨_, smul_of_multiply h, rfl⟩

theorem witness_TracesHaveTheirShape :
    (∃ t, exec .smul { alphaState with k := 1 } = .next t ∧ t.errFlag = false) ∧
    ∃ t, exec .derive { alphaState with k := 1 } = .next t ∧ t.errFlag = false := by
  obtain ⟨tr, h⟩ := multiply_one curveG
  exact ⟨smul_completes, _, derive_of_multiply h (by decide), rfl⟩

theorem witness_RecordsFollowTheAccumulator : ({ alphaState with k := 1 } : State).AlphabetHeld ∧
    ({ alphaState with k := 1 } : State).alphabet = .ok alphaTA ∧
    (∃ t, exec .smul { alphaState with k := 1 } = .next t ∧ t.errFlag = false) ∧
    ∃ t, exec .derive { alphaState with k := 1 } = .next t ∧ t.errFlag = false :=
  ⟨alphaState_held, alphaState_alphabet, witness_TracesHaveTheirShape⟩

theorem witness_FailedMultiplicationLeavesNoTrace :
    (∃ t, exec .smul (State.reset.issuedDue (encode .smul)) = .next t ∧ t.errFlag = true) ∧
    (∃ t, exec .derive (State.reset.issuedDue (encode .derive)) = .next t ∧ t.errFlag = true) ∧
    alphaState.AlphabetHeld ∧ alphaState.alphaValid = true ∧ (reg 5 curveP).inf = false ∧
    (reg 5 curveP).y.toNat = curveP :=
  ⟨⟨_, rfl, rfl⟩, ⟨_, rfl, rfl⟩, alphaState_held, rfl, rfl, by decide +kernel⟩

theorem witness_KeychkAcceptsExactlyTheRange :
    (1 ≤ (BitVec.ofNat 256 (curveN - 1)).toNat ∧ (BitVec.ofNat 256 (curveN - 1)).toNat < curveN) ∧
    (0 : Big).toNat = 0 ∧ curveN ≤ (BitVec.ofNat 256 curveN).toNat := by decide +kernel

theorem witness_HashCommandsWriteTheirDigests :
    (State.reset.msgLen.toNat ≤ 128 ∧ State.reset.msgString State.reset.msgLen.toNat = .ok []) ∧
    ((msgState (List.replicate 128 0)).msgLen.toNat ≤ 128 ∧
      (msgState (List.replicate 128 0)).msgString 128 = .ok (List.replicate 128 0)) ∧
    128 < (129#9).toNat := by decide +kernel

theorem witness_HashOfPublicKeyChecksItsForm : State.reset.msgLen.toNat ≠ 65 ∧
    ((msgState (List.replicate 65 2)).msgLen.toNat = 65 ∧
      (msgState (List.replicate 65 2)).mem.read msgBase = some 2 ∧ (2 : Byte) ≠ 0x04) ∧
    ((msgState (List.replicate 65 4)).msgLen.toNat = 65 ∧
      (msgState (List.replicate 65 4)).msgString 65 = .ok (List.replicate 65 4) ∧
      (List.replicate 65 (4 : Byte))[0]? = some 0x04) := by decide +kernel

theorem witness_DigestDependsOnlyOnTheMessage :
    (∀ j, j < State.reset.msgLen.toNat →
      State.reset.mem.read (msgBase + j) = (msgState [1]).mem.read (msgBase + j)) ∧
    (∀ j, j < 32 → State.reset.mem.read (digBase + j) = (msgState [1]).mem.read (digBase + j)) ∧
    (∃ t, exec .sha256 State.reset = .next t) ∧
    (∃ t, exec .sha256 { msgState [1] with msgLen := 0 } = .next t) :=
  ⟨fun j h => absurd h (Nat.not_lt_zero j), by decide +kernel, ⟨_, rfl⟩, ⟨_, rfl⟩⟩

theorem witness_BaseFiftyEightCheckEncodesTheHash : (digState State.reset 0).digLen.toNat = 20 ∧
    (digState State.reset 0).digString 20 = .ok (List.replicate 20 0) ∧ State.reset.digLen.toNat ≠ 20 := by
  decide +kernel

theorem witness_BaseFiftyEightLengthBounds : (List.replicate 128 (0xFF : Byte)).length ≤ 128 ∧
    (List.replicate 20 (0 : Byte)).length = 20 := by simp

theorem witness_AlphavDecidesValidity : State.reset.alphaLen.toNat ≠ 40 ∧
    (alphaState.alphaLen.toNat = 40 ∧ alphaState.alphabet = .ok alphaTA ∧ alphaTA.Nodup) ∧
    ∃ A : List Word, A.length = 40 ∧
      State.alphabet { alphaState with mem := Memory.writeWords [] alphaBase A } = .ok A ∧
      ∃ h : 39 < A.length, A[39] ∈ A.take 39 ∧ (A.take 39).Nodup := by
  refine ⟨by decide, ⟨rfl, alphaState_alphabet, by decide +kernel⟩, codes "0123456789ABCDEFGHIJKLMNOPQRSTUVWXYZ.-:0", ?_⟩
  decide +kernel

theorem witness_BaseFortyWritesThePositionalDigits : State.reset.alphaValid = false ∧
    alphaState.alphaValid = true ∧ alphaState.alphabet = .ok alphaTA ∧ alphaState.opa = 0 :=
  ⟨rfl, rfl, alphaState_alphabet, rfl⟩

theorem witness_BaseFortyDecodesThePositionalValue_lengths : alphaState.alphaValid = true ∧
    alphaState.strLen.toNat = 0 ∧ 256 < ({ alphaState with strLen := 257 } : State).strLen.toNat := by decide

theorem witness_BaseFortyDecodesThePositionalValue_strings :
    (strState alphaState "A?B").alphaValid = true ∧ (strState alphaState "A?B").strLen.toNat ≠ 0 ∧
    (strState alphaState "A?B").strLen.toNat ≤ 256 ∧ (strState alphaState "A?B").alphabet = .ok alphaTA ∧
    (strState alphaState "A?B").mem.readWords strBase 3 = .ok (codes "A?B") := by decide +kernel

theorem witness_BaseFortyDecodesThePositionalValue_symbols :
    ([0x41, 0x3F, 0x42] : List Word)[1]? = some 0x3F ∧ 0x3F ∉ alphaTA ∧
    (∀ c ∈ ([0x41, 0x3F, 0x42] : List Word).drop 2, c ∈ alphaTA) ∧
    (∀ c ∈ ([0x41, 0x42] : List Word), c ∈ alphaTA) := by
  refine ⟨rfl, by decide, ?_, ?_⟩ <;> simp [alphaTA]

/-- The largest value that fits and the smallest that does not (R137, corner cases). -/
theorem witness_BaseFortyDecodesThePositionalValue_values :
    Nat.ofDigits 40 ((codes "1IIG47QKBW8NDTDRE9BC.AGG5REDY08VH9.+2K:UC-1.QAO:F").reverse.map
      fun c => alphaTA.idxOf c) < 2 ^ 256 ∧
    2 ^ 256 ≤ Nat.ofDigits 40 ((codes "1IIG47QKBW8NDTDRE9BC.AGG5REDY08VH9.+2K:UC-1.QAO:G").reverse.map
      fun c => alphaTA.idxOf c) := by
  have h : ((codes "1IIG47QKBW8NDTDRE9BC.AGG5REDY08VH9.+2K:UC-1.QAO:F").reverse.map fun c => alphaTA.idxOf c) =
      [15, 38, 24, 10, 26, 36, 1, 37, 12, 30, 38, 20, 2, 39, 36, 9, 17, 31, 8, 0, 34, 13, 14, 27, 5, 16,
        16, 10, 36, 12, 11, 9, 14, 27, 13, 29, 13, 23, 8, 32, 11, 20, 26, 7, 4, 16, 18, 18, 1] := by
    decide +kernel
  have h' : ((codes "1IIG47QKBW8NDTDRE9BC.AGG5REDY08VH9.+2K:UC-1.QAO:G").reverse.map fun c => alphaTA.idxOf c) =
      [16, 38, 24, 10, 26, 36, 1, 37, 12, 30, 38, 20, 2, 39, 36, 9, 17, 31, 8, 0, 34, 13, 14, 27, 5, 16,
        16, 10, 36, 12, 11, 9, 14, 27, 13, 29, 13, 23, 8, 32, 11, 20, 26, 7, 4, 16, 18, 18, 1] := by
    decide +kernel
  rw [h, h']
  simp only [Nat.ofDigits_cons, Nat.ofDigits_nil]
  norm_num

theorem witness_BaseFortyRoundTripRestoresTheOperand : alphaState.AlphabetHeld ∧ alphaState.alphaValid = true :=
  ⟨alphaState_held, rfl⟩

theorem witness_BaseFortyHashPadsToTheTarget : State.reset.alphaValid = false ∧ alphaState.alphaValid = true ∧
    alphaState.digLen.toNat ≠ 20 ∧ (digState alphaState 0).digLen.toNat = 20 ∧
    (digState alphaState 0).alphabet = .ok alphaTA ∧
    (digState alphaState 0).digString 20 = .ok (List.replicate 20 0) := by decide +kernel

/-- A record with nothing in it, to stand in a trace. -/
def emptyRecord : TraceRecord := (traceRecord [] 1 false none .inf).1

theorem witness_RegisterWordsAreBigEndian : State.reset.busy = false ∧
    ({ State.reset with traceValid := true, trace := List.replicate 256 emptyRecord } : State).trace[255]? =
      some emptyRecord := by decide +kernel

theorem witness_IdleWritesStoreTheirBitsAlone : State.reset.busy = false ∧ (2 : Word).getLsbD 0 = false ∧
    4 * (0x1000#14).toNat = 0x4000 ∧ 4 * (0x23FF#14).toNat = 0x8FFC ∧ locate 0x3FFF#14 = .reserved := by decide

/-- The first word of `DIG` and the last of each other buffer. -/
theorem witness_BufferWordWriteReadsBack : State.reset.busy = false ∧ ∀ off ∈ [0x200, 0x47C, 0x8FC, 0x13FC],
    off % 4 = 0 ∧ ((0x200 ≤ off ∧ off < 0x220) ∨ (0x400 ≤ off ∧ off < 0x480) ∨ (0x800 ≤ off ∧ off < 0x900) ∨
      (0x1000 ≤ off ∧ off < 0x1400)) := by decide

theorem witness_BusyWritesAreDropped : (State.reset.issue 0).busy = true ∧
    locate cmdAddr = .cmd ∧ locate statusAddr = .status ∧ locate 0x23FF#14 = .trace 255 19 ∧
    locate 4#14 = .irq ∧ locate 1#14 = .ctrl ∧ (2 : Word).getLsbD 0 = false := ⟨rfl, by decide⟩

theorem witness_HostReadReturnsTheHeldWord :
    (State.reset.busy = false ∧ State.reset.held (locate 0x18#14) = some 0) ∧
    State.reset.held (locate 0x100#14) = none ∧
    ((State.reset.issue 1).busy = true ∧ inWriteSet (State.reset.issue 1).command (locate 0x30#14) = true) ∧
    inWriteSet (State.reset.issue 1).command (locate 0x18#14) = false ∧
    locate 0x3FFF#14 = .reserved ∧ locate 0#14 = .id ∧ locate 2#14 = .cmd ∧ locate 3#14 = .status ∧
    locate 1#14 = .ctrl ∧ locate 4#14 = .irq := ⟨by decide, by decide, ⟨rfl, by decide⟩, by decide⟩

theorem witness_WindowWordsHoldTheirFields : State.reset.busy = false ∧
    ({ State.reset with traceValid := true, trace := List.replicate 256 emptyRecord } : State).trace[255]? =
      some emptyRecord := witness_RegisterWordsAreBigEndian

theorem witness_EitherResetGivesTheResetState : locate 1#14 = .ctrl ∧ (1 : Word).getLsbD 0 = true ∧
    (running State.reset 0 1).latencyLeft ≠ 0 ∧ State.reset.busy = false := by decide

theorem witness_InterruptFollowsMaskAndPending : (∃ t, exec .nop State.reset = .next t) ∧
    (locate 4#14 = .irq ∧ (1 : Word).getLsbD 0 = true) ∧ (locate 1#14 = .ctrl ∧ (2 : Word).getLsbD 0 = false) ∧
    ∃ t, step { State.reset with donePend := true, bus := [.write 4 1] } = .next t ∧ t.donePend = false :=
  ⟨⟨_, rfl⟩, by decide, by decide, _, rfl, rfl⟩

theorem witness_StepKeepsTheMemoryCanonical : alphaState.MemoryHeld ∧ ∃ t, step alphaState = .next t :=
  ⟨by show _ = true; decide +kernel, _, rfl⟩

theorem witness_StepKeepsTheStatusLegal : State.reset.StatusLegal ∧ ∃ t, step State.reset = .next t :=
  ⟨⟨by decide, by decide, by decide, by decide, by decide⟩, _, rfl⟩

theorem witness_StepKeepsTheValidatedAlphabet : alphaState.AlphabetHeld ∧ ∃ t, step alphaState = .next t :=
  ⟨alphaState_held, _, rfl⟩

theorem witness_StepKeepsTheTraceWhole : State.reset.TraceHeld ∧ ∃ t, step State.reset = .next t :=
  ⟨⟨rfl, rfl⟩, _, rfl⟩

end Sys2Proof.Tests
end

/-! SUPPORT. The host window, access by access: what a write does at each kind of location, and what a read
returns from a location that no running command writes. -/

namespace Sys2Proof.Machine

/-! ### Host writes by kind of location (20_memory.md R56) -/

/-- The locations a host write never changes, one by one. -/
theorem Location.readOnly_iff {l : Location} : l.readOnly = true ↔
    l ∈ [.id, .status, .traceLen, .errinfo, .reserved] ∨ ∃ r w, l = .trace r w := by
  cases l <;> simp [Location.readOnly]

theorem State.hostWrite_ctrl (s : State) {a : Addr} {v : Word} (h : locate a = .ctrl)
    (hv : v.getLsbD 0 = false) : s.hostWrite a v = { s with irqEn := v.getLsbD 1 } := by
  simp only [State.hostWrite, h, hv, if_true, Bool.false_eq_true, if_false]

theorem State.hostWrite_irq (s : State) {a : Addr} (v : Word) (h : locate a = .irq) :
    s.hostWrite a v = { s with donePend := s.donePend && !v.getLsbD 0 } := by
  cases hv : v.getLsbD 0 <;> simp [State.hostWrite, h, hv, -BitVec.getLsbD_eq_getElem]

theorem State.hostWrite_readOnly (s : State) {a : Addr} (v : Word) (h : (locate a).readOnly = true) :
    s.hostWrite a v = s := by
  have hc : locate a ≠ .ctrl := fun e => by simp [e, Location.readOnly] at h
  have hi : locate a ≠ .irq := fun e => by simp [e, Location.readOnly] at h
  simp [State.hostWrite, h, hc, hi]

/-- A write that a running command keeps out is lost, and `OVR` says so (10_state.md R35). -/
theorem State.hostWrite_busy {s : State} {a : Addr} (v : Word) (hb : s.busy = true)
    (hr : (locate a).readOnly = false) (hc : locate a ≠ .ctrl) (hi : locate a ≠ .irq) :
    s.hostWrite a v = { s with ovr := true } := by
  simp [State.hostWrite, hb, hr, hc, hi]

theorem State.hostWrite_idle {s : State} {a : Addr} {l : Location} (v : Word) (hb : s.busy = false)
    (hl : locate a = l) (hr : l.readOnly = false) (hc : l ∉ [.ctrl, .irq, .cmd]) :
    s.hostWrite a v = s.store v l := by
  simp only [List.mem_cons, List.not_mem_nil, or_false, not_or] at hc
  simp [State.hostWrite, hl, hb, hr, hc]

/-- What a host write keeps: it resets, issues, stores, or sets a flag of the host's. -/
theorem State.hostWrite_keeps {P : State → Prop} {s : State} {a : Addr} {v : Word}
    (hreset : P s.softReset) (hissue : P (s.issue v)) (hstore : P (s.store v (locate a)))
    (hflags : ∀ en pend lost, P { s with irqEn := en, donePend := pend, ovr := lost }) :
    P (s.hostWrite a v) := by
  rcases s.hostWrite_cases a v with ⟨-, -, e⟩ | ⟨-, -, e⟩ | ⟨-, e⟩ | ⟨-, e⟩ | ⟨-, e⟩ | ⟨-, -, e⟩ |
    ⟨-, -, -, -, -, e⟩ <;> rw [e]
  · exact hreset
  · exact hflags _ s.donePend s.ovr
  · exact hflags s.irqEn _ s.ovr
  · exact hflags s.irqEn s.donePend s.ovr
  · exact hflags s.irqEn s.donePend _
  · exact hissue
  · exact hstore

/-! ### Host reads -/

theorem State.readable_idle {s : State} (l : Location) (hb : s.busy = false) : s.readable l = s.held l := by
  simp [State.readable, hb]

theorem State.readable_of_not_inWriteSet {s : State} {l : Location} (h : inWriteSet s.command l = false) :
    s.readable l = s.held l := by
  simp [State.readable, h]

/-- While idle a read returns what the location holds. -/
theorem State.rdata_idle {s : State} {a : Addr} {l : Location} {w : Word} (hb : s.busy = false)
    (hl : locate a = l) (hw : s.held l = some w) : (s.hostRead a).rdata = w := by
  rw [State.hostRead_of_some (w := w)]
  rw [hl, s.readable_idle l hb, hw]

/-- `ID`, `CTRL`, `CMD`, `STATUS` and `IRQ` are in no command's write set (R57), and read as held at all
times. -/
theorem State.rdata_control {s : State} {a : Addr} {l : Location} {w : Word} (hl : locate a = l)
    (hc : l ∈ [.id, .ctrl, .cmd, .status, .irq]) (hw : s.held l = some w) : (s.hostRead a).rdata = w := by
  have hn : inWriteSet s.command l = false := by
    simp only [List.mem_cons, List.not_mem_nil, or_false] at hc
    rcases hc with rfl | rfl | rfl | rfl | rfl <;> rfl
  rw [State.hostRead_of_some (w := w)]
  rw [hl, State.readable_of_not_inWriteSet hn, hw]

/-! ### The 256-bit registers of the window -/

/-- The byte offset of a 256-bit register (R47). -/
def BigReg.offset : BigReg → Nat
  | .k => 0x40
  | .opa => 0x60
  | .opb => 0x80
  | .opm => 0xA0
  | .res => 0xC0
  | .p1x => 0x100
  | .p1y => 0x120
  | .p2x => 0x140
  | .p2y => 0x160
  | .prx => 0x180
  | .pry => 0x1A0

/-- The rows of the register table are the registers at their offsets. -/
theorem mem_wideRegisters {row : Nat × (State → Big)} :
    row ∈ wideRegisters ↔ ∃ r : BigReg, row = (r.offset, fun s => s.big r) := by
  constructor
  · intro h
    simp only [wideRegisters, List.mem_cons, List.not_mem_nil, or_false] at h
    rcases h with rfl | rfl | rfl | rfl | rfl | rfl | rfl | rfl | rfl | rfl | rfl
    exacts [⟨.k, rfl⟩, ⟨.opa, rfl⟩, ⟨.opb, rfl⟩, ⟨.opm, rfl⟩, ⟨.res, rfl⟩, ⟨.p1x, rfl⟩, ⟨.p1y, rfl⟩,
      ⟨.p2x, rfl⟩, ⟨.p2y, rfl⟩, ⟨.prx, rfl⟩, ⟨.pry, rfl⟩]
  · rintro ⟨r, rfl⟩
    cases r <;> simp [wideRegisters, BigReg.offset, State.big]

theorem locate_bigReg (r : BigReg) {j : Nat} (hj : j < 8) :
    locate (wordAddr (r.offset + 4 * j)) = .big r j := by
  have h : ∀ j < 8, locate (wordAddr (r.offset + 4 * j)) = .big r j := by cases r <;> decide
  exact h j hj

/-- A register after a write of one of the eleven. -/
theorem State.big_setBig (s : State) (r r' : BigReg) (v : Big) :
    (s.setBig r v).big r' = if r' = r then v else s.big r' := by
  cases r <;> cases r' <;> rfl

/-- Writing a 256-bit register leaves everything but the eleven of them, the infinity flags among it. -/
theorem State.setBig_frame (s : State) (r : BigReg) (v : Big) :
    s.setBig r v = { s with
      k := (s.setBig r v).k, opa := (s.setBig r v).opa, opb := (s.setBig r v).opb
      opm := (s.setBig r v).opm, res := (s.setBig r v).res
      p1 := { s.p1 with x := (s.setBig r v).p1.x, y := (s.setBig r v).p1.y }
      p2 := { s.p2 with x := (s.setBig r v).p2.x, y := (s.setBig r v).p2.y }
      pr := { s.pr with x := (s.setBig r v).pr.x, y := (s.setBig r v).pr.y } } := by
  cases r <;> rfl

/-- The store of a location leaves everything but lengths, data registers, memory and `ALPHA_VALID`. -/
theorem State.store_frame (s : State) (v : Word) (l : Location) :
    s.store v l = { s with
      msgLen := (s.store v l).msgLen, strLen := (s.store v l).strLen, digLen := (s.store v l).digLen
      alphaLen := (s.store v l).alphaLen, alphaValid := (s.store v l).alphaValid
      k := (s.store v l).k, opa := (s.store v l).opa, opb := (s.store v l).opb
      opm := (s.store v l).opm, res := (s.store v l).res
      p1 := (s.store v l).p1, p2 := (s.store v l).p2, pr := (s.store v l).pr
      mem := (s.store v l).mem } := by
  cases l with
  | big r j => cases r <;> rfl
  | _ => rfl

/-- Word `j` of a register as a number (R50). -/
theorem bigWord_toNat_of_lt (v : Big) {j : Nat} (hj : j < 8) :
    v.toNat / 2 ^ (32 * (7 - j)) % 2 ^ 32 = (bigWord v j).toNat := by
  rw [bigWord_toNat, show 224 - 32 * j = 32 * (7 - j) by omega]

/-! ### The trace in the window (10_state.md R42) -/

theorem locate_of_trace_range {a : Addr} (h : 0x4000 ≤ 4 * a.toNat ∧ 4 * a.toNat < 0x9000) :
    locate a = .trace ((4 * a.toNat - 0x4000) / 80) ((4 * a.toNat - 0x4000) % 80 / 4) := by
  rw [locate, locateOffset_eq]
  repeat rw [if_neg (by omega)]
  rw [if_pos h]

theorem locate_record {i w : Nat} (hi : i < 256) (hw : w < 20) :
    locate (wordAddr (0x4000 + 80 * i + 4 * w)) = .trace i w := by
  have ha : 4 * (wordAddr (0x4000 + 80 * i + 4 * w)).toNat = 0x4000 + 80 * i + 4 * w := by
    rw [wordAddr_toNat (by omega)]; omega
  rw [locate_of_trace_range (by omega), ha]
  congr 1 <;> omega

/-- While idle a word of a record of a valid trace reads as the record has it. -/
theorem State.rdata_record {s : State} {i w : Nat} {r : TraceRecord} (hb : s.busy = false)
    (hv : s.traceValid = true) (hi : i < 256) (hr : s.trace[i]? = some r) (hw : w < 20) :
    (s.hostRead (wordAddr (0x4000 + 80 * i + 4 * w))).rdata = r.word w :=
  State.rdata_idle hb (locate_record hi hw) (by simp [State.held, hv, hr])

/-! ### The bits of the packed words -/

theorem append_toNat {n m : Nat} (x : BitVec n) (y : BitVec m) :
    (x ++ y).toNat = x.toNat * 2 ^ m + y.toNat := by
  rw [BitVec.toNat_append, ← Nat.shiftLeft_add_eq_or_of_lt y.isLt, Nat.shiftLeft_eq]

@[simp] theorem flagBit_toNat (b : Bool) : (flagBit b).toNat = b.toNat := BitVec.toNat_ofBool b

theorem State.ctrlWord_toNat (s : State) : s.ctrlWord.toNat = 2 * s.irqEn.toNat := by
  simp only [State.ctrlWord, append_toNat, flagBit_toNat, BitVec.toNat_ofNat]; omega

theorem State.irqWord_toNat (s : State) : s.irqWord.toNat = s.donePend.toNat := by
  simp only [State.irqWord, append_toNat, flagBit_toNat, BitVec.toNat_ofNat]; omega

theorem State.ptagWord_toNat (s : State) :
    s.ptagWord.toNat = s.p1.inf.toNat + 2 * s.p2.inf.toNat + 4 * s.pr.inf.toNat := by
  simp only [State.ptagWord, append_toNat, flagBit_toNat, BitVec.toNat_ofNat]; omega

/-- `STATUS` as a number: the error code over the eight low bits. -/
theorem State.statusWord_toNat (s : State) : s.statusWord.toNat =
    256 * s.errcode.code.toNat + 64 * s.ovr.toNat + 32 * s.alphaValid.toNat + 16 * s.traceValid.toNat +
      8 * s.resultFlag.toNat + 4 * s.errFlag.toNat + 2 * s.doneFlag.toNat + s.busy.toNat := by
  simp only [State.statusWord, append_toNat, flagBit_toNat, BitVec.toNat_ofNat]; omega

theorem getLsbD_of_toNat_div {n i : Nat} {x : BitVec n} {b : Bool} (h : x.toNat / 2 ^ i % 2 = b.toNat) :
    x.getLsbD i = b := by
  rw [BitVec.getLsbD, Nat.testBit_eq_decide_div_mod_eq, h]
  cases b <;> rfl

/-- The bits of `STATUS` (10_state.md R24). -/
theorem State.statusWord_fields (s : State) :
    s.statusWord.getLsbD 0 = s.busy ∧ s.statusWord.getLsbD 1 = s.doneFlag ∧
    s.statusWord.getLsbD 2 = s.errFlag ∧ s.statusWord.getLsbD 3 = s.resultFlag ∧
    s.statusWord.getLsbD 4 = s.traceValid ∧ s.statusWord.getLsbD 5 = s.alphaValid ∧
    s.statusWord.getLsbD 6 = s.ovr ∧ s.statusWord.getLsbD 7 = false ∧
    s.statusWord.toNat / 256 = s.errcode.code.toNat := by
  have hovr := s.ovr.toNat_lt
  have halpha := s.alphaValid.toNat_lt
  have htrace := s.traceValid.toNat_lt
  have hresult := s.resultFlag.toNat_lt
  have herr := s.errFlag.toNat_lt
  have hdone := s.doneFlag.toNat_lt
  have hbusy := s.busy.toNat_lt
  have hzero : false.toNat = 0 := rfl
  have hnum := s.statusWord_toNat
  refine ⟨getLsbD_of_toNat_div ?_, getLsbD_of_toNat_div ?_, getLsbD_of_toNat_div ?_,
    getLsbD_of_toNat_div ?_, getLsbD_of_toNat_div ?_, getLsbD_of_toNat_div ?_,
    getLsbD_of_toNat_div ?_, getLsbD_of_toNat_div ?_, ?_⟩ <;> omega

theorem TraceRecord.word0_toNat (r : TraceRecord) : r.word0.toNat =
    r.step.toNat + 2 ^ 9 * r.bit.toNat + 2 ^ 10 * r.op.toNat + 2 ^ 11 * r.inf.toNat +
      2 ^ 12 * r.symv.toNat := by
  simp only [TraceRecord.word0, append_toNat, flagBit_toNat, BitVec.toNat_ofNat]; omega

theorem TraceRecord.word1_toNat (r : TraceRecord) : r.word1.toNat =
    r.angle.toNat + 2 ^ 16 * r.sidx.toNat + 2 ^ 24 * r.delta.toNat := by
  simp only [TraceRecord.word1, append_toNat, BitVec.toNat_ofNat]; omega

end Sys2Proof.Machine

/-! The statements about host accesses. -/

namespace Sys2Proof.Machine

/-- Settles O51: each clause is the rule of its kind of location. -/
theorem busyWritesAreDropped : Obligations.BusyWritesAreDropped := by
  intro s a v hb
  refine ⟨fun hl ht => ?_, fun hl => s.hostWrite_readOnly v (Location.readOnly_iff.2 (.inl hl)),
    fun r w ht => s.hostWrite_readOnly v (Location.readOnly_iff.2 (.inr ⟨r, w, ht⟩)),
    s.hostWrite_irq v, s.hostWrite_ctrl⟩
  have hr : (locate a).readOnly = false := by
    rw [Bool.eq_false_iff, ne_eq, Location.readOnly_iff]
    rintro (h | ⟨r, w, h⟩)
    · exact hl (List.mem_cons_of_mem _ (List.mem_cons_of_mem _ h))
    · exact ht r w h
  simp only [List.mem_cons, not_or] at hl
  obtain ⟨hc, hi, -⟩ := hl
  exact State.hostWrite_busy v hb hr hc hi

/-- While idle a write of word `j` of a 256-bit register replaces that word (R50, R56). -/
theorem State.hostWrite_bigReg {s : State} (v : Word) (hb : s.busy = false) (r : BigReg) {j : Nat} (hj : j < 8) :
    s.hostWrite (wordAddr (r.offset + 4 * j)) v = s.setBig r (setBigWord (s.big r) j v) :=
  State.hostWrite_idle v hb (locate_bigReg r hj) rfl (by simp)

/-- Settles O49: every offset is located, and the store of its location is read off. -/
theorem idleWritesStoreTheirBitsAlone : Obligations.IdleWritesStoreTheirBitsAlone := by
  intro s v hb
  simp only [BitVec.ofNat_toNat]
  refine ⟨?registers, ?msgLen, ?strLen, ?digLen, ?alphaLen, ?ptag, ?ctrl, ?irq, ?readOnly, ?unlisted⟩
  case registers =>
    intro row hrow j hj
    obtain ⟨r, rfl⟩ := mem_wideRegisters.1 hrow
    simp only [State.hostWrite_bigReg v hb r hj, State.setBig_big]
    refine ⟨?_, fun j' hj' hne => ?_, fun row' hrow' hne => ?_, State.setBig_frame _ _ _⟩
    · rw [bigWord_toNat_of_lt _ hj, bigWord_setBigWord _ _ hj hj, if_pos rfl]
    · rw [bigWord_toNat_of_lt _ hj', bigWord_toNat_of_lt _ hj', bigWord_setBigWord _ _ hj hj', if_neg hne]
    · obtain ⟨r', rfl⟩ := mem_wideRegisters.1 hrow'
      have hr : r' ≠ r := fun e => hne (by rw [e])
      exact (s.big_setBig r r' _).trans (if_neg hr)
  case msgLen => exact State.hostWrite_idle v hb (l := .msgLen) (by decide) rfl (by simp)
  case strLen => exact State.hostWrite_idle v hb (l := .strLen) (by decide) rfl (by simp)
  case digLen => exact State.hostWrite_idle v hb (l := .digLen) (by decide) rfl (by simp)
  case alphaLen => exact State.hostWrite_idle v hb (l := .alphaLen) (by decide) rfl (by simp)
  case ptag => exact State.hostWrite_idle v hb (l := .ptag) (by decide) rfl (by simp)
  case ctrl => exact s.hostWrite_ctrl (by decide)
  case irq => exact s.hostWrite_irq v (by decide)
  case readOnly =>
    have h : ∀ off ∈ [0x00, 0x0C, 0x24, 0x28], (locate (wordAddr off)).readOnly = true := by decide
    exact fun off hoff => s.hostWrite_readOnly v (h off hoff)
  case unlisted =>
    rintro a (ht | hr)
    · exact s.hostWrite_readOnly v (Location.readOnly_iff.2 (.inr ⟨_, _, locate_of_trace_range ht⟩))
    · exact s.hostWrite_readOnly v (by rw [hr]; rfl)

/-- Settles O53: each word is the one its location holds, and its bits are read off. -/
theorem windowWordsHoldTheirFields : Obligations.WindowWordsHoldTheirFields := by
  intro s
  have status : (s.hostRead (wordAddr 0x0C)).rdata = s.statusWord :=
    State.rdata_control (l := .status) (by decide) (by simp) rfl
  have ctrl : (s.hostRead (wordAddr 0x04)).rdata = s.ctrlWord :=
    State.rdata_control (l := .ctrl) (by decide) (by simp) rfl
  have irq : (s.hostRead (wordAddr 0x10)).rdata = s.irqWord :=
    State.rdata_control (l := .irq) (by decide) (by simp) rfl
  dsimp only
  rw [status, ctrl, irq]
  refine ⟨⟨State.rdata_control (l := .id) (by decide) (by simp) rfl,
    State.rdata_control (l := .cmd) (by decide) (by simp) rfl, s.ctrlWord_toNat, s.irqWord_toNat⟩,
    s.statusWord_fields, fun hb => ⟨?msgLen, ?strLen, ?digLen, ?alphaLen, ?traceLen, ?errinfo, ?ptag, ?records⟩⟩
  case msgLen =>
    rw [State.rdata_idle hb (l := .msgLen) (by decide) rfl]
    exact BitVec.toNat_setWidth_of_le (by decide)
  case strLen =>
    rw [State.rdata_idle hb (l := .strLen) (by decide) rfl]
    exact BitVec.toNat_setWidth_of_le (by decide)
  case digLen =>
    rw [State.rdata_idle hb (l := .digLen) (by decide) rfl]
    exact BitVec.toNat_setWidth_of_le (by decide)
  case alphaLen =>
    rw [State.rdata_idle hb (l := .alphaLen) (by decide) rfl]
    exact BitVec.toNat_setWidth_of_le (by decide)
  case traceLen =>
    rw [State.rdata_idle hb (l := .traceLen) (by decide) rfl]
    exact BitVec.toNat_setWidth_of_le (by decide)
  case errinfo => exact State.rdata_idle hb (l := .errinfo) (by decide) rfl
  case ptag => rw [State.rdata_idle hb (l := .ptag) (by decide) rfl, s.ptagWord_toNat]
  case records =>
    intro i r hv hi hr
    have word := fun {w : Nat} => State.rdata_record (w := w) hb hv hi hr
    refine ⟨?_, ?_, word (w := 2) (by omega), word (w := 3) (by omega)⟩
    · rw [← r.word0_toNat]; exact congrArg BitVec.toNat (word (w := 0) (by omega))
    · rw [← r.word1_toNat]; exact congrArg BitVec.toNat (word (w := 1) (by omega))

end Sys2Proof.Machine
/-! SUPPORT. What a command can do, said once for all 21: how its computation ends (`Comp.Ends`), what its
updates are (`Updated`), and the two ways it completes (`Completed`, `exec_completed`). -/

namespace Sys2Proof.Machine

/-! ### How a computation ends -/

/-- Every value the computation answers satisfies `P`, and every error it raises satisfies `E`. -/
def Comp.Ends {α : Type} (c : Comp α) (P : α → Prop) (E : ErrCode → Prop) : Prop :=
  (∀ a, c = .ok a → P a) ∧ ∀ e info, c = .error (.raise e info) → E e

section Ends

variable {α β : Type} {P : α → Prop} {Q : β → Prop} {E : ErrCode → Prop}

theorem ends_ok {a : α} (h : P a) : Comp.Ends (.ok a) P E :=
  ⟨fun _ ha => Except.ok.inj ha ▸ h, fun _ _ he => nomatch he⟩

/-- A computation that raises at most the one error `e`. -/
theorem ends_of_error {c : Comp α} {e : ErrCode} (hE : E e)
    (h : ∀ x, c = .error x → (∃ info, x = .raise e info) ∨ ∃ f, x = .fault f) :
    Comp.Ends c (fun a => c = .ok a) E := by
  refine ⟨fun _ ha => ha, fun e' info he => ?_⟩
  rcases h _ he with ⟨info', hx⟩ | ⟨f, hx⟩
  · rw [Stop.raise.injEq] at hx
    rwa [hx.1]
  · nomatch hx

theorem ends_bind {c : Comp α} {f : α → Comp β} (hc : Comp.Ends c P E)
    (hf : ∀ a, P a → Comp.Ends (f a) Q E) : Comp.Ends (c >>= f) Q E := by
  refine ⟨fun b hb => ?_, fun e info he => ?_⟩
  · obtain ⟨a, ha, hb⟩ := bind_eq_ok.1 hb
    exact (hf a (hc.1 a ha)).1 b hb
  · rcases bind_eq_error.1 he with he | ⟨a, ha, he⟩
    · exact hc.2 e info he
    · exact (hf a (hc.1 a ha)).2 e info he

theorem ends_require {ok : Bool} {e : ErrCode} {info : Word} (hE : E e) :
    Comp.Ends (require ok e info) (fun _ => ok = true) E :=
  ⟨fun _ h => require_eq_ok.1 h, fun e' info' h => by
    obtain ⟨-, hx⟩ := require_eq_error.1 h
    rw [Stop.raise.injEq] at hx
    rwa [hx.1]⟩

end Ends

/-! ### How the parts of the commands end -/

section Parts

variable {E : ErrCode → Prop}

theorem ends_byteAt (m : Memory) (a : Nat) : Comp.Ends (m.byteAt a) (fun b => m.byteAt a = .ok b) E := by
  refine ⟨fun _ h => h, fun e info h => ?_⟩
  unfold Memory.byteAt at h
  split at h <;> nomatch h

theorem ends_readBytes (m : Memory) (a n : Nat) :
    Comp.Ends (m.readBytes a n) (fun bs => m.readBytes a n = .ok bs) E := by
  refine ⟨fun _ h => h, fun e info h => ?_⟩
  obtain ⟨i, -, hx, -⟩ := Memory.readBytes_error h
  nomatch hx

theorem ends_readWords (m : Memory) (a n : Nat) :
    Comp.Ends (m.readWords a n) (fun ws => m.readWords a n = .ok ws) E := by
  refine ⟨fun _ h => h, fun e info h => ?_⟩
  obtain ⟨i, -, hx, -⟩ := Memory.readWords_error h
  nomatch hx

theorem ends_message (s : State) (hE : E .lengthError) :
    Comp.Ends s.message (fun m => s.message = .ok m) E :=
  ends_of_error hE fun _ h => (State.message_eq_error h).imp
    (fun ⟨_, hx⟩ => ⟨_, hx⟩) fun ⟨_, _, hx, _⟩ => ⟨_, hx⟩

theorem ends_inv (info : Word) (k : Int) (hE : E .divisionByZero) :
    Comp.Ends (inv info k) (fun r => inv info k = .ok r) E :=
  ends_of_error hE fun _ h => .inl ⟨info, (inv_eq_error.1 h).2⟩

theorem ends_modexp (b e m : Nat) (hE : E .invalidModulus) :
    Comp.Ends (modexp b e m) (fun r => modexp b e m = .ok r) E :=
  ends_of_error hE fun x h => by
    unfold modexp at h
    split at h
    · exact .inl ⟨0, (Except.error.inj h).symm⟩
    · nomatch h

theorem ends_pdbl (info : Word) (p : Point) (hE : E .divisionByZero) :
    Comp.Ends (pdbl info p) (fun r => pdbl info p = .ok r) E :=
  ends_of_error hE fun _ h => .inl ⟨info, pdbl_eq_error h⟩

theorem ends_padd (info : Word) (p q : Point) (hE : E .divisionByZero) :
    Comp.Ends (padd info p q) (fun r => padd info p q = .ok r) E :=
  ends_of_error hE fun _ h => .inl ⟨info, padd_eq_error h⟩

theorem ends_pser (p : Point) (hE : E .malformedPublicKey) :
    Comp.Ends (pser p) (fun m => pser p = .ok m) E :=
  ends_of_error hE fun x h => by
    cases p with
    | inf => exact .inl ⟨0, (Except.error.inj h).symm⟩
    | aff x y => nomatch h

/-- The multiplication raises the errors of its checks or a division by zero; its trace is whole. -/
theorem ends_multiply (s : State) (B : Point) (hA : E .invalidAlphabet) (hK : E .invalidScalar)
    (hD : E .divisionByZero) : Comp.Ends (s.multiply B) (fun r => r.2.length = 256) E := by
  refine ⟨fun r h => ?_, fun e info h => ?_⟩
  · obtain ⟨-, -, A, -, hs⟩ := State.multiply_eq_ok.1 h
    exact smulFrom_length hs
  · rcases State.multiply_eq_error h with ⟨-, hx⟩ | ⟨-, -, hx⟩ | ⟨_, -, hx, -⟩ | ⟨_, -, -, hx⟩
    all_goals cases hx
    · exact hA
    · exact hK
    · exact hD

theorem alphaScan_raises {seen : List Word} {j : Nat} {es : List (Option Word)} {e : ErrCode} {info : Word}
    (h : alphaScan seen j es = .error (.raise e info)) : e = .invalidAlphabet := by
  induction es generalizing seen j with
  | nil => nomatch h
  | cons entry es ih =>
    cases entry with
    | none => nomatch h
    | some c =>
      rw [alphaScan] at h
      split at h
      · cases h; rfl
      · exact ih h

theorem ends_alphaCheck (n : Nat) (es : List (Option Word)) (hE : E .invalidAlphabet) :
    Comp.Ends (alphaCheck n es) (fun _ => n = 40 ∧ alphaScan [] 0 es = .ok ()) E :=
  ends_bind (ends_require hE) fun _ hn =>
    ⟨fun _ h => ⟨of_decide_eq_true hn, h⟩, fun _ _ h => alphaScan_raises h ▸ hE⟩

theorem b40scan_raises {A : List Word} {es : List (Option Word)} {q v : Nat} {e : ErrCode} {info : Word}
    (h : b40scan A es q v = .error (.raise e info)) : e = .symbolNotFound := by
  induction es generalizing q v with
  | nil => nomatch h
  | cons entry es ih =>
    cases entry with
    | none => nomatch h
    | some c =>
      rw [b40scan] at h
      split at h
      · cases h; rfl
      · exact ih h

theorem ends_b40dec (es : List (Option Word)) (A : List Word) (hS : E .symbolNotFound) (hO : E .overflow) :
    Comp.Ends (b40dec es A) (fun v => v < 2 ^ 256) E :=
  ends_bind (P := fun _ => True) ⟨fun _ _ => trivial, fun _ _ h => b40scan_raises h ▸ hS⟩ fun _ _ =>
    ends_bind (ends_require hO) fun _ hv => ends_ok (of_decide_eq_true hv)

end Parts

/-! ### The completion of a command -/

/-- What the updates of a successful command make of the state, by the command's write set (60_exceptions.md
R146). -/
inductive Updated (s : State) : Instr → State → Prop where
  /-- a command that reports by `RESULT` alone, or not at all -/
  | nothing {i : Instr} : i ∈ [.nop, .oncurve, .keychk] → Updated s i s
  /-- an integer result -/
  | integer {i : Instr} (v : Nat) : writesRes i = true → Updated s i (s.putRes v)
  /-- a point result -/
  | point {i : Instr} (r : Point) : i ∈ [.padd, .pdbl] → Updated s i (s.putPR r)
  /-- a point result with its trace -/
  | traced {i : Instr} (r : Point) (tr : List TraceRecord) : i ∈ [.smul, .derive] → tr.length = 256 →
      Updated s i ((s.putPR r).putTrace tr)
  /-- an accepted key candidate -/
  | key : Updated s .keychk { s with k := s.opa }
  /-- a digest -/
  | digest {i : Instr} (d : List Byte) : writesDig i = true → Updated s i (s.putDig d)
  /-- a serialised point -/
  | message (m : List Byte) : Updated s .pser (s.putMsg m)
  /-- a symbol string -/
  | string {i : Instr} (w : List Word) : writesStr i = true → Updated s i (s.putStr w)
  /-- a validated alphabet -/
  | alphabet : s.alphaLen.toNat = 40 → alphaScan [] 0 (s.mem.entries alphaBase 40) = .ok () →
      Updated s .alphav { s with alphaValid := true }

/-- The state a failing command leaves, its status apart: only `ALPHAV` changes any (46_base40.md R135). -/
def State.afterFailure (s : State) : Instr → State
  | .alphav => { s with alphaValid := false }
  | _ => s

/-- The two ways a command completes (60_exceptions.md R143, R144). -/
inductive Completed (i : Instr) (s : State) : State → Prop where
  /-- its updates are applied -/
  | success {u : State} (result : Bool) : Updated s i u → Completed i s (u.succeed result)
  /-- it raises one of its errors -/
  | failure {e : ErrCode} (info : Word) : e ∈ raisedBy i → Completed i s ((s.afterFailure i).fail e info)

theorem completed_of_ends {i : Instr} {s t : State} {c : Comp State}
    (h : (s.afterFailure i).conclude c = .next t) (hc : Comp.Ends c (Updated s i) (· ∈ raisedBy i)) :
    Completed i s t := by
  rcases State.conclude_eq_next.1 h with ⟨u, hu, rfl⟩ | ⟨e, info, he, rfl⟩
  · exact .success false (hc.1 u hu)
  · exact .failure info (hc.2 e info he)

/-- Everything a command that completes can do: its computation's parts, in order, end as their own lemmas say,
and what it writes back is one of the updates. -/
theorem exec_completed {i : Instr} {s t : State} (h : exec i s = .next t) : Completed i s t := by
  cases i with
  | nop =>
    obtain rfl := Host.Outcome.next.inj h
    exact .success false (.nothing (by simp))
  | fred =>
    obtain rfl := Host.Outcome.next.inj h
    exact .success false (.integer _ rfl)
  | modinv =>
    exact completed_of_ends h <| ends_bind (ends_inv _ _ (by simp [raisedBy])) fun r _ => ends_ok (.integer r rfl)
  | modexp =>
    exact completed_of_ends h <|
      ends_bind (ends_modexp _ _ _ (by simp [raisedBy])) fun r _ => ends_ok (.integer r rfl)
  | oncurve =>
    obtain rfl := Host.Outcome.next.inj h
    exact .success _ (.nothing (by simp))
  | padd =>
    exact completed_of_ends h <|
      ends_bind (ends_padd _ _ _ (by simp [raisedBy])) fun r _ => ends_ok (.point r (by simp))
  | pdbl =>
    exact completed_of_ends h <|
      ends_bind (ends_pdbl _ _ (by simp [raisedBy])) fun r _ => ends_ok (.point r (by simp))
  | pser =>
    exact completed_of_ends h <| ends_bind (ends_pser _ (by simp [raisedBy])) fun m _ => ends_ok (.message m)
  | smul =>
    exact completed_of_ends h <|
      ends_bind (ends_multiply _ _ (by simp [raisedBy]) (by simp [raisedBy]) (by simp [raisedBy])) fun r hr =>
        ends_ok (.traced r.1 r.2 (by simp) hr)
  | derive =>
    exact completed_of_ends h <|
      ends_bind (ends_multiply _ _ (by simp [raisedBy]) (by simp [raisedBy]) (by simp [raisedBy])) fun r hr =>
        ends_bind (ends_require (by simp [raisedBy])) fun _ _ => ends_ok (.traced r.1 r.2 (by simp) hr)
  | keychk =>
    by_cases hv : validScalar s.opa.toNat = true
    · obtain rfl := Host.Outcome.next.inj ((if_pos hv).symm.trans h)
      exact .success true .key
    · obtain rfl := Host.Outcome.next.inj ((if_neg hv).symm.trans h)
      exact .success false (.nothing (by simp))
  | sha256 | rmd160 | chksum =>
    exact completed_of_ends h <| ends_bind (ends_message s (by simp [raisedBy])) fun _ _ => ends_ok (.digest _ rfl)
  | hash160 =>
    exact completed_of_ends h <| ends_bind (ends_require (by simp [raisedBy])) fun _ _ =>
      ends_bind (ends_byteAt _ _) fun _ _ => ends_bind (ends_require (by simp [raisedBy])) fun _ _ =>
        ends_bind (ends_readBytes _ _ _) fun _ _ => ends_ok (.digest _ rfl)
  | b58enc =>
    exact completed_of_ends h <| ends_bind (ends_message s (by simp [raisedBy])) fun _ _ => ends_ok (.string _ rfl)
  | b58chk version =>
    exact completed_of_ends h <| ends_bind (ends_require (by simp [raisedBy])) fun _ _ =>
      ends_bind (ends_readBytes _ _ _) fun _ _ => ends_ok (.string _ rfl)
  | alphav =>
    exact completed_of_ends h <| ends_bind (ends_alphaCheck _ _ (by simp [raisedBy])) fun _ ⟨hn, hs⟩ =>
      ends_ok (.alphabet hn hs)
  | b40enc =>
    exact completed_of_ends h <| ends_bind (ends_require (by simp [raisedBy])) fun _ _ =>
      ends_bind (ends_readWords _ _ _) fun _ _ => ends_ok (.string _ rfl)
  | b40dec =>
    exact completed_of_ends h <| ends_bind (ends_require (by simp [raisedBy])) fun _ _ =>
      ends_bind (ends_require (by simp [raisedBy])) fun _ _ =>
        ends_bind (ends_require (by simp [raisedBy])) fun _ _ =>
          ends_bind (ends_readWords _ _ _) fun _ _ =>
            ends_bind (ends_b40dec _ _ (by simp [raisedBy]) (by simp [raisedBy])) fun v _ =>
              ends_ok (.integer v rfl)
  | b40h target =>
    exact completed_of_ends h <| ends_bind (ends_require (by simp [raisedBy])) fun _ _ =>
      ends_bind (ends_require (by simp [raisedBy])) fun _ _ => ends_bind (ends_readWords _ _ _) fun _ _ =>
        ends_bind (ends_readBytes _ _ _) fun _ _ => ends_ok (.string _ rfl)

/-- What every step keeps: a predicate that completions, illegal words and host writes keep, that does not
look at the host's side, and that reset meets. -/
theorem step_keeps {P : State → Prop}
    (hcommand : ∀ {i s t}, P s → Completed i s t → P t) (hillegal : ∀ {s}, P s → P s.illegal)
    (hwrite : ∀ {s} a v, P s → P (s.hostWrite a v))
    (hhost : ∀ {s} n b r d, P s → P { s with latencyLeft := n, bus := b, rdata := r, draws := d })
    (hreset : ∀ b r d, P { State.reset with bus := b, rdata := r, draws := d })
    {s t : State} (hs : P s) (h : step s = .next t) : P t := by
  rcases step_cases h with ⟨i, -, -, -, hi⟩ | ⟨e, -, -, -, rfl⟩ | ⟨-, rfl⟩
  · exact hcommand hs (exec_completed hi)
  · exact hillegal hs
  · rcases s.passCycle_cases with ⟨b, r, d, -, e⟩ | ⟨a, v, rest, -, e⟩ | ⟨rest, -, e⟩ <;> rw [e]
    · exact hhost _ b r d hs
    · exact hwrite a v (hhost _ rest s.rdata s.draws hs)
    · exact hreset rest s.rdata s.draws

end Sys2Proof.Machine

/-! The invariants of the status fields and of the alphabet. -/

namespace Sys2Proof.Machine

/-! ### The status fields -/

theorem State.succeed_statusLegal (s : State) (r : Bool) : (s.succeed r).StatusLegal := by
  simp [State.StatusLegal]

/-- A failure leaves a legal status when its code is one of those in use (60_exceptions.md R145). -/
theorem State.fail_statusLegal (s : State) {e : ErrCode} (info : Word) (hn : e ≠ .none)
    (hi : e ≠ .invalidInput) : (s.fail e info).StatusLegal := by
  simp [State.StatusLegal, hn, hi]

/-- No command raises code 0 or the reserved code. -/
theorem raisedBy_in_use {i : Instr} {e : ErrCode} (h : e ∈ raisedBy i) : e ≠ .none ∧ e ≠ .invalidInput := by
  constructor
  · rintro rfl; cases i <;> simp [raisedBy] at h
  · rintro rfl; cases i <;> simp [raisedBy] at h

theorem Completed.statusLegal {i : Instr} {s t : State} (h : Completed i s t) : t.StatusLegal := by
  cases h with
  | success r _ => exact State.succeed_statusLegal _ r
  | failure info he =>
    obtain ⟨hn, hi⟩ := raisedBy_in_use he
    exact State.fail_statusLegal _ info hn hi

theorem reset_statusLegal : State.reset.StatusLegal := by simp [State.StatusLegal, State.reset]

theorem State.issue_statusLegal (s : State) (v : Word) : (s.issue v).StatusLegal := by
  simp [State.StatusLegal]

theorem State.hostWrite_statusLegal {s : State} (a : Addr) (v : Word) (h : s.StatusLegal) :
    (s.hostWrite a v).StatusLegal :=
  State.hostWrite_keeps (P := State.StatusLegal) reset_statusLegal (s.issue_statusLegal v)
    (by rw [State.store_frame]; exact h) fun _ _ _ => h

/-- Settles O57: a completion writes a legal status whatever stood before, and a cycle in which nothing
completes leaves the status fields, issues a command or resets. -/
theorem stepKeepsTheStatusLegal : Obligations.StepKeepsTheStatusLegal := fun _ _ =>
  step_keeps (P := State.StatusLegal) (fun _ => Completed.statusLegal)
    (fun _ => State.fail_statusLegal _ _ (by simp) (by simp)) State.hostWrite_statusLegal
    (fun _ _ _ _ h => h) fun _ _ _ => reset_statusLegal

/-! ### The alphabet -/

theorem alphabetHeld_of_invalid {t : State} (h : t.alphaValid = false) : t.AlphabetHeld := by
  simp [State.AlphabetHeld, h]

/-- A change of memory that ends before `ALPHA[0:40]` or starts after it keeps the promise, with the flag and
the length as before. -/
theorem State.AlphabetHeld.of_sameOutside {s t : State} (hs : s.AlphabetHeld) {a n : Nat}
    (hv : t.alphaValid = s.alphaValid) (hl : t.alphaLen = s.alphaLen) (hm : s.mem.SameOutside t.mem a n)
    (ha : a + n ≤ 0x800 ∨ 0x8A0 ≤ a) : t.AlphabetHeld := by
  have hA : t.alphabet = s.alphabet := Memory.readWords_congr fun i hi => hm _ (by
    simp only [alphaBase, Config.alphaSize] at hi ⊢
    omega)
  rw [State.AlphabetHeld, hv, hl, hA]
  exact hs

theorem Memory.write_padTo_sameOutside (m : Memory) (a n : Nat) (bs : List Byte) :
    m.SameOutside (m.write a (padTo n bs)) a n := by
  have h := m.write_sameOutside a (padTo n bs)
  rwa [padTo_length] at h

/-- A passed scan has met written entries alone. -/
theorem alphaScan_written {seen : List Word} {j : Nat} {es : List (Option Word)}
    (h : alphaScan seen j es = .ok ()) : ∃ A : List Word, es = A.map some := by
  induction es generalizing seen j with
  | nil => exact ⟨[], rfl⟩
  | cons entry es ih =>
    cases entry with
    | none => nomatch h
    | some c =>
      rw [alphaScan] at h
      split at h
      · nomatch h
      · obtain ⟨A, rfl⟩ := ih h
        exact ⟨c :: A, rfl⟩

/-- Entries that are all written are the symbols that stand in memory. -/
theorem holdsWords_of_entries {m : Memory} {a n : Nat} {A : List Word} (h : m.entries a n = A.map some) :
    A.length = n ∧ m.HoldsWords a A := by
  have hl : A.length = n := by simpa [Memory.entries] using (congrArg List.length h).symm
  refine ⟨hl, fun j hj => ?_⟩
  have hget : (m.entries a n)[j]? = (A.map some)[j]? := by rw [h]
  simpa [Memory.entries, hl ▸ hj, hj] using hget

/-- What `ALPHAV` validates is what `ALPHA_VALID` promises (46_base40.md R128). -/
theorem alphabetHeld_of_alphaScan {s : State} (hn : s.alphaLen.toNat = 40)
    (hs : alphaScan [] 0 (s.mem.entries alphaBase 40) = .ok ()) : s.AlphabetHeld := by
  obtain ⟨A, hA⟩ := alphaScan_written hs
  rw [hA, alphaScan_eq_ok] at hs
  exact fun _ => ⟨BitVec.eq_of_toNat_eq hn, A, State.alphabet_eq_ok.2 (holdsWords_of_entries hA), hs.1⟩

/-- The updates of a command keep the promise: all but `ALPHAV` leave the alphabet alone. -/
theorem Updated.alphabetHeld {i : Instr} {s u : State} (h : Updated s i u) (hs : s.AlphabetHeld) :
    u.AlphabetHeld := by
  cases h with
  | nothing _ => exact hs
  | integer v _ => exact hs
  | point r _ => exact hs
  | traced r tr _ _ => exact hs
  | key => exact hs
  | digest d _ =>
    exact hs.of_sameOutside rfl rfl (s.mem.write_padTo_sameOutside digBase Config.digMax d) (.inl (by decide))
  | message m =>
    exact hs.of_sameOutside rfl rfl (s.mem.write_padTo_sameOutside msgBase Config.msgMax m) (.inl (by decide))
  | string w _ =>
    exact hs.of_sameOutside rfl rfl (s.mem.writeWords_sameOutside strBase _) (.inr (by decide))
  | alphabet hn hscan => exact alphabetHeld_of_alphaScan hn hscan

theorem State.afterFailure_alphabetHeld {s : State} (i : Instr) (hs : s.AlphabetHeld) :
    (s.afterFailure i).AlphabetHeld := by
  cases i with
  | alphav => exact alphabetHeld_of_invalid rfl
  | _ => exact hs

theorem Completed.alphabetHeld {i : Instr} {s t : State} (h : Completed i s t) (hs : s.AlphabetHeld) :
    t.AlphabetHeld := by
  cases h with
  | success r hu => exact hu.alphabetHeld hs
  | failure info _ => exact State.afterFailure_alphabetHeld i hs

/-- The store of a location keeps the promise: a word of `DIG`, `MSG` or `STR` is none of `ALPHA`, and a
store to `ALPHA` or `ALPHA_LEN` clears the flag (10_state.md R33). -/
theorem State.store_alphabetHeld {s : State} (a : Addr) (v : Word) (hs : s.AlphabetHeld) :
    (s.store v (locate a)).AlphabetHeld := by
  have word {off : Nat} (ho : off + 4 ≤ 0x800 ∨ 0x8A0 ≤ off) :
      State.AlphabetHeld { s with mem := s.mem.writeWord off v } :=
    hs.of_sameOutside rfl rfl (s.mem.write_sameOutside off (bytesOfWord v)) ho
  cases hl : locate a with
  | alphaLen => exact alphabetHeld_of_invalid rfl
  | alpha off => exact alphabetHeld_of_invalid rfl
  | dig off => exact word (by have := locate_dig hl; omega)
  | msg off => exact word (by have := locate_msg hl; omega)
  | str off => exact word (by have := locate_str hl; omega)
  | big r j =>
    show (s.setBig r _).AlphabetHeld
    rw [State.setBig_frame]
    exact hs
  | _ => exact hs

theorem State.hostWrite_alphabetHeld {s : State} (a : Addr) (v : Word) (hs : s.AlphabetHeld) :
    (s.hostWrite a v).AlphabetHeld :=
  State.hostWrite_keeps (P := State.AlphabetHeld) (alphabetHeld_of_invalid rfl) hs
    (State.store_alphabetHeld a v hs) fun _ _ _ => hs

/-- Settles O58: `ALPHAV` sets the flag where its scan has found the 40 distinct symbols, and whatever else
touches `ALPHA` or its length clears it. -/
theorem stepKeepsTheValidatedAlphabet : Obligations.StepKeepsTheValidatedAlphabet := fun _ _ =>
  step_keeps (P := State.AlphabetHeld) (fun hs h => h.alphabetHeld hs) id State.hostWrite_alphabetHeld
    (fun _ _ _ _ h => h) fun _ _ _ => alphabetHeld_of_invalid rfl

/-! ### The first checks of the commands that need an alphabet -/

/-- A computation whose first check fails completes with that check's error and no other change. -/
theorem conclude_require_false {s : State} {ok : Bool} {e : ErrCode} {info : Word} {f : Unit → Comp State}
    (h : ok = false) :
    ∃ t, s.conclude (require ok e info >>= f) = .next t ∧ Failed t e info ∧ OnlyStatus s t :=
  State.conclude_of_raise (bind_eq_error.2 (.inl (require_eq_error.2 ⟨h, rfl⟩)))

theorem State.multiply_of_invalidAlphabet {s : State} (B : Point) (h : s.alphaValid = false) :
    s.multiply B = .error (.raise .invalidAlphabet 0) := by
  rw [State.multiply, h]; rfl

theorem State.multiply_of_invalidScalar {s : State} (B : Point) (hv : s.alphaValid = true)
    (hk : s.k.toNat = 0 ∨ curveN ≤ s.k.toNat) : s.multiply B = .error (.raise .invalidScalar 0) := by
  have hbad : validScalar s.k.toNat = false := by
    rw [Bool.eq_false_iff, ne_eq, validScalar_iff]; omega
  rw [State.multiply, hv, hbad]; rfl

/-- `SMUL` and `DERIVE` fail as their multiplication fails, and change nothing else. -/
theorem exec_multiplication_fails {s : State} {e : ErrCode} {info : Word}
    (h : ∀ B, s.multiply B = .error (.raise e info)) {i : Instr} (hi : i ∈ [.smul, .derive]) :
    ∃ t, exec i s = .next t ∧ Failed t e info ∧ OnlyStatus s t := by
  simp only [List.mem_cons, List.not_mem_nil, or_false] at hi
  rcases hi with rfl | rfl
  · exact State.conclude_of_raise (bind_eq_error.2 (.inl (h _)))
  · exact State.conclude_of_raise (bind_eq_error.2 (.inl (h _)))

/-- Settles O26: the alphabet's check comes first in each of the five, the scalar's next in the two. -/
theorem alphabetIsCheckedBeforeTheScalar : Obligations.AlphabetIsCheckedBeforeTheScalar := by
  refine ⟨fun s tl hv i hi => ?_, fun s hv hk i hi =>
    exec_multiplication_fails (fun B => State.multiply_of_invalidScalar B hv hk) hi⟩
  by_cases hm : i ∈ [Instr.smul, .derive]
  · exact exec_multiplication_fails (fun B => State.multiply_of_invalidAlphabet B hv) hm
  · simp only [List.mem_cons, List.not_mem_nil, or_false, not_or] at hi hm
    obtain ⟨hsmul, hderive⟩ := hm
    rcases hi with hi | hi | rfl | rfl | rfl
    · exact absurd hi hsmul
    · exact absurd hi hderive
    · exact conclude_require_false hv
    · exact conclude_require_false hv
    · exact conclude_require_false hv

end Sys2Proof.Machine

/-! The words of the 256-bit registers and of the buffers as the host reads and writes them. -/

namespace Sys2Proof.Machine

/-! ### The words of a 256-bit register (20_memory.md R50) -/

/-- The `n` digits of `v` in base `b`, most significant first, make `v` up to a multiple of `b ^ n`. -/
theorem sum_digits_eq_mod (v b n : Nat) :
    ((List.range n).map fun j => v / b ^ (n - 1 - j) % b * b ^ (n - 1 - j)).sum = v % b ^ n := by
  induction n with
  | zero => simp [Nat.mod_one]
  | succ n ih =>
    have shift (j : Nat) : n + 1 - 1 - (j + 1) = n - 1 - j := by omega
    rw [List.range_succ_eq_map, List.map_cons, List.map_map, List.sum_cons, Nat.mod_pow_succ, ← ih]
    simp only [Function.comp_def, Nat.succ_eq_add_one, shift]
    rw [Nat.add_sub_cancel, Nat.sub_zero, Nat.add_comm, Nat.mul_comm (b ^ n)]

/-- The eight words of a register, the first the most significant, make its value. -/
theorem sum_bigWord (v : Big) :
    ((List.range 8).map fun j => (bigWord v j).toNat * 2 ^ (32 * (7 - j))).sum = v.toNat := by
  calc ((List.range 8).map fun j => (bigWord v j).toNat * 2 ^ (32 * (7 - j))).sum
      = ((List.range 8).map fun j => v.toNat / (2 ^ 32) ^ (8 - 1 - j) % 2 ^ 32 * (2 ^ 32) ^ (8 - 1 - j)).sum := by
        refine congrArg List.sum (List.map_congr_left fun j hj => ?_)
        rw [← bigWord_toNat_of_lt v (List.mem_range.1 hj), pow_mul]
    _ = v.toNat % (2 ^ 32) ^ 8 := sum_digits_eq_mod _ _ 8
    _ = v.toNat := Nat.mod_eq_of_lt v.isLt

/-- While idle a word of a 256-bit register reads as the register has it. -/
theorem State.rdata_bigReg {s : State} (hb : s.busy = false) (r : BigReg) {j : Nat} (hj : j < 8) :
    (s.hostRead (wordAddr (r.offset + 4 * j))).rdata = bigWord (s.big r) j :=
  State.rdata_idle hb (locate_bigReg r hj) rfl

theorem TraceRecord.word_x (r : TraceRecord) {j : Nat} (hj : j < 8) : r.word (4 + j) = bigWord r.x j := by
  interval_cases j <;> rfl

theorem TraceRecord.word_y (r : TraceRecord) {j : Nat} (hj : j < 8) : r.word (12 + j) = bigWord r.y j := by
  interval_cases j <;> rfl

/-- Settles O48: a register's word is the one its location holds, `X` and `Y` are words 4 to 11 and 12 to 19 of
a record, and the eight words are the value's digits in base `2 ^ 32`. -/
theorem registerWordsAreBigEndian : Obligations.RegisterWordsAreBigEndian := by
  intro s hb read
  refine ⟨fun row hrow => ?registers, fun i r hv hi hr j hj => ?records⟩
  case registers =>
    obtain ⟨r, rfl⟩ := mem_wideRegisters.1 hrow
    have word {j : Nat} (hj : j < 8) : read (r.offset + 4 * j) = (bigWord (s.big r) j).toNat :=
      congrArg BitVec.toNat (State.rdata_bigReg hb r hj)
    refine ⟨fun j hj => (word hj).trans (bigWord_toNat_of_lt _ hj).symm, (sum_bigWord (s.big r)).symm.trans ?_⟩
    exact congrArg List.sum (List.map_congr_left fun j hj => by rw [word (List.mem_range.1 hj)])
  case records =>
    have word {w : Nat} (hw : w < 20) : read (0x4000 + 80 * i + 4 * w) = (r.word w).toNat :=
      congrArg BitVec.toNat (State.rdata_record hb hv hi hr hw)
    rw [bigWord_toNat_of_lt _ hj, bigWord_toNat_of_lt _ hj, ← r.word_x hj, ← r.word_y hj,
      ← word (by omega), ← word (by omega)]
    constructor <;> congr 1 <;> omega

/-! ### The words of the buffers (20_memory.md R47, R51, R52, R56) -/

/-- The byte offsets of the four buffers in the window. -/
def InBuffer (off : Nat) : Prop :=
  (0x200 ≤ off ∧ off < 0x220) ∨ (0x400 ≤ off ∧ off < 0x480) ∨ (0x800 ≤ off ∧ off < 0x900) ∨
    (0x1000 ≤ off ∧ off < 0x1400)

/-- The words of the four buffers at byte offset `off`. -/
def bufferWords (off : Nat) : List Location := [.dig off, .msg off, .alpha off, .str off]

/-- Every aligned offset of a buffer selects a word of that buffer. -/
theorem locate_buffer {off : Nat} (h4 : off % 4 = 0) (h : InBuffer off) :
    ∃ l ∈ bufferWords off,
      locate (wordAddr off) = l ∧ (l = .alpha off ↔ 0x800 ≤ off ∧ off < 0x900) := by
  obtain ⟨hlow, hhigh⟩ : 0x200 ≤ off ∧ off < 0x1400 := by unfold InBuffer at h; omega
  rw [locate_wordAddr (by omega) h4, locateOffset_eq, if_neg (by omega), if_neg (by omega), if_neg (by omega)]
  rcases h with hd | hm | ha | hs
  · exact ⟨.dig off, by simp [bufferWords], if_pos hd, by simp; omega⟩
  · exact ⟨.msg off, by simp [bufferWords], by rw [if_neg (by omega), if_pos hm], by simp; omega⟩
  · exact ⟨.alpha off, by simp [bufferWords], by rw [if_neg (by omega), if_neg (by omega), if_pos ha], by simp [ha]⟩
  · exact ⟨.str off, by simp [bufferWords], by rw [if_neg (by omega), if_neg (by omega), if_neg (by omega), if_pos hs],
      by simp; omega⟩

/-- A word of a buffer holds what memory has there. -/
theorem State.held_buffer (s : State) {l : Location} {off : Nat}
    (hl : l ∈ bufferWords off) : s.held l = s.mem.readWord off := by
  simp only [bufferWords, List.mem_cons, List.not_mem_nil, or_false] at hl
  rcases hl with rfl | rfl | rfl | rfl <;> rfl

/-- While idle a write of a buffer word stores it, and one of `ALPHA` also clears `ALPHA_VALID`
(10_state.md R33). -/
theorem State.hostWrite_buffer {s : State} {a : Addr} {l : Location} {off : Nat} (v : Word)
    (hb : s.busy = false) (ha : locate a = l)
    (hl : l ∈ bufferWords off) :
    s.hostWrite a v = { s with
      mem := s.mem.writeWord off v
      alphaValid := if l = .alpha off then false else s.alphaValid } := by
  simp only [bufferWords, List.mem_cons, List.not_mem_nil, or_false] at hl
  rcases hl with rfl | rfl | rfl | rfl <;>
    rw [State.hostWrite_idle v hb ha rfl (by simp)] <;> simp [State.store]

/-- Byte `i` of a word, bits [31:24] first (R51). -/
theorem bytesOfWord_getElem_toNat (w : Word) {i : Nat} (hi : i < 4) :
    ((bytesOfWord w)[i]'(by simpa using hi)).toNat = w.toNat / 2 ^ (24 - 8 * i) % 256 := by
  interval_cases i <;> simp [bytesOfWord, BitVec.extractLsb'_toNat, Nat.shiftRight_eq_div_pow]

/-- The four bytes of a stored word. -/
theorem Memory.read_writeWord_toNat (m : Memory) (a : Nat) (w : Word) {i : Nat} (hi : i < 4) :
    ((m.writeWord a w).read (a + i)).map (·.toNat) = some (w.toNat / 2 ^ (24 - 8 * i) % 256) := by
  rw [Memory.writeWord, Memory.read_write_inside _ _ _ _ (by simpa using hi), Option.map_some,
    bytesOfWord_getElem_toNat w hi]

/-- Settles O50: the offset selects a word of a buffer, whose store is a store of its four bytes. -/
theorem bufferWordWriteReadsBack : Obligations.BufferWordWriteReadsBack := by
  intro s v off hb h4 hoff
  obtain ⟨l, hl, hloc, halpha⟩ := locate_buffer h4 hoff
  dsimp only
  rw [State.hostWrite_buffer v hb hloc hl]
  refine ⟨?readBack, fun i hi => s.mem.read_writeWord_toNat off v hi,
    s.mem.write_sameOutside off (bytesOfWord v), ?frame⟩
  case readBack =>
    refine State.rdata_idle hb hloc ?_
    rw [State.held_buffer _ hl]
    exact s.mem.readWord_writeWord off v
  case frame => simp only [halpha]

end Sys2Proof.Machine

/-! SUPPORT. The encoding (30_encoding.md): decoder, encoder and opcode map agree, and what becomes of an
illegal word. -/

namespace Sys2Proof

/-! ### Decoder, encoder and opcode map (R63–R68) -/

/-- The encoder picks a row of the decoder: every command is written as the opcode that selects it, with its
operand in `ARG`, which is 0 where the row does not use it. -/
theorem encode_eq_wordOf (i : Instr) : ∃ op arg used, encode i = wordOf op arg ∧
    opcodeRow op arg = some (i, used) ∧ (arg = 0 ∨ used = true) := by
  cases i with
  | b58chk version => exact ⟨0x41, version, true, rfl, rfl, .inr rfl⟩
  | b40h target => exact ⟨0x53, target, true, rfl, rfl, .inr rfl⟩
  | _ => exact ⟨_, 0, false, rfl, rfl, .inl rfl⟩

/-- The three checks of R66 as one row of the opcode map, since an opcode has one row. -/
theorem wordLegal_iff {w : Word} : wordLegal w = true ↔ ∃ used, (opcodeField w, used) ∈ opcodeMap ∧
    rsvField w = 0 ∧ (argField w = 0 ∨ used = true) := by
  have checks : wordLegal w = true ↔ ((∃ used, (opcodeField w, used) ∈ opcodeMap) ∧ rsvField w = 0) ∧
      (argField w = 0 ∨ (opcodeField w, true) ∈ opcodeMap) := by
    simp [wordLegal, opcodeAssigned, rsvZero, argAllowed, opcodeField, argField, rsvField]
  rw [checks]
  constructor
  · rintro ⟨⟨⟨used, hrow⟩, hrsv⟩, harg⟩
    exact ⟨used, hrow, hrsv, harg.imp_right fun htrue => opcodeMap_unique hrow htrue⟩
  · rintro ⟨used, hrow, hrsv, harg⟩
    exact ⟨⟨⟨used, hrow⟩, hrsv⟩, harg.imp_right fun hused : used = true => hused ▸ hrow⟩

theorem exists_decode_eq_ok_iff {w : Word} : (∃ i, decode w = .ok i) ↔ wordLegal w = true := by
  rw [wordLegal_iff]
  constructor
  · rintro ⟨i, hi⟩
    obtain ⟨used, hrow, hchecks⟩ := decode_eq_ok.1 hi
    exact ⟨used, (opcodeRow_eq_some hrow).1, hchecks⟩
  · rintro ⟨used, hrow, hchecks⟩
    obtain ⟨i, hi⟩ := opcodeRow_of_mem hrow
    exact ⟨i, decode_eq_ok.2 ⟨used, hi, hchecks⟩⟩

theorem exists_decode_eq_error {w : Word} (h : wordLegal w = false) : ∃ e, decode w = .error e := by
  cases hw : decode w with
  | error e => exact ⟨e, rfl⟩
  | ok i => simp [exists_decode_eq_ok_iff.1 ⟨i, hw⟩] at h

/-- Settles O1: the encoder's row is the one the decoder finds in the fields of the word. -/
theorem decodeOfEncodeIsTheCommand : Obligations.DecodeOfEncodeIsTheCommand := by
  intro i
  obtain ⟨op, arg, used, hword, hrow, harg⟩ := encode_eq_wordOf i
  rw [hword, decode_eq_ok, opcodeField_wordOf, argField_wordOf, rsvField_wordOf]
  exact ⟨used, hrow, rfl, harg⟩

/-- Settles O2: what the encoder leaves out of a decoded word, `RSV` and an unused `ARG`, is 0 in it. -/
theorem encodeOfDecodedWordIsTheWord : Obligations.EncodeOfDecodedWordIsTheWord := by
  intro w i h
  obtain ⟨used, hrow, hrsv, harg⟩ := decode_eq_ok.1 h
  have hunused : (if used then argField w else 0) = argField w := by
    rcases harg with h0 | hused
    · rw [h0, ite_self]
    · rw [if_pos hused]
  calc encode i = wordOf (opcodeField w) (argField w) := by rw [(opcodeRow_eq_some hrow).2, hunused]
    _ = rsvField w ++ argField w ++ opcodeField w := by rw [hrsv]; rfl
    _ = w := (word_fields w).symm

/-- Settles O3: the rows of the decoder are the rows of the opcode map, under the same checks. -/
theorem decodeAcceptsExactlyTheLegalWords : Obligations.DecodeAcceptsExactlyTheLegalWords := by
  intro w
  refine ⟨exists_decode_eq_ok_iff, fun hne i hi => ?_⟩
  obtain ⟨_, -, hrsv, -⟩ := decode_eq_ok.1 hi
  exact hne hrsv

end Sys2Proof

namespace Sys2Proof.Machine

/-! ### Illegal words (R67, R68, R144) -/

theorem State.hostWrite_cmdAddr {s : State} (v : Word) (hb : s.busy = false) :
    s.hostWrite cmdAddr v = s.issue v := by
  simp [State.hostWrite, hb, Location.readOnly]

/-- The completion of an illegal word that runs. -/
theorem step_of_decode_error {s : State} {e : DecodeError} (hb : s.busy = true) (hl : s.latencyLeft = 0)
    (he : decode s.lastcmd = .error e) : step s = .next s.illegal := by
  simp only [step, State.due_eq_some.2 ⟨hb, hl, rfl⟩, he]

/-- Settles O7: a word that is not legal decodes to an error, whose completion is `State.illegal`. -/
theorem illegalWordCompletesWithIllegalCommand : Obligations.IllegalWordCompletesWithIllegalCommand := by
  intro s v hv
  constructor
  · intro hb
    rw [State.hostWrite_cmdAddr v hb]
    exact ⟨State.issue_busy s v, State.issue_lastcmd s v⟩
  · obtain ⟨e, he⟩ := exists_decode_eq_error hv
    exact ⟨(s.issuedDue v).illegal, step_of_decode_error rfl rfl he,
      (s.issuedDue v).failed_fail .illegalCommand v, (s.issuedDue v).onlyStatus_fail .illegalCommand v⟩

end Sys2Proof.Machine

/-! The field unit: what its results are as numbers, and how its four commands complete (41_field.md). -/

namespace Sys2Proof.Machine

/-! ### The inverse and the power, rule by rule (R76, R77) -/

theorem inv_of_dvd {k : Int} (info : Word) (hk : k % (curveP : Int) = 0) :
    inv info k = .error (.raise .divisionByZero info) :=
  inv_eq_error.2 ⟨fred_eq_zero.2 hk, rfl⟩

theorem inv_of_not_dvd {k : Int} (info : Word) (hk : k % (curveP : Int) ≠ 0) :
    inv info k = .ok (fred k ^ (curveP - 2) % curveP) := by
  rcases inv_cases info k with ⟨h0, -⟩ | ⟨-, hi⟩
  · exact absurd (fred_eq_zero.1 h0) hk
  · rw [hi, modPow_eq (by decide) (by decide)]

/-- What the inverse answers is the inverse modulo `p`: it is the inverse of the field. -/
theorem mul_emod_of_inv_eq_ok {info : Word} {k : Int} {r : Nat} (h : inv info k = .ok r) :
    k * r % (curveP : Int) = 1 := by
  have := fact_curveP
  obtain ⟨hk, hr⟩ := cast_inv h
  have hone : ((k * r : Int) : Fp) = ((1 : Int) : Fp) := by
    rw [Int.cast_mul, Int.cast_natCast, hr, mul_inv_cancel₀ hk, Int.cast_one]
  exact (ZMod.intCast_eq_intCast_iff' _ _ curveP).1 hone

theorem pos_of_inv_eq_ok {info : Word} {k : Int} {r : Nat} (h : inv info k = .ok r) : 1 ≤ r := by
  refine Nat.one_le_iff_ne_zero.2 fun h0 => ?_
  have hone := mul_emod_of_inv_eq_ok h
  simp [h0] at hone

theorem lt_of_inv_eq_ok {info : Word} {k : Int} {r : Nat} (h : inv info k = .ok r) : r < curveP := by
  rcases inv_cases info k with ⟨-, hi⟩ | ⟨-, hi⟩ <;> rw [hi] at h
  · nomatch h
  · exact Except.ok.inj h ▸ modPow_lt (by decide)

theorem modexp_zero (b e : Nat) : modexp b e 0 = .error (.raise .invalidModulus 0) := rfl

theorem modexp_of_ne_zero {b e m : Nat} (hm : m ≠ 0) (he : e < 2 ^ 256) : modexp b e m = .ok (b ^ e % m) := by
  rw [modexp, if_neg hm, modPow_eq hm he]

/-- The multiples of `p` a register can hold (R85): `2 p` is past the width. -/
theorem toNat_emod_curveP_eq_zero_iff (v : Big) :
    (v.toNat : Int) % (curveP : Int) = 0 ↔ v.toNat = 0 ∨ v.toNat = curveP := by
  have hv := v.isLt
  rw [curveP]; omega

/-! ### A command that writes `RES` -/

/-- A computation of a 256-bit integer that is written to `RES` completes with success and that integer. -/
theorem State.conclude_putRes {s : State} {c : Comp Nat} {v : Nat} (h : c = .ok v) (hv : v < 2 ^ 256) :
    ∃ t, s.conclude (c >>= fun r => .ok (s.putRes r)) = .next t ∧ Succeeded t false ∧
      OnlyStatus { s with res := t.res } t ∧ t.res.toNat = v :=
  ⟨(s.putRes v).succeed false, State.conclude_of_ok (bind_eq_ok.2 ⟨v, h, rfl⟩), State.succeeded_succeed _ false,
    rfl, by rw [State.succeed_res, State.putRes_res, BitVec.toNat_ofNat, Nat.mod_eq_of_lt hv]⟩

/-- A computation that raises an error before `RES` is written completes with it and no other change. -/
theorem State.conclude_putRes_of_raise {s : State} {c : Comp Nat} {e : ErrCode} {info : Word}
    (h : c = .error (.raise e info)) :
    ∃ t, s.conclude (c >>= fun r => .ok (s.putRes r)) = .next t ∧ Failed t e info ∧ OnlyStatus s t :=
  State.conclude_of_raise (bind_eq_error.2 (.inl h))

/-! ### The status a success shows -/

/-- The `STATUS` word of a success that follows the issue of a command, with no trace and no alphabet:
`DONE` alone. -/
theorem State.statusWord_succeed_issue {s : State} (v : Word) (ht : s.traceValid = false)
    (ha : s.alphaValid = false) : ((s.issue v).succeed false).statusWord = 2 :=
  BitVec.eq_of_toNat_eq <| by simp [State.statusWord_toNat, ErrCode.code, ht, ha]

/-! ### The statements -/

/-- Settles O18: the answer is the Fermat power, which is the inverse of the field. -/
theorem inverseIsTheFermatPower : Obligations.InverseIsTheFermatPower := by
  intro info k
  refine ⟨inv_of_dvd info, fun hk => ?_⟩
  have hr := inv_of_not_dvd info hk
  exact ⟨_, hr, pos_of_inv_eq_ok hr, lt_of_inv_eq_ok hr, mul_emod_of_inv_eq_ok hr, rfl⟩

/-- Settles O19: the operand is a multiple of `p` exactly at 0 and `p`; any other has the inverse of O18. -/
theorem modinvWritesTheInverse : Obligations.ModinvWritesTheInverse := by
  refine ⟨by decide, fun s => ⟨fun ⟨h0, hp⟩ => ?_, fun h => ?_⟩⟩
  · have hk : (s.opa.toNat : Int) % (curveP : Int) ≠ 0 := fun h =>
      ((toNat_emod_curveP_eq_zero_iff s.opa).1 h).elim h0 hp
    obtain ⟨r, hr, hpos, hlt, hone, -⟩ := (inverseIsTheFermatPower 0 s.opa.toNat).2 hk
    obtain ⟨t, ht, hok, hframe, hres⟩ := State.conclude_putRes (s := s) hr (hlt.trans (by decide))
    refine ⟨t, ht, hok, hframe, hres ▸ hpos, hres ▸ hlt, ?_⟩
    rw [hres]
    exact_mod_cast hone
  · exact State.conclude_putRes_of_raise (inv_of_dvd 0 ((toNat_emod_curveP_eq_zero_iff s.opa).2 h))

/-- Settles O20: square and multiply is the power, and a power modulo a register's value fits a register. -/
theorem modexpWritesThePower : Obligations.ModexpWritesThePower := by
  refine ⟨by decide, fun s => ⟨fun hm => ?_, fun hm => ?_⟩⟩
  · have hlt : s.opa.toNat ^ s.opb.toNat % s.opm.toNat < 2 ^ 256 :=
      (Nat.mod_lt _ (Nat.pos_of_ne_zero hm)).trans s.opm.isLt
    exact State.conclude_putRes (modexp_of_ne_zero hm s.opb.isLt) hlt
  · exact State.conclude_putRes_of_raise (hm ▸ modexp_zero _ _)

/-- Settles O16: `NOP` has no updates, so its completion is success and nothing else. -/
theorem nopChangesOnlyStatus : Obligations.NopChangesOnlyStatus := by
  refine ⟨by decide, fun s => ⟨s.succeed false, rfl, s.succeeded_succeed false, s.onlyStatus_succeed false⟩,
    fun s hb ht ha => ?_⟩
  rw [State.hostWrite_cmdAddr _ hb]
  exact ⟨_, rfl, State.statusWord_succeed_issue _ ht ha⟩

/-- Settles O17: the residue is a number below `p`, the modulus of the statement. -/
theorem fredWritesTheResidue : Obligations.FredWritesTheResidue := by
  refine ⟨by decide, fun s => ?_⟩
  have hfred : fred s.opa.toNat = s.opa.toNat % (2 ^ 256 - 2 ^ 32 - 977) := fred_natCast _
  rw [← hfred]
  exact State.conclude_putRes (s := s) rfl (fred_lt_word _)

end Sys2Proof.Machine

/-! The point unit: the curve congruence and the chord and tangent formulas over the field, what each point
operation answers rule by rule, and how its four commands complete (42_curve.md). -/

namespace Sys2Proof.Machine

/-! ### Point registers (10_state.md R22) -/

theorem PointReg.pt_of_inf {r : PointReg} (h : r.inf = true) : r.pt = .inf := if_pos h

theorem PointReg.pt_of_affine {r : PointReg} (h : r.inf = false) : r.pt = .aff r.x r.y := by
  simp [PointReg.pt, h]

/-- What a register holds once its point is written back: `INF` with zero coordinates (R23). -/
theorem PointReg.toReg_pt (r : PointReg) : r.pt.toReg = if r.inf then { inf := true, x := 0, y := 0 } else r := by
  obtain ⟨inf, x, y⟩ := r
  cases inf <;> rfl

/-! ### Congruences as equations of the field -/

theorem cast_eq_zero_iff {v : Int} : (v : Fp) = 0 ↔ v % (curveP : Int) = 0 :=
  (ZMod.intCast_zmod_eq_zero_iff_dvd v curveP).trans Int.dvd_iff_emod_eq_zero

theorem Point.onCurve_aff_iff {x y : Big} :
    (Point.aff x y).OnCurve ↔ (y.toNat : Fp) ^ 2 = (x.toNat : Fp) ^ 3 + 7 := by
  rw [Point.OnCurve, ← cast_eq_zero_iff]
  push_cast
  exact sub_eq_zero

/-- What the point unit tests is the curve congruence (R88). -/
theorem onCurve_iff {P : Point} : onCurve P = true ↔ P.OnCurve := by
  cases P with
  | inf => exact iff_of_true rfl trivial
  | aff x y => simp [onCurve, Point.OnCurve, curveA, curveB, fred_eq_zero]

/-! ### The slope and the third point of a line (R89, R90) -/

/-- The slope that the inverse gives solves its equation: it is the quotient of the field. -/
theorem cast_slope {info : Word} {c d : Int} {i : Nat} (h : inv info d = .ok i) :
    ((fred (c * i) : Nat) : Fp) * d = c := by
  have := fact_curveP
  obtain ⟨hd, hi⟩ := cast_inv h
  rw [cast_fred, Int.cast_mul, Int.cast_natCast, hi, inv_mul_cancel_right₀ hd]

theorem slope_emod {info : Word} {c d : Int} {i : Nat} (h : inv info d = .ok i) :
    ((fred (c * i) : Nat) * d - c) % (curveP : Int) = 0 := by
  rw [← cast_eq_zero_iff, Int.cast_sub, Int.cast_mul, Int.cast_natCast, cast_slope h, sub_self]

theorem slopeResult_x (m x1 y1 x2 : Int) :
    ((slopeResult m x1 y1 x2).toReg.x.toNat : Int) = (m ^ 2 - x1 - x2) % curveP := by
  rw [slopeResult, Point.toReg, toNat_fred, fred_eq]

theorem slopeResult_y (m x1 y1 x2 : Int) : ((slopeResult m x1 y1 x2).toReg.y.toNat : Int) =
    (m * (x1 - (slopeResult m x1 y1 x2).toReg.x.toNat) - y1) % curveP := by
  simp only [slopeResult, Point.toReg, toNat_fred, fred_eq]

theorem slopeResult_onCurve_iff {m x1 y1 x2 : Int} : (slopeResult m x1 y1 x2).OnCurve ↔
    ((m : Fp) * (x1 - (m ^ 2 - x1 - x2)) - y1) ^ 2 = ((m : Fp) ^ 2 - x1 - x2) ^ 3 + 7 := by
  rw [slopeResult, Point.onCurve_aff_iff, toNat_fred, toNat_fred, cast_fred, cast_fred]
  push_cast
  rw [cast_fred]
  push_cast
  rfl

/-- The tangent at a point of the curve meets it again in the third point: `x` is a double root. -/
theorem tangent_onCurve {m x y : Fp} (hc : y ^ 2 = x ^ 3 + 7) (hm : m * (2 * y) = 3 * x ^ 2) :
    (m * (x - (m ^ 2 - x - x)) - y) ^ 2 = (m ^ 2 - x - x) ^ 3 + 7 := by
  linear_combination hc - (x - (m ^ 2 - x - x)) * hm

/-- The chord through two points of the curve with distinct `x` meets it again in the third point: the line's
difference to the curve, less the product over the three roots, is linear and vanishes at two of them. -/
theorem chord_onCurve [Fact curveP.Prime] {m x1 y1 x2 y2 : Fp} (hx : x2 - x1 ≠ 0)
    (h1 : y1 ^ 2 = x1 ^ 3 + 7) (h2 : y2 ^ 2 = x2 ^ 3 + 7) (hm : m * (x2 - x1) = y2 - y1) :
    (m * (x1 - (m ^ 2 - x1 - x2)) - y1) ^ 2 = (m ^ 2 - x1 - x2) ^ 3 + 7 := by
  refine mul_right_cancel₀ hx ?_
  linear_combination (x2 - (m ^ 2 - x1 - x2)) * h1 +
    ((m ^ 2 - x1 - x2) - x1) * (h2 + (m * (x2 - x1) + y1 + y2) * hm)

/-! ### Doubling and addition, rule by rule -/

theorem pdbl_of_y_eq_zero (info : Word) {x y : Big} (hy : y = 0) : pdbl info (.aff x y) = .ok .inf := by
  rw [pdbl, if_pos hy]

/-- The doubled coordinates a register can hold with the zero residue: `p` is odd. -/
theorem fred_two_mul_eq_zero_iff (y : Big) :
    fred (2 * (y.toNat : Int)) = 0 ↔ y.toNat = 0 ∨ y.toNat = curveP := by
  have hodd : IsCoprime (curveP : Int) 2 :=
    Nat.isCoprime_iff_coprime.2 ((Nat.coprime_primes curveP_prime Nat.prime_two).2 (by decide))
  rw [fred_eq_zero_iff_dvd, ← toNat_emod_curveP_eq_zero_iff, ← Int.dvd_iff_emod_eq_zero]
  exact ⟨hodd.dvd_of_dvd_mul_left, fun h => h.mul_left 2⟩

theorem pdbl_of_y_eq_curveP (info : Word) {x y : Big} (hy : y.toNat = curveP) :
    pdbl info (.aff x y) = .error (.raise .divisionByZero info) := by
  have hne : y ≠ 0 := by
    rintro rfl
    exact absurd hy (by decide)
  rcases pdbl_aff_cases info x y with ⟨h0, -⟩ | ⟨-, -, hp⟩ | ⟨-, hf, -⟩
  · exact absurd h0 hne
  · exact hp
  · exact absurd ((fred_two_mul_eq_zero_iff y).2 (.inr hy)) hf

/-- Every other doubling takes the tangent, whose slope solves its equation modulo `p`. -/
theorem pdbl_tangent (info : Word) {x y : Big} (h0 : y.toNat ≠ 0) (hp : y.toNat ≠ curveP) :
    ∃ m : Nat, m < curveP ∧ ((m : Int) * (2 * y.toNat) - 3 * (x.toNat : Int) ^ 2) % (curveP : Int) = 0 ∧
      pdbl info (.aff x y) = .ok (slopeResult m x.toNat y.toNat x.toNat) := by
  rcases pdbl_aff_cases info x y with ⟨hy, -⟩ | ⟨-, hf, -⟩ | ⟨-, -, i, hi, hp⟩
  · exact absurd (congrArg BitVec.toNat hy) h0
  · exact absurd ((fred_two_mul_eq_zero_iff y).1 hf) (not_or.2 ⟨h0, hp⟩)
  · exact ⟨_, fred_lt _, by simpa [curveA] using slope_emod hi, hp⟩

theorem padd_of_opposite (info : Word) {x1 y1 x2 y2 : Big} (hx : x1 = x2) (hy : y1 ≠ y2) :
    padd info (.aff x1 y1) (.aff x2 y2) = .ok .inf := by
  rw [padd, if_pos ⟨hx, hy⟩]

/-- Equal points double. -/
theorem padd_self (info : Word) (P : Point) : padd info P P = pdbl info P := by
  cases P with
  | inf => rfl
  | aff x y => simp [padd]

/-- Points whose `x` differ modulo `p` have a chord, whose slope solves its equation modulo `p`. -/
theorem padd_chord (info : Word) {x1 y1 x2 y2 : Big} (h : ((x2.toNat : Int) - x1.toNat) % (curveP : Int) ≠ 0) :
    ∃ m : Nat, m < curveP ∧
      ((m : Int) * (x2.toNat - x1.toNat) - (y2.toNat - y1.toNat)) % (curveP : Int) = 0 ∧
      padd info (.aff x1 y1) (.aff x2 y2) = .ok (slopeResult m x1.toNat y1.toNat x2.toNat) := by
  have hne : x1 ≠ x2 := by
    rintro rfl
    exact h (by rw [sub_self, Int.zero_emod])
  rcases padd_aff_cases info x1 y1 x2 y2 with ⟨hx, -⟩ | ⟨hx, -⟩ | ⟨-, hf, -⟩ | ⟨-, -, i, hi, hp⟩
  · exact absurd hx hne
  · exact absurd hx hne
  · exact absurd (fred_eq_zero.1 hf) h
  · exact ⟨_, fred_lt _, slope_emod hi, hp⟩

/-- Distinct coordinates with one residue have no chord. -/
theorem padd_of_x_congruent (info : Word) {x1 y1 x2 y2 : Big} (hne : x1 ≠ x2)
    (h : ((x2.toNat : Int) - x1.toNat) % (curveP : Int) = 0) :
    padd info (.aff x1 y1) (.aff x2 y2) = .error (.raise .divisionByZero info) := by
  rcases padd_aff_cases info x1 y1 x2 y2 with ⟨hx, -⟩ | ⟨hx, -⟩ | ⟨-, -, hp⟩ | ⟨-, hf, -⟩
  · exact absurd hx hne
  · exact absurd hx hne
  · exact hp
  · exact absurd (fred_eq_zero.2 h) hf

/-! ### The curve is closed under both operations (R108) -/

theorem pdbl_onCurve {info : Word} {P R : Point} (h : pdbl info P = .ok R) (hP : P.OnCurve) : R.OnCurve := by
  cases P with
  | inf => exact Except.ok.inj h ▸ hP
  | aff x y =>
    rcases pdbl_aff_cases info x y with ⟨-, hp⟩ | ⟨-, -, hp⟩ | ⟨-, -, i, hi, hp⟩ <;> rw [hp] at h
    · exact Except.ok.inj h ▸ trivial
    · nomatch h
    · obtain rfl := Except.ok.inj h
      have hm := cast_slope (c := 3 * (x.toNat : Int) ^ 2 + curveA) hi
      rw [slopeResult_onCurve_iff]
      push_cast [curveA] at hm ⊢
      exact tangent_onCurve (Point.onCurve_aff_iff.1 hP) (by rw [hm, add_zero])

theorem padd_onCurve {info : Word} {P Q R : Point} (h : padd info P Q = .ok R) (hP : P.OnCurve)
    (hQ : Q.OnCurve) : R.OnCurve := by
  cases P with
  | inf =>
    rw [padd_inf_left] at h
    exact Except.ok.inj h ▸ hQ
  | aff x1 y1 =>
    cases Q with
    | inf =>
      rw [padd_inf_right] at h
      exact Except.ok.inj h ▸ hP
    | aff x2 y2 =>
      rcases padd_aff_cases info x1 y1 x2 y2 with ⟨-, -, hp⟩ | ⟨-, -, hp⟩ | ⟨-, -, hp⟩ | ⟨-, -, i, hi, hp⟩ <;>
        rw [hp] at h
      · exact Except.ok.inj h ▸ trivial
      · exact pdbl_onCurve h hP
      · nomatch h
      · obtain rfl := Except.ok.inj h
        have := fact_curveP
        obtain ⟨hx, -⟩ := cast_inv hi
        have hm := cast_slope (c := (y2.toNat : Int) - y1.toNat) hi
        rw [slopeResult_onCurve_iff]
        push_cast at hx hm ⊢
        exact chord_onCurve hx (Point.onCurve_aff_iff.1 hP) (Point.onCurve_aff_iff.1 hQ) hm

/-! ### A command that writes `PR` -/

/-- A computation of a point completes with success and that point in `PR`. -/
theorem State.conclude_putPR {s : State} {c : Comp Point} {R : Point} (h : c = .ok R) :
    ∃ t, s.conclude (c >>= fun r => .ok (s.putPR r)) = .next t ∧ Succeeded t false ∧
      OnlyStatus { s with pr := t.pr } t ∧ t.pr = R.toReg :=
  ⟨(s.putPR R).succeed false, State.conclude_of_ok (bind_eq_ok.2 ⟨R, h, rfl⟩), State.succeeded_succeed _ false,
    rfl, rfl⟩

/-- A computation that raises an error before `PR` is written completes with it and no other change. -/
theorem State.conclude_putPR_of_raise {s : State} {c : Comp Point} {e : ErrCode} {info : Word}
    (h : c = .error (.raise e info)) :
    ∃ t, s.conclude (c >>= fun r => .ok (s.putPR r)) = .next t ∧ Failed t e info ∧ OnlyStatus s t :=
  State.conclude_of_raise (bind_eq_error.2 (.inl h))

/-- A completion without error has written the computation's point. -/
theorem State.pr_of_conclude_putPR {s t : State} {c : Comp Point}
    (h : s.conclude (c >>= fun r => .ok (s.putPR r)) = .next t) (he : t.errFlag = false) :
    ∃ R, c = .ok R ∧ t.pr = R.toReg := by
  rcases State.conclude_eq_next.1 h with ⟨u, hu, rfl⟩ | ⟨e, info, -, rfl⟩
  · obtain ⟨R, hR, hu⟩ := bind_eq_ok.1 hu
    exact ⟨R, hR, congrArg State.pr (Except.ok.inj hu).symm⟩
  · simp at he

/-! ### The statements -/

/-- Settles O21: the test is the curve congruence, and it is all the completion reports. -/
theorem oncurveReportsTheCongruence : Obligations.OncurveReportsTheCongruence := by
  refine ⟨by decide, fun s => ⟨_, onCurve s.p1.pt, rfl, s.succeeded_succeed _, s.onlyStatus_succeed _, ?_⟩⟩
  rw [onCurve_iff]
  cases hinf : s.p1.inf with
  | true => simp [PointReg.pt_of_inf hinf, Point.OnCurve]
  | false => simp [PointReg.pt_of_affine hinf, Point.OnCurve]

/-- Settles O22: the cases of the doubling of `P1`, the tangent's slope as a quotient of the field. -/
theorem pdblWritesTheTangentResult : Obligations.PdblWritesTheTangentResult := by
  refine ⟨by decide, fun s => ⟨fun h => ?_, fun ⟨hinf, hp⟩ => ?_, fun ⟨hinf, h0, hp⟩ => ?_⟩⟩
  · refine State.conclude_putPR (R := .inf) ?_
    cases hinf : s.p1.inf with
    | true => rw [PointReg.pt_of_inf hinf, pdbl_inf]
    | false =>
      have hy : s.p1.y.toNat = 0 := by simpa [hinf] using h
      rw [PointReg.pt_of_affine hinf, pdbl_of_y_eq_zero 0 (BitVec.eq_of_toNat_eq hy)]
  · refine State.conclude_putPR_of_raise ?_
    rw [PointReg.pt_of_affine hinf, pdbl_of_y_eq_curveP 0 (Int.ofNat.inj hp)]
  · obtain ⟨m, hm, hslope, hR⟩ := pdbl_tangent (x := s.p1.x) 0 (mod_cast h0) (mod_cast hp)
    rw [← PointReg.pt_of_affine hinf] at hR
    obtain ⟨t, ht, hok, hframe, hpr⟩ := State.conclude_putPR (s := s) hR
    refine ⟨t, ht, hok, hframe, ?_, m, by omega, by omega, hslope, ?_, ?_⟩ <;> rw [hpr]
    · rfl
    · rw [slopeResult_x, sub_sub, ← two_mul]
    · exact slopeResult_y _ _ _ _

/-- Settles O23: the cases of the addition of `P1` and `P2`, the chord's slope as a quotient of the field. -/
theorem paddWritesTheChordResult : Obligations.PaddWritesTheChordResult := by
  refine ⟨by decide, fun s => ⟨fun h => ?identity, fun ⟨h1, h2, hx, hy⟩ => ?opposite,
    fun ⟨h1, h2, hx, hy⟩ => ?equal, fun ⟨h1, h2, hx, hmod⟩ => ?congruent, fun ⟨h1, h2, hx⟩ => ?chord⟩⟩
  case identity =>
    have hR : padd 0 s.p1.pt s.p2.pt = .ok (if s.p1.inf then s.p2.pt else s.p1.pt) := by
      rcases h with h1 | h2
      · rw [if_pos h1, PointReg.pt_of_inf h1, padd_inf_left]
      · rw [PointReg.pt_of_inf h2, padd_inf_right]
        cases h1 : s.p1.inf with
        | true => rw [PointReg.pt_of_inf h1]; rfl
        | false => rfl
    obtain ⟨t, ht, hok, hframe, hpr⟩ := State.conclude_putPR (s := s) hR
    refine ⟨t, ht, hok, hframe, ?_⟩
    rw [hpr, apply_ite Point.toReg, PointReg.toReg_pt, PointReg.toReg_pt]
    split <;> rfl
  case opposite =>
    refine State.conclude_putPR (R := .inf) ?_
    rw [PointReg.pt_of_affine h1, PointReg.pt_of_affine h2]
    exact padd_of_opposite 0 (BitVec.eq_of_toNat_eq (Int.ofNat.inj hx)) fun e => hy (by rw [e])
  case equal =>
    have hpts : s.p2.pt = s.p1.pt := by
      rw [PointReg.pt_of_affine h1, PointReg.pt_of_affine h2, BitVec.eq_of_toNat_eq (Int.ofNat.inj hx),
        BitVec.eq_of_toNat_eq (Int.ofNat.inj hy)]
    have hR : padd 0 s.p1.pt s.p2.pt = pdbl 0 s.p1.pt := by rw [hpts, padd_self]
    exact congrArg (fun c => s.conclude (c >>= fun r => .ok (s.putPR r))) hR
  case congruent =>
    refine State.conclude_putPR_of_raise ?_
    rw [PointReg.pt_of_affine h1, PointReg.pt_of_affine h2]
    exact padd_of_x_congruent 0 (fun e => hx (by rw [e])) hmod
  case chord =>
    obtain ⟨m, hm, hslope, hR⟩ := padd_chord (y1 := s.p1.y) (y2 := s.p2.y) 0 hx
    rw [← PointReg.pt_of_affine h1, ← PointReg.pt_of_affine h2] at hR
    obtain ⟨t, ht, hok, hframe, hpr⟩ := State.conclude_putPR (s := s) hR
    refine ⟨t, ht, hok, hframe, ?_, m, by omega, by omega, hslope, ?_, ?_⟩ <;> rw [hpr]
    · rfl
    · exact slopeResult_x _ _ _ _
    · exact slopeResult_y _ _ _ _

/-- Settles O24: what a success leaves in `PR` is the sum or the double, of points of the curve. -/
theorem pointResultsStayOnTheCurve : Obligations.PointResultsStayOnTheCurve := by
  intro s t he h1
  refine ⟨fun h => ?_, fun h2 h => ?_⟩
  · obtain ⟨R, hR, hpr⟩ := State.pr_of_conclude_putPR h he
    rw [hpr, Point.pt_toReg]
    exact pdbl_onCurve hR h1
  · obtain ⟨R, hR, hpr⟩ := State.pr_of_conclude_putPR h he
    rw [hpr, Point.pt_toReg]
    exact padd_onCurve hR h1 h2

end Sys2Proof.Machine

/-! The commands around a point result: its serialisation into `MSG` with the hash and the Base58Check string
that follow it, and the multiplication of a reduced base. -/

namespace Sys2Proof.Machine

/-! ### `PSER`, and what it leaves for `HASH160` and `B58CHK` (42_curve.md R96) -/

/-- The uncompressed key of a pair of coordinates. -/
def uncompressedKey (x y : Big) : List Byte := 0x04#8 :: (bytesBe x.toNat 32 ++ bytesBe y.toNat 32)

theorem pser_aff (x y : Big) : pser (.aff x y) = .ok (uncompressedKey x y) := rfl

@[simp] theorem uncompressedKey_length (x y : Big) : (uncompressedKey x y).length = 65 := by
  simp [uncompressedKey, bytesBe_length]

theorem uncompressedKey_x (x y : Big) : intBe (((uncompressedKey x y).drop 1).take 32) = x.toNat := by
  have h : ((uncompressedKey x y).drop 1).take 32 = bytesBe x.toNat 32 :=
    List.take_left' (bytesBe_length _ _)
  rw [h, intBe_bytesBe 32 _ x.isLt]

theorem uncompressedKey_y (x y : Big) : intBe ((uncompressedKey x y).drop 33) = y.toNat := by
  have h : (uncompressedKey x y).drop 33 = bytesBe y.toNat 32 :=
    List.drop_left' (bytesBe_length _ _)
  rw [h, intBe_bytesBe 32 _ y.isLt]

/-- `PSER` of an affine `PR` writes its key. -/
theorem exec_pser_of_affine {s : State} (h : s.pr.inf = false) :
    ∃ t, exec .pser s = .next t ∧ MessageWritten s t (uncompressedKey s.pr.x s.pr.y) := by
  have hp : pser s.pr.pt = .ok (uncompressedKey s.pr.x s.pr.y) := by rw [PointReg.pt_of_affine h, pser_aff]
  exact ⟨_, State.conclude_of_ok (bind_eq_ok.2 ⟨_, hp, rfl⟩), s.putMsg_written (by simp)⟩

/-- Settles O25: the key is the byte `04` and two big-endian strings, each of which reads back. -/
theorem pserWritesTheUncompressedKey : Obligations.PserWritesTheUncompressedKey := by
  refine ⟨by decide, fun s => ⟨fun h => ?_, fun h => ?_⟩⟩
  · obtain ⟨t, ht, hw⟩ := exec_pser_of_affine h
    exact ⟨t, _, ht, hw, uncompressedKey_length _ _, rfl, uncompressedKey_x _ _, uncompressedKey_y _ _⟩
  · exact State.conclude_of_raise (bind_eq_error.2 (.inl (by rw [PointReg.pt_of_inf h]; rfl)))

/-- A written message reads back (20_memory.md R58). -/
theorem MessageWritten.msgString {s t : State} {m : List Byte} (h : MessageWritten s t m) :
    t.msgString m.length = .ok m := by
  obtain ⟨-, -, -, hmem, -⟩ := h
  refine Memory.readBytes_of_holds fun i hi => ?_
  rw [hmem i (by rw [List.length_append]; omega), List.getElem_append_left hi]

/-- `HASH160` of a message with the length and the first byte of an uncompressed key writes its digest
(44_hash.md R119). -/
theorem exec_hash160_of_key {s : State} {m : List Byte} (hlen : s.msgLen.toNat = 65)
    (hm : s.msgString 65 = .ok m) (h4 : m[0]? = some 0x04) :
    ∃ t, exec .hash160 s = .next t ∧ DigestWritten s t (ripemd160 (sha256 m)) := by
  have hlen : s.msgLen = 65 := BitVec.eq_of_toNat_eq hlen
  have hbyte : s.mem.byteAt msgBase = .ok 0x04 := by
    obtain ⟨hi, hget⟩ := List.getElem?_eq_some_iff.1 h4
    have hread := (Memory.readBytes_ok hm).2 0 hi
    rw [Nat.add_zero, hget] at hread
    rw [Memory.byteAt, hread]
  refine ⟨_, State.conclude_of_ok (u := s.putDig (ripemd160 (sha256 m))) ?_, s.putDig_written (by simp)⟩
  simp [hlen, hbyte, hm]

/-- `B58CHK` of a 20-byte digest always completes with success (45_base58.md R127). -/
theorem exec_b58chk_of_digLen {s : State} (v : Byte) (h : s.digLen = 20) :
    ∃ t, exec (.b58chk v) s = .next t ∧ Succeeded t false := by
  obtain ⟨d, hd, -⟩ := s.digString_ok (n := 20) (by omega)
  refine ⟨_, State.conclude_of_ok (u := s.putStr (b58chk d v)) ?_, State.succeeded_succeed _ false⟩
  simp [h, hd]

/-- Settles O39: `PSER` leaves the message that `HASH160` asks for, and `HASH160` the digest that `B58CHK`
asks for. -/
theorem serialisedKeyHashesAndEncodes : Obligations.SerialisedKeyHashesAndEncodes := by
  intro s v h
  obtain ⟨t, ht, hkey⟩ := exec_pser_of_affine h
  have ⟨_, _, hlen, _, _⟩ := hkey
  rw [uncompressedKey_length] at hlen
  obtain ⟨u, hu, hok, -, hdig, -, -⟩ :=
    exec_hash160_of_key hlen (uncompressedKey_length _ _ ▸ hkey.msgString) rfl
  have h20 : u.digLen = 20 := BitVec.eq_of_toNat_eq hdig
  obtain ⟨w, hw, hwok⟩ := exec_b58chk_of_digLen v h20
  exact ⟨t, u, w, ht, hu, hok, h20, hw, hwok⟩

/-! ### `SMUL` (43_scalar.md R99, R105) -/

theorem State.multiply_length {s : State} {B R : Point} {tr : List TraceRecord} (h : s.multiply B = .ok (R, tr)) :
    tr.length = 256 := by
  obtain ⟨-, -, A, -, hs⟩ := State.multiply_eq_ok.1 h
  exact smulFrom_length hs

/-- A multiplication that answers completes `SMUL` with its result and its trace. -/
theorem exec_smul_of_multiply {s : State} {R : Point} {tr : List TraceRecord}
    (h : s.multiply s.p1.pt = .ok (R, tr)) : ∃ t, exec .smul s = .next t ∧ MultiplicationWritten s t R tr :=
  ⟨_, State.conclude_of_ok (bind_eq_ok.2 ⟨_, h, rfl⟩), State.succeeded_succeed _ false, rfl, rfl,
    congrArg (BitVec.ofNat 9) (State.multiply_length h), rfl, rfl⟩

/-- The checks pass for a held alphabet and a valid scalar, and a multiplication over reduced points never
stops. -/
theorem State.multiply_of_reduced {s : State} {B : Point} (hA : s.AlphabetHeld) (hv : s.alphaValid = true)
    (h1 : 1 ≤ s.k.toNat) (hn : s.k.toNat < curveN) (hB : B.Reduced) : ∃ R tr, s.multiply B = .ok (R, tr) := by
  obtain ⟨-, A, hAok, -⟩ := hA hv
  obtain ⟨R, tr, hs, -⟩ := smulFrom_reduced s.k A Config.scalarBits none hB (acc := .inf) trivial
  exact ⟨R, tr, State.multiply_eq_ok.2 ⟨hv, ⟨h1, hn⟩, A, hAok, hs⟩⟩

theorem PointReg.pt_reduced {r : PointReg} (h : r.inf = true ∨ r.x.toNat < curveP ∧ r.y.toNat < curveP) :
    r.pt.Reduced := by
  cases hinf : r.inf with
  | true => rw [PointReg.pt_of_inf hinf]; trivial
  | false =>
    rw [PointReg.pt_of_affine hinf]
    exact h.resolve_left (by simp [hinf])

/-- Settles O28: every accumulator from a reduced base is reduced, so that no step divides by zero. -/
theorem smulOfReducedBaseCompletes : Obligations.SmulOfReducedBaseCompletes := by
  intro s hA hv h1 hn hbase
  obtain ⟨R, tr, h⟩ := State.multiply_of_reduced hA hv h1 hn (PointReg.pt_reduced hbase)
  obtain ⟨t, ht, hw⟩ := exec_smul_of_multiply h
  exact ⟨t, R, tr, ht, hw, State.multiply_length h⟩

end Sys2Proof.Machine

/-! The scalar multiplier's three commands: what the double-and-add algorithm answers for small scalars and what its
records say, how a multiplication completes, and the statements about them (43_scalar.md). -/

namespace Sys2Proof.Machine

/-! ### The value of a doubling does not depend on the step that asks for it -/

theorem inv_eq_ok_congr {info info' : Word} {k : Int} {r : Nat} (h : inv info k = .ok r) : inv info' k = .ok r := by
  have hk : k % (curveP : Int) ≠ 0 := fun h0 => nomatch (inv_of_dvd info h0).symm.trans h
  rw [inv_of_not_dvd info' hk, ← inv_of_not_dvd info hk, h]

theorem pdbl_eq_ok_congr {info info' : Word} {P R : Point} (h : pdbl info P = .ok R) : pdbl info' P = .ok R := by
  cases P with
  | inf => exact h
  | aff x y =>
    by_cases hy : y = 0
    · rwa [pdbl_of_y_eq_zero info' hy, ← pdbl_of_y_eq_zero info hy]
    · rw [pdbl, if_neg hy] at h ⊢
      obtain ⟨i, hi, hR⟩ := bind_eq_ok.1 h
      exact bind_eq_ok.2 ⟨i, inv_eq_ok_congr hi, hR⟩

/-! ### The algorithm from the first one bit on (R99, R104) -/

/-- The first one bit of the scalar makes the accumulator the base. -/
theorem scalarStep_of_first_bit (n : Nat) (B : Point) : scalarStep n true B .inf = .ok B :=
  scalarStep_eq_ok.2 ⟨.inf, rfl, padd_inf_left (BitVec.ofNat 32 n) B⟩

theorem smulFrom_succ_of_error {k : Big} {B acc : Point} {A : List Word} {n : Nat} {prev : Option Nat} {e : Stop}
    (h : scalarStep (256 - n) (k.getLsbD n) B acc = .error e) : smulFrom k B A (n + 1) acc prev = .error e :=
  bind_eq_error.2 (.inl h)

/-- A step that answers goes on with the loop over the lower bits, and puts its record first. -/
theorem smulFrom_succ_of_step {k : Big} {B acc acc' : Point} {A : List Word} {n : Nat} {prev : Option Nat}
    (h : scalarStep (256 - n) (k.getLsbD n) B acc = .ok acc') :
    smulFrom k B A (n + 1) acc prev =
      (smulFrom k B A n acc' (traceRecord A (256 - n) (k.getLsbD n) prev acc').2).map fun r =>
        (r.1, (traceRecord A (256 - n) (k.getLsbD n) prev acc').1 :: r.2) := by
  rw [smulFrom, Config.scalarBits, h, ok_bind]
  dsimp only
  cases smulFrom k B A n acc' (traceRecord A (256 - n) (k.getLsbD n) prev acc').2 <;> rfl

/-- The multiplication is the loop over the bits below the scalar's highest one bit, started from the base; the
records before are those of that bit and of the zeros above it. -/
theorem smul_from_highest_bit {k : Big} {n : Nat} (hn : n < 256) (hlow : 2 ^ n ≤ k.toNat)
    (hhigh : k.toNat < 2 ^ (n + 1)) (B : Point) (A : List Word) :
    ∃ prev pre, smul k B A = (smulFrom k B A n B prev).map fun r => (r.1, pre ++ r.2) := by
  have hbit : k.getLsbD n = true := Nat.testBit_of_two_pow_le_and_two_pow_add_one_gt hlow hhigh
  have hzero (i : Nat) (hi : n + 1 ≤ i) (_ : i < n + 1 + (255 - n)) : k.getLsbD i = false :=
    Nat.testBit_lt_two_pow (hhigh.trans_le (Nat.pow_le_pow_right two_pos hi))
  obtain ⟨pre, -, hpre⟩ := smulFrom_leading_zeros k B A (n + 1) (255 - n) hzero
  have hsteps : Config.scalarBits = n + 1 + (255 - n) := by rw [Config.scalarBits]; omega
  have hstep : scalarStep (256 - n) (k.getLsbD n) B .inf = .ok B := hbit ▸ scalarStep_of_first_bit _ B
  refine ⟨(traceRecord A (256 - n) (k.getLsbD n) none B).2,
    pre ++ [(traceRecord A (256 - n) (k.getLsbD n) none B).1], ?_⟩
  rw [smul, hsteps, hpre, smulFrom_succ_of_step hstep]
  cases smulFrom k B A n B (traceRecord A (256 - n) (k.getLsbD n) none B).2 <;> simp [Except.map]

/-- The scalar 2 gives the double of the base. -/
theorem smul_scalar_two {B R : Point} {info : Word} (hR : pdbl info B = .ok R) (A : List Word) :
    ∃ tr, smul 2 B A = .ok (R, tr) := by
  obtain ⟨prev, pre, h⟩ := smul_from_highest_bit (k := 2) (n := 1) (by decide) (by decide) (by decide) B A
  have hstep : scalarStep 256 false B B = .ok R := scalarStep_eq_ok.2 ⟨R, pdbl_eq_ok_congr hR, rfl⟩
  have hloop : smulFrom 2 B A 1 B prev = .ok (R, _) := smulFrom_succ_eq_ok.2 ⟨R, [], hstep, rfl, rfl⟩
  exact ⟨_, h.trans (by rw [hloop]; rfl)⟩

/-- With the scalar 2 or 3 the last step doubles the base, and fails as that doubling fails (R103). -/
theorem smul_of_double_fails {k : Big} (hk : k = 2 ∨ k = 3) {B : Point} {e : Stop} (he : pdbl 256 B = .error e)
    (A : List Word) : smul k B A = .error e := by
  obtain ⟨hlow, hhigh⟩ : 2 ^ 1 ≤ k.toNat ∧ k.toNat < 2 ^ 2 := by rcases hk with rfl | rfl <;> decide
  obtain ⟨prev, pre, h⟩ := smul_from_highest_bit (n := 1) (by decide) hlow hhigh B A
  have hstep : scalarStep 256 (k.getLsbD 0) B B = .error e := bind_eq_error.2 (.inl he)
  rw [h, smulFrom_succ_of_error hstep]
  rfl

/-! ### What the records of a completed algorithm say (R99–R102) -/

section Records

variable {k : Big} {B R : Point} {A : List Word} {tr : List TraceRecord}

theorem smul_traceShape (h : smul k B A = .ok (R, tr)) : TraceShape k tr := by
  refine ⟨smulFrom_length h, fun r hr => ?_⟩
  obtain ⟨hstep, hbit, hop, hdelta, -, -⟩ := (smulFrom_records (Nat.le_refl 256) h).1 r hr
  refine ⟨by omega, hbit, hop, ?bound, ?first, ?next⟩
  case bound =>
    rw [hdelta]
    split
    · exact deltaOf_lt _ _
    · decide
  case first =>
    rintro rfl
    refine BitVec.eq_of_toNat_eq ?_
    simpa [deltaOf] using hdelta
  case next =>
    rintro q rfl
    rw [if_neg (Nat.succ_ne_zero q)] at hdelta
    simp only [Nat.add_sub_cancel] at hdelta
    split
    · next hboth =>
      obtain ⟨hcur, hprev⟩ := Bool.and_eq_true_iff.1 hboth
      rwa [if_pos hcur, if_pos hprev] at hdelta
    · next hnot =>
      refine BitVec.eq_of_toNat_eq (hdelta.trans ?_)
      cases hcur : tr[q + 1].symv with
      | false => rfl
      | true =>
        have hprev : tr[q].symv = false := by simpa [hcur] using hnot
        rw [hprev]
        rfl

theorem smul_recordHolds (h : smul k B A = .ok (R, tr)) (hA : A.length = 40) : ∀ r ∈ tr, RecordHolds A r := by
  intro r hr
  obtain ⟨i, hi, rfl⟩ := List.getElem_of_mem hr
  obtain ⟨-, -, -, -, -, hholds⟩ := (smulFrom_records (Nat.le_refl 256) h).1 i hi
  exact hholds hA

theorem smul_scalarStep (h : smul k B A = .ok (R, tr)) (r : Nat) (hr : r < tr.length) :
    scalarStep (r + 1) (k.getLsbD (255 - r)) B (if r = 0 then .inf else (tr[r - 1]'(by omega)).point) =
      .ok tr[r].point := by
  obtain ⟨-, -, -, -, hstep, -⟩ := (smulFrom_records (Nat.le_refl 256) h).1 r hr
  simpa using hstep

/-- The last record holds the result. -/
theorem smul_lastRecord (h : smul k B A = .ok (R, tr)) : (tr[255]?.map fun r => r.point) = some R := by
  have hlen : tr.length = 256 := smulFrom_length h
  have hR : R = (tr.getLast?.map fun r => r.point).getD .inf := (smulFrom_records (Nat.le_refl 256) h).2
  rw [List.getLast?_eq_getElem?, hlen, List.getElem?_eq_getElem (by omega)] at hR
  rw [List.getElem?_eq_getElem (by omega), hR]
  rfl

end Records

/-! ### The completion of `SMUL` and `DERIVE` (R105, R106) -/

/-- The checks pass for a validated alphabet and a valid scalar, and leave the algorithm. -/
theorem State.multiply_eq_smul {s : State} {A : List Word} (hv : s.alphaValid = true) (h1 : 1 ≤ s.k.toNat)
    (hn : s.k.toNat < curveN) (hA : s.alphabet = .ok A) (B : Point) : s.multiply B = smul s.k B A := by
  rw [State.multiply, hv, validScalar_iff.2 ⟨h1, hn⟩, hA]
  rfl

/-- A held alphabet is there to be read, so that only the algorithm is left. -/
theorem State.multiply_of_held {s : State} (hheld : s.AlphabetHeld) (hv : s.alphaValid = true) (h1 : 1 ≤ s.k.toNat)
    (hn : s.k.toNat < curveN) : ∃ A, ∀ B, s.multiply B = smul s.k B A := by
  obtain ⟨-, A, hA, -⟩ := hheld hv
  exact ⟨A, State.multiply_eq_smul hv h1 hn hA⟩

/-- A multiplication that answers a point other than `INF` completes `DERIVE` with it and its trace. -/
theorem exec_derive_of_multiply {s : State} {R : Point} {tr : List TraceRecord}
    (h : s.multiply curveG = .ok (R, tr)) (hR : R ≠ .inf) :
    ∃ t, exec .derive s = .next t ∧ MultiplicationWritten s t R tr :=
  ⟨_, State.conclude_of_ok (bind_eq_ok.2 ⟨_, h, bind_eq_ok.2 ⟨(), require_eq_ok.2 (decide_eq_true hR), rfl⟩⟩),
    State.succeeded_succeed _ false, rfl, rfl, congrArg (BitVec.ofNat 9) (State.multiply_length h), rfl, rfl⟩

theorem exec_smul_of_raise {s : State} {e : ErrCode} {info : Word}
    (h : s.multiply s.p1.pt = .error (.raise e info)) :
    ∃ t, exec .smul s = .next t ∧ Failed t e info ∧ OnlyStatus s t :=
  State.conclude_of_raise (bind_eq_error.2 (.inl h))

theorem State.conclude_eq_next_of_success {s t : State} {c : Comp State} (h : s.conclude c = .next t)
    (he : t.errFlag = false) : ∃ u, c = .ok u ∧ t = u.succeed false := by
  rcases State.conclude_eq_next.1 h with hu | ⟨e, info, -, rfl⟩
  · exact hu
  · nomatch he

/-- The two multiplications, each with the base it multiplies. -/
def State.multiplications (s : State) : List (Instr × Point) := [(.smul, s.p1.pt), (.derive, curveG)]

/-- A multiplication that completes without error ran the algorithm on the validated alphabet and has written its
answer. -/
theorem smul_of_exec {s t : State} {run : Instr × Point} (hrun : run ∈ s.multiplications)
    (h : exec run.1 s = .next t) (he : t.errFlag = false) :
    ∃ A R, s.alphabet = .ok A ∧ smul s.k run.2 A = .ok (R, t.trace) ∧ t.pr = R.toReg := by
  have hmultiply : ∃ R, s.multiply run.2 = .ok (R, t.trace) ∧ t.pr = R.toReg := by
    simp only [State.multiplications, List.mem_cons, List.not_mem_nil, or_false] at hrun
    rcases hrun with rfl | rfl <;> obtain ⟨u, hu, rfl⟩ := State.conclude_eq_next_of_success h he
    · obtain ⟨r, hr, hu⟩ := bind_eq_ok.1 hu
      exact Except.ok.inj hu ▸ ⟨r.1, hr, rfl⟩
    · obtain ⟨r, hr, hu⟩ := bind_eq_ok.1 hu
      obtain ⟨_, -, hu⟩ := bind_eq_ok.1 hu
      exact Except.ok.inj hu ▸ ⟨r.1, hr, rfl⟩
  obtain ⟨R, hR, hpr⟩ := hmultiply
  obtain ⟨-, -, A, hA, hs⟩ := State.multiply_eq_ok.1 hR
  exact ⟨A, R, hA, hs, hpr⟩

/-- A command that fails leaves all but its status and the alphabet's validity. -/
theorem exec_eq_fail {i : Instr} {s t : State} (h : exec i s = .next t) (he : t.errFlag = true) :
    ∃ e info, t = (s.afterFailure i).fail e info := by
  cases exec_completed h with
  | success result hu => nomatch he
  | failure info hraised => exact ⟨_, info, rfl⟩

/-! ### The statements -/

theorem curveG_reduced : curveG.Reduced := by
  unfold curveG Point.Reduced
  decide

/-- Settles O27: with its checks passed a multiplication answers as the algorithm does. -/
theorem multiplicationWritesResultAndTrace : Obligations.MultiplicationWritesResultAndTrace := by
  refine ⟨by decide, by decide, fun s A hv h1 hn hA => ?_⟩
  have hmultiply (B : Point) : s.multiply B = smul s.k B A := State.multiply_eq_smul hv h1 hn hA B
  refine ⟨fun R tr h => ?_, fun R tr h hR => ?_, fun info h => ?_⟩
  · exact exec_smul_of_multiply ((hmultiply _).trans h)
  · exact exec_derive_of_multiply ((hmultiply _).trans h) hR
  · exact exec_smul_of_raise ((hmultiply _).trans h)

/-- Settles O29: a valid multiple of the generator is an affine point of the curve, since its order is `n`. -/
theorem deriveCompletesForEveryValidKey : Obligations.DeriveCompletesForEveryValidKey := by
  intro s hheld hv h1 hn
  obtain ⟨A, hmultiply⟩ := State.multiply_of_held hheld hv h1 hn
  obtain ⟨R, tr, hs, hR, hcurve⟩ := smul_generator h1 hn A
  obtain ⟨t, ht, hw⟩ := exec_derive_of_multiply ((hmultiply curveG).trans hs) hR
  exact ⟨t, R, tr, ht, hw, hR, hcurve⟩

/-- Settles O30: the algorithm from the scalar's highest bit on takes no step for 1, and one doubling for 2. -/
theorem deriveOfOneAndTwo : Obligations.DeriveOfOneAndTwo := by
  refine fun s hheld hv => ⟨fun hk => ?one, fun hk => ?two⟩
  all_goals
    have hvalid : 1 ≤ s.k.toNat ∧ s.k.toNat < curveN := by rw [hk]; decide
    obtain ⟨A, hmultiply⟩ := State.multiply_of_held hheld hv hvalid.1 hvalid.2
  case one =>
    obtain ⟨hlow, hhigh⟩ : 2 ^ 0 ≤ s.k.toNat ∧ s.k.toNat < 2 ^ 1 := by rw [hk]; decide
    obtain ⟨_, pre, hs⟩ := smul_from_highest_bit (by decide) hlow hhigh curveG A
    obtain ⟨t, ht, hw⟩ := exec_derive_of_multiply ((hmultiply curveG).trans hs) (by decide)
    exact ⟨t, pre ++ [], ht, hw, smul_lastRecord hs⟩
  case two =>
    obtain ⟨R, tr, htr, hR, -⟩ := smul_generator hvalid.1 hvalid.2 A
    obtain ⟨D, hD, -⟩ := pdbl_reduced 0 curveG_reduced
    obtain ⟨_, hdouble⟩ := hk ▸ smul_scalar_two hD A
    obtain ⟨rfl, -⟩ := Prod.mk.inj (Except.ok.inj (hdouble.symm.trans htr))
    obtain ⟨t, ht, hw⟩ := exec_derive_of_multiply ((hmultiply curveG).trans htr) hR
    exact ⟨t, D, tr, ht, hw, hD, smul_lastRecord htr⟩

/-- Settles O31: the trace of a success is the algorithm's, for either base. -/
theorem tracesHaveTheirShape : Obligations.TracesHaveTheirShape := by
  intro s t h he
  obtain ⟨run, hrun, h⟩ : ∃ run ∈ s.multiplications, exec run.1 s = .next t := by
    simpa [State.multiplications] using h
  obtain ⟨A, R, -, hs, -⟩ := smul_of_exec hrun h he
  exact smul_traceShape hs

/-- Settles O32: the records of a success are the algorithm's over the alphabet it read, whose 40 symbols every
index selects from. -/
theorem recordsFollowTheAccumulator : Obligations.RecordsFollowTheAccumulator := by
  intro s t A _ hA run hrun h he
  obtain ⟨A', R, hA', hs, hpr⟩ := smul_of_exec hrun h he
  obtain rfl := Except.ok.inj (hA'.symm.trans hA)
  obtain ⟨hlen, -⟩ := State.alphabet_eq_ok.1 hA
  rw [hpr, Point.pt_toReg]
  exact ⟨smul_recordHolds hs hlen, smul_scalarStep hs, smul_lastRecord hs⟩

/-- Settles O33: a failure keeps what the issue left, which has no trace; and the doubling of the last step divides
by `2 p`, the zero residue. -/
theorem failedMultiplicationLeavesNoTrace : Obligations.FailedMultiplicationLeavesNoTrace := by
  refine ⟨fun s t i hi h he => ?issued, fun s hheld hv hk hinf hy => ?step256⟩
  case issued =>
    obtain ⟨e, info, rfl⟩ := exec_eq_fail h he
    rcases hi with rfl | rfl <;> exact ⟨rfl, rfl, rfl⟩
  case step256 =>
    obtain ⟨h1, hn⟩ : 1 ≤ s.k.toNat ∧ s.k.toNat < curveN := by rcases hk with hk | hk <;> rw [hk] <;> decide
    obtain ⟨A, hmultiply⟩ := State.multiply_of_held hheld hv h1 hn
    have hdouble : pdbl 256 s.p1.pt = .error (.raise .divisionByZero 256) := by
      rw [PointReg.pt_of_affine hinf, pdbl_of_y_eq_curveP 256 hy]
    exact exec_smul_of_raise ((hmultiply _).trans (smul_of_double_fails hk hdouble A))

/-- Settles O34: the check is the range, and each of its answers is one of the command's two completions. -/
theorem keychkAcceptsExactlyTheRange : Obligations.KeychkAcceptsExactlyTheRange := by
  refine ⟨by decide, fun s => ⟨fun h => ?_, fun h => ?_⟩⟩
  · exact ⟨_, if_pos (validScalar_iff.2 h), State.succeeded_succeed _ true, State.onlyStatus_succeed _ true⟩
  · have hout : ¬ validScalar s.opa.toNat = true := by rw [validScalar_iff]; omega
    exact ⟨_, if_neg hout, State.succeeded_succeed _ false, State.onlyStatus_succeed _ false⟩

end Sys2Proof.Machine

/-! The hash unit: `SHA256`, `RMD160` and `CHKSUM` as one operation over a hash function, the two checks of
`HASH160`, and the statements about them (44_hash.md). -/

namespace Sys2Proof.Machine

/-! ### The commands that hash the message (R117, R118, R120) -/

/-- What the three commands have in common: read the message, hash it, write the digest. -/
def State.hashMessage (s : State) (hash : List Byte → List Byte) : Comp State := do
  let m ← s.message
  return s.putDig (hash m)

/-- Each of the three is this operation with a hash function of its own. -/
theorem exec_eq_hashMessage {i : Instr} (hi : i ∈ [Instr.sha256, .rmd160, .chksum]) :
    ∃ hash, ∀ s, exec i s = s.conclude (s.hashMessage hash) := by
  simp only [List.mem_cons, List.not_mem_nil, or_false] at hi
  rcases hi with rfl | rfl | rfl
  · exact ⟨sha256, fun _ => rfl⟩
  · exact ⟨ripemd160, fun _ => rfl⟩
  · exact ⟨checksum, fun _ => rfl⟩

/-- With a message to read the operation writes its digest and succeeds. -/
theorem State.conclude_hashMessage_of_ok {s : State} {m : List Byte} (h : s.message = .ok m)
    (hash : List Byte → List Byte) :
    s.conclude (s.hashMessage hash) = .next ((s.putDig (hash m)).succeed false) :=
  State.conclude_of_ok (bind_eq_ok.2 ⟨m, h, rfl⟩)

/-- Without one it stops as the message read does. -/
theorem State.hashMessage_of_error {s : State} {x : Stop} (h : s.message = .error x)
    (hash : List Byte → List Byte) : s.hashMessage hash = .error x :=
  bind_eq_error.2 (.inl h)

/-- A written message that fits the buffer is hashed, and the digest written with its length. -/
theorem State.hashMessage_written {s : State} {m : List Byte} (hlen : s.msgLen.toNat ≤ 128)
    (hm : s.msgString s.msgLen.toNat = .ok m) {hash : List Byte → List Byte} (hd : (hash m).length ≤ 32) :
    ∃ t, s.conclude (s.hashMessage hash) = .next t ∧ DigestWritten s t (hash m) ∧
      t.digLen = BitVec.ofNat 6 (hash m).length :=
  ⟨_, State.conclude_hashMessage_of_ok (State.message_eq_ok.2 ⟨hlen, hm⟩) hash, s.putDig_written hd, rfl⟩

theorem State.message_of_too_long {s : State} (h : 128 < s.msgLen.toNat) :
    s.message = .error (.raise .lengthError (s.msgLen.setWidth 32)) :=
  bind_eq_error.2 (.inl (require_eq_error.2 ⟨decide_eq_false (Nat.not_le_of_gt h), rfl⟩))

/-- Settles O35: each command is the shared operation, whose digests are 32, 20 and 4 bytes long. -/
theorem hashCommandsWriteTheirDigests : Obligations.HashCommandsWriteTheirDigests := by
  refine ⟨by decide, by decide, by decide, fun s m hlen hm => ?fits, fun s hlong i hi => ?tooLong⟩
  case fits =>
    exact ⟨State.hashMessage_written (hash := sha256) hlen hm (by simp),
      State.hashMessage_written (hash := ripemd160) hlen hm (by simp),
      State.hashMessage_written (hash := checksum) hlen hm (by simp)⟩
  case tooLong =>
    obtain ⟨hash, hexec⟩ := exec_eq_hashMessage hi
    rw [hexec]
    exact State.conclude_of_raise (State.hashMessage_of_error (State.message_of_too_long hlong) hash)

/-! ### What a digest depends on (R117) -/

/-- The message is a function of `MSG_LEN` and of the bytes below it. -/
theorem State.message_congr {s s' : State} (hlen : s.msgLen = s'.msgLen)
    (hmsg : ∀ j, j < s.msgLen.toNat → s.mem.read (msgBase + j) = s'.mem.read (msgBase + j)) :
    s.message = s'.message := by
  have hbytes : s.msgString s.msgLen.toNat = s'.msgString s.msgLen.toNat := Memory.readBytes_congr hmsg
  rw [State.message, State.message, hbytes, hlen]

/-- A digest covers the whole of `DIG`: what stood there before it does not show. -/
theorem State.putDig_read (s s' : State) (d : List Byte) {j : Nat} (hj : j < 32) :
    (s.putDig d).mem.read (digBase + j) = (s'.putDig d).mem.read (digBase + j) := by
  have hin : j < (padTo 32 d).length := by rwa [padTo_length]
  exact (s.mem.write_holds digBase _ j hin).trans (s'.mem.write_holds digBase _ j hin).symm

/-- Settles O38: the two runs read one message, so that they write the same digest or fail alike. -/
theorem digestDependsOnlyOnTheMessage : Obligations.DigestDependsOnlyOnTheMessage := by
  intro s s' t t' i hi hlen hmsg hdig hdigLen h h'
  obtain ⟨hash, hexec⟩ := exec_eq_hashMessage hi
  rw [hexec] at h h'
  have hsame := State.message_congr hlen hmsg
  cases hm : s.message with
  | ok m =>
    rw [State.conclude_hashMessage_of_ok hm] at h
    rw [State.conclude_hashMessage_of_ok (hsame.symm.trans hm)] at h'
    cases h
    cases h'
    exact ⟨rfl, rfl, rfl, fun _ hj => s.putDig_read s' (hash m) hj⟩
  | error x =>
    rw [State.hashMessage_of_error hm] at h
    rw [State.hashMessage_of_error (hsame.symm.trans hm)] at h'
    cases x with
    | raise e info =>
      cases h
      cases h'
      exact ⟨hdigLen, rfl, rfl, hdig⟩
    | fault f => nomatch h

/-! ### `HASH160` (R119) -/

/-- The auxiliary value of a wrong first byte, as the rule writes it and as the command adds it up. -/
theorem firstByte_info (b : Byte) : BitVec.ofNat 32 (0x10000 + b.toNat) = 0x10000#32 + b.setWidth 32 := by
  rw [BitVec.ofNat_add, BitVec.ofNat_toNat]

/-- A message of the right length with another first byte than `04` fails with it. -/
theorem exec_hash160_of_wrong_firstByte {s : State} {b : Byte} (hlen : s.msgLen.toNat = 65)
    (hb : s.mem.read msgBase = some b) (hne : b ≠ 0x04) :
    ∃ t, exec .hash160 s = .next t ∧
      Failed t .malformedPublicKey (BitVec.ofNat 32 (0x10000 + b.toNat)) ∧ OnlyStatus s t := by
  have hlen : s.msgLen = 65 := BitVec.eq_of_toNat_eq hlen
  have hbyte : s.mem.byteAt msgBase = .ok b := by rw [Memory.byteAt, hb]
  have hbad : decide (b = 0x04#8) = false := decide_eq_false hne
  rw [firstByte_info]
  exact State.conclude_of_raise (by simp [hlen, hbyte, hbad])

/-- Settles O36: the length is the first check and that of the first byte the second. -/
theorem hashOfPublicKeyChecksItsForm : Obligations.HashOfPublicKeyChecksItsForm := by
  refine ⟨by decide, fun s => ⟨fun hlen => ?length, fun b hlen hb hne => ?firstByte, fun m hlen hm h4 => ?digest⟩⟩
  case length => exact conclude_require_false (decide_eq_false fun h => hlen (congrArg BitVec.toNat h))
  case firstByte => exact exec_hash160_of_wrong_firstByte hlen hb hne
  case digest =>
    obtain ⟨t, ht, hw⟩ := exec_hash160_of_key hlen hm h4
    have ⟨_, _, hdig, _, _⟩ := hw
    rw [ripemd160_length] at hdig
    exact ⟨t, ht, hw, BitVec.eq_of_toNat_eq hdig⟩

/-! ### Check values (R113, R116) -/

/-- Settles O37: the kernel runs the two functions on the empty string and on `abc`. -/
theorem hashCheckValues : Obligations.HashCheckValues :=
  ⟨by decide +kernel, by decide +kernel, by decide +kernel, by decide +kernel⟩

end Sys2Proof.Machine

/-! The Base58 unit: the number a command word with an argument is, how `B58ENC` and `B58CHK` complete, the lengths of
the strings they write, and the statements about them (45_base58.md). -/

namespace Sys2Proof.Machine

/-! ### Command words as numbers (30_encoding.md R63) -/

/-- A command word with `RSV` 0 is the number with the opcode and the argument as its two lowest bytes. -/
theorem wordOf_eq_ofNat (op arg : Byte) : wordOf op arg = BitVec.ofNat 32 (256 * arg.toNat + op.toNat) := by
  refine BitVec.eq_of_toNat_eq ?_
  have hop := op.isLt
  have harg := arg.isLt
  have hcat : (wordOf op arg).toNat = arg.toNat <<< 8 ||| op.toNat := by
    rw [wordOf, BitVec.toNat_append, BitVec.toNat_append, BitVec.toNat_zero, Nat.zero_shiftLeft, Nat.zero_or]
  rw [hcat, ← Nat.shiftLeft_add_eq_or_of_lt hop, Nat.shiftLeft_eq, BitVec.toNat_ofNat]
  omega

/-! ### The lengths of Base58 strings (R125) -/

@[simp] theorem b58enc_nil : b58enc [] = [0x31] := by rw [b58enc, if_pos rfl, base58Symbol_zero]

/-- It is enough to compare the powers at the largest exponent, for a byte is worth more than a digit. -/
theorem pow_byte_le_pow_digit {n d : Nat} (h : 256 ^ n ≤ 58 ^ (n + d)) {k : Nat} (hk : k ≤ n) :
    256 ^ k ≤ 58 ^ (k + d) := by
  refine Nat.le_of_mul_le_mul_right ?_ (show 0 < 256 ^ (n - k) by positivity)
  calc 256 ^ k * 256 ^ (n - k) = 256 ^ n := by rw [← pow_add, Nat.add_sub_cancel' hk]
    _ ≤ 58 ^ (n + d) := h
    _ = 58 ^ (k + d) * 58 ^ (n - k) := by rw [← pow_add]; congr 1; omega
    _ ≤ 58 ^ (k + d) * 256 ^ (n - k) := Nat.mul_le_mul_left _ (Nat.pow_le_pow_left (by decide) _)

/-- The string of at most 128 bytes, the capacity of `MSG`, has at most 175 symbols. -/
theorem b58enc_length_le_of_message {m : List Byte} (hm : m.length ≤ 128) : (b58enc m).length ≤ 175 := by
  by_cases hne : m = []
  · simp [hne]
  · exact b58enc_length_le (n := 128) (d := 47) hne hm fun _ hk => pow_byte_le_pow_digit (by norm_num) hk

/-- The string of a version byte, a 20-byte hash and their 4-byte checksum has at most 35 symbols. -/
theorem b58chk_length_le {h : List Byte} (hh : h.length = 20) (v : Byte) : (b58chk h v).length ≤ 35 := by
  have hbytes : (v :: h ++ checksum (v :: h)).length ≤ 25 := by simp [hh]
  rw [b58chk_eq]
  exact b58enc_length_le (n := 25) (d := 10) (List.cons_ne_nil _ _) hbytes fun _ hk =>
    pow_byte_le_pow_digit (by norm_num) hk

/-- A string of `FF` bytes is the largest value of its length. -/
theorem intBe_replicate_ff (n : Nat) : intBe (List.replicate n 0xFF) = 256 ^ n - 1 := by
  induction n with
  | zero => rfl
  | succ n ih =>
    have hpos : 0 < 256 ^ n := by positivity
    have hff : (0xFF : Byte).toNat = 255 := rfl
    rw [List.replicate_succ', intBe_append_singleton, ih, hff, pow_succ]
    omega

/-- The bound is reached: 128 bytes of `FF` are worth at least `58 ^ 174`. -/
theorem b58enc_length_of_ff : (b58enc (List.replicate 128 0xFF)).length = 175 := by
  refine Nat.le_antisymm (b58enc_length_le_of_message (by simp)) ?_
  have hdigits : 174 < (Nat.digits 58 (intBe (List.replicate 128 0xFF))).length := by
    rw [Nat.lt_digits_length_iff (by decide), intBe_replicate_ff]
    norm_num
  rw [b58enc_eq (by simp)]
  simp only [List.length_append, List.length_map, List.length_reverse]
  omega

/-- Settles O42: 47 digits more than bytes are enough for 128 bytes and 10 more for 25, leading zeros or not. -/
theorem baseFiftyEightLengthBounds : Obligations.BaseFiftyEightLengthBounds :=
  ⟨fun _ => b58enc_length_le_of_message, b58enc_length_of_ff, fun _ v hh => b58chk_length_le hh v⟩

/-! ### `B58ENC` (R123, R126) -/

/-- The Base58 string of any byte string, in positional digits. -/
theorem b58enc_eq_digits (m : List Byte) :
    b58enc m = if m = [] then [0x31] else
      List.replicate (m.takeWhile (· = 0)).length 0x31 ++
        ((Nat.digits 58 (intBe m)).reverse.map base58Symbol) := by
  split
  · next hnil => rw [hnil, b58enc_nil]
  · next hne => rw [b58enc_eq hne, base58Symbol_zero]

/-- Settles O40: the message is read as by the hash commands, and its string fits `STR`. -/
theorem baseFiftyEightWritesThePositionalDigits : Obligations.BaseFiftyEightWritesThePositionalDigits := by
  refine ⟨by decide, fun s hlong => ?tooLong, fun s m hlen hm => ?fits⟩
  case tooLong => exact State.conclude_of_raise (bind_eq_error.2 (.inl (State.message_of_too_long hlong)))
  case fits =>
    obtain ⟨hbytes, -⟩ := Memory.readBytes_ok hm
    have hfits : (b58enc m).length ≤ 256 := (b58enc_length_le_of_message (hbytes ▸ hlen)).trans (by decide)
    rw [← b58enc_eq_digits]
    exact ⟨_, State.conclude_of_ok (bind_eq_ok.2 ⟨m, State.message_eq_ok.2 ⟨hlen, hm⟩, rfl⟩), s.putStr_written hfits⟩

/-! ### `B58CHK` (R124, R127) -/

/-- `B58CHK` of a 20-byte digest writes its Base58Check string. -/
theorem exec_b58chk_written {s : State} {h : List Byte} (v : Byte) (hlen : s.digLen.toNat = 20)
    (hh : s.digString 20 = .ok h) :
    ∃ t, exec (.b58chk v) s = .next t ∧ StringWritten s t (b58chk h v) := by
  have hlen : s.digLen = 20 := BitVec.eq_of_toNat_eq hlen
  obtain ⟨hbytes, -⟩ := Memory.readBytes_ok hh
  refine ⟨_, State.conclude_of_ok (u := s.putStr (b58chk h v)) ?_,
    s.putStr_written ((b58chk_length_le hbytes v).trans (by decide))⟩
  simp [hlen, hh]

/-- Settles O41: the length is the only check, and the checksum is 4 bytes of the double hash. -/
theorem baseFiftyEightCheckEncodesTheHash : Obligations.BaseFiftyEightCheckEncodesTheHash := by
  refine ⟨fun v => wordOf_eq_ofNat 0x41 v, fun s v => ⟨fun h hlen hh => ?string, fun hlen => ?length⟩⟩
  case string => exact exec_b58chk_written v hlen hh
  case length => exact conclude_require_false (decide_eq_false fun h => hlen (congrArg BitVec.toNat h))

end Sys2Proof.Machine

/-! The Base40 unit: what the two scans answer, the digits of an encoding, how the four commands complete, and the
statements about them (46_base40.md). -/

namespace Sys2Proof.Machine

/-! ### Checks that pass -/

/-- A check that passes leaves the rest of the computation. -/
theorem require_bind_of_true {α : Type} {ok : Bool} {e : ErrCode} {info : Word} (h : ok = true) (f : Unit → Comp α) :
    (require ok e info >>= f) = f () := by
  rw [h, require_true, ok_bind]

/-- Past a check that passes a computation completes as the rest of it does. -/
theorem conclude_require_true {s : State} {ok : Bool} {e : ErrCode} {info : Word} {f : Unit → Comp State}
    {P : State → Prop} (h : ok = true) (hrest : ∃ t, s.conclude (f ()) = .next t ∧ P t) :
    ∃ t, s.conclude (require ok e info >>= f) = .next t ∧ P t := by
  rwa [require_bind_of_true h]

/-! ### `ALPHAV` (R128, R135) -/

/-- The scan raises at the first entry that repeats one before it. -/
theorem alphaScan_of_duplicate {A : List Word} {j : Nat} (hj : j < A.length) (hdup : A[j] ∈ A.take j)
    (hbefore : (A.take j).Nodup) :
    alphaScan [] 0 (A.map some) = .error (.raise .invalidAlphabet (BitVec.ofNat 32 (0x10000 + j))) := by
  have hsplit : A = A.take j ++ A[j] :: A.drop (j + 1) := by simp
  have hlen : (A.take j).length = j := List.length_take_of_le hj.le
  have hseen : A[j] ∈ (A.take j).reverse ++ [] := by simpa using hdup
  conv_lhs => rw [hsplit, alphaScan_append hbefore (by simp), hlen, List.map_cons, alphaScan, if_pos hseen, Nat.zero_add]
  rfl

/-- With the right length the check is the scan. -/
theorem alphaCheck_of_length {n : Nat} (h : n = 40) (entries : List (Option Word)) :
    alphaCheck n entries = alphaScan [] 0 entries :=
  require_bind_of_true (decide_eq_true h) _

theorem alphaCheck_of_wrong_length {n : Nat} (h : n ≠ 40) (entries : List (Option Word)) :
    alphaCheck n entries = .error (.raise .invalidAlphabet (BitVec.ofNat 32 n)) :=
  bind_eq_error.2 (.inl (require_eq_error.2 ⟨decide_eq_false h, rfl⟩))

/-- With a written alphabet of the right length `ALPHAV` completes as its scan ends. -/
theorem exec_alphav_of_written {s : State} {A : List Word} (hlen : s.alphaLen.toNat = 40) (hA : s.alphabet = .ok A) :
    exec .alphav s = State.conclude { s with alphaValid := false }
      (alphaScan [] 0 (A.map some) >>= fun _ => .ok { s with alphaValid := true }) := by
  obtain ⟨h40, hholds⟩ := State.alphabet_eq_ok.1 hA
  rw [← Memory.entries_of_holdsWords hholds, h40, ← alphaCheck_of_length hlen]
  rfl

/-- Settles O43: the length is the first check, and the scan passes on distinct entries alone. -/
theorem alphavDecidesValidity : Obligations.AlphavDecidesValidity := by
  refine ⟨by decide, fun s hlen => ?length, fun s A hlen hA => ⟨fun hdistinct => ?valid, fun j hj hdup hbefore => ?duplicate⟩⟩
  case length =>
    rw [← BitVec.ofNat_toNat]
    exact State.conclude_of_raise (bind_eq_error.2 (.inl (alphaCheck_of_wrong_length hlen _)))
  case valid =>
    have hscan : alphaScan [] 0 (A.map some) = .ok () := alphaScan_eq_ok.2 ⟨hdistinct, by simp⟩
    rw [exec_alphav_of_written hlen hA, hscan]
    exact ⟨_, rfl, State.succeeded_succeed _ _, rfl⟩
  case duplicate =>
    rw [exec_alphav_of_written hlen hA]
    exact State.conclude_of_raise (bind_eq_error.2 (.inl (alphaScan_of_duplicate hj hdup hbefore)))

/-! ### The digits of an encoding (R129) -/

/-- The digits that `b40enc` writes, most significant first: a single 0 for the value 0. -/
def b40digits (v : Nat) : List Nat := if v = 0 then [0] else (Nat.digits 40 v).reverse

theorem b40digits_lt {v d : Nat} (hd : d ∈ b40digits v) : d < 40 := by
  rw [b40digits] at hd
  split at hd
  · rw [List.mem_singleton] at hd
    omega
  · exact Nat.digits_lt_base (by decide) (List.mem_reverse.1 hd)

theorem ofDigits_b40digits (v : Nat) : Nat.ofDigits 40 (b40digits v).reverse = v := by
  rw [b40digits]
  split
  · next hv => simp [hv]
  · rw [List.reverse_reverse, Nat.ofDigits_digits]

/-- A Base40 string is its digits as symbols of the alphabet. -/
theorem b40enc_eq_map {v : Nat} (A : List Word) (h : v < 2 ^ 256) :
    b40enc v A = (b40digits v).map fun d => A.getD d 0 := by
  by_cases hv : v = 0
  · rw [hv]; rfl
  · rw [b40enc_eq A hv h, b40digits, if_neg hv]

theorem b40enc_ne_nil {v : Nat} (A : List Word) (h : v < 2 ^ 256) : b40enc v A ≠ [] := by
  rw [b40enc_eq_map A h, ne_eq, List.map_eq_nil_iff, b40digits]
  split
  · simp
  · next hv => simpa [Nat.digits_eq_nil_iff_eq_zero] using hv

/-- Each digit has its entry in an alphabet of 40 symbols. -/
theorem b40enc_map_some {v : Nat} {A : List Word} (hA : A.length = 40) (h : v < 2 ^ 256) :
    (b40enc v A).map some = (b40digits v).map fun d => A[d]? := by
  rw [b40enc_eq_map A h, List.map_map]
  refine List.map_congr_left fun d hd => ?_
  have hlt : d < A.length := hA ▸ b40digits_lt hd
  simp [hlt]

theorem b40enc_fits {v : Nat} (A : List Word) (h : v < 2 ^ 256) : (b40enc v A).length ≤ 256 :=
  (b40enc_length_le A h).trans (by decide)

/-! ### `B40ENC` (R136) -/

/-- `B40ENC` with a validated alphabet writes the Base40 string of `OPA`. -/
theorem exec_b40enc_of_valid {s : State} {A : List Word} (hv : s.alphaValid = true) (hA : s.alphabet = .ok A) :
    exec .b40enc s = .next ((s.putStr (b40enc s.opa.toNat A)).succeed false) :=
  State.conclude_of_ok (by simp [hv, hA])

/-- Settles O44: the string is at most 49 symbols long, so that it fits `STR`, and its symbols are those of the
positional digits. -/
theorem baseFortyWritesThePositionalDigits : Obligations.BaseFortyWritesThePositionalDigits := by
  refine ⟨by decide, fun s hv => conclude_require_false hv, fun s A hv hA => ?_⟩
  obtain ⟨h40, -⟩ := State.alphabet_eq_ok.1 hA
  refine ⟨_, _, exec_b40enc_of_valid hv hA, s.putStr_written (b40enc_fits A s.opa.isLt), ?_⟩
  rw [b40enc_map_some h40 s.opa.isLt, b40digits]
  by_cases h0 : s.opa = 0
  · simp [h0]
  · have hne : s.opa.toNat ≠ 0 := fun h => h0 (BitVec.eq_of_toNat_eq h)
    rw [if_neg h0, if_neg hne]

/-! ### Decoding (R130) -/

/-- The positional value of a string against an alphabet, most significant symbol first. -/
def b40value (A S : List Word) : Nat := Nat.ofDigits 40 (S.reverse.map fun c => A.idxOf c)

/-- A string of alphabet symbols decodes to its positional value, where that fits a register. -/
theorem b40dec_of_mem {A S : List Word} (h : ∀ c ∈ S, c ∈ A) :
    b40dec (S.map some) A = (require (decide (b40value A S < 2 ^ 256)) .overflow 0 >>= fun _ => .ok (b40value A S)) := by
  rw [b40dec, ← List.map_reverse, b40scan_of_mem 0 0 fun c hc => h c (List.mem_reverse.1 hc), Nat.zero_add, pow_zero,
    one_mul]
  rfl

/-- The absent symbol of largest index is the first that the scan meets. -/
theorem b40dec_of_absent {A S : List Word} {j : Nat} (hj : j < S.length) (habsent : S[j] ∉ A)
    (hafter : ∀ c ∈ S.drop (j + 1), c ∈ A) :
    b40dec (S.map some) A = .error (.raise .symbolNotFound (BitVec.ofNat 32 j)) := by
  have hsplit : S.reverse = (S.drop (j + 1)).reverse ++ S[j] :: (S.take j).reverse := by
    conv_lhs => rw [show S = S.take j ++ S[j] :: S.drop (j + 1) by simp]
    simp
  have hnone : A.idxOf? S[j] = none := List.idxOf?_eq_none_iff.2 habsent
  have hrest : ((S.take j).reverse.map some).length = j := by simpa using hj.le
  obtain ⟨w, hw⟩ := b40scan_append (T := S[j] :: (S.take j).reverse) 0 0 fun c hc => hafter c (List.mem_reverse.1 hc)
  rw [b40dec, ← List.map_reverse, hsplit, hw, List.map_cons, b40scan, hnone, hrest]
  rfl

/-! ### `B40DEC` (R137) -/

/-- Past its length checks, with its operands written, `B40DEC` writes what the decoding answers. -/
theorem exec_b40dec_of_written {s : State} {A S : List Word} (hv : s.alphaValid = true) (hne : s.strLen.toNat ≠ 0)
    (hle : s.strLen.toNat ≤ 256) (hA : s.alphabet = .ok A) (hS : s.mem.readWords strBase s.strLen.toNat = .ok S) :
    exec .b40dec s = s.conclude (b40dec (S.map some) A >>= fun v => .ok (s.putRes v)) := by
  obtain ⟨hlen, hholds⟩ := Memory.readWords_ok hS
  have hne : s.strLen ≠ 0 := fun h => hne (congrArg BitVec.toNat h)
  have hle : s.strLen.toNat ≤ Config.strMax := hle
  show s.conclude _ = _
  rw [require_bind_of_true hv, require_bind_of_true (decide_eq_true hne), require_bind_of_true (decide_eq_true hle),
    hA, ok_bind, ← hlen, Memory.entries_of_holdsWords hholds]
  rfl

/-- A string of alphabet symbols whose value fits is decoded into `RES`. -/
theorem exec_b40dec_of_value {s : State} {A S : List Word} (hv : s.alphaValid = true) (hne : s.strLen.toNat ≠ 0)
    (hle : s.strLen.toNat ≤ 256) (hA : s.alphabet = .ok A) (hS : s.mem.readWords strBase s.strLen.toNat = .ok S)
    (hmem : ∀ c ∈ S, c ∈ A) (hfits : b40value A S < 2 ^ 256) :
    exec .b40dec s = .next ((s.putRes (b40value A S)).succeed false) := by
  rw [exec_b40dec_of_written hv hne hle hA hS, b40dec_of_mem hmem, require_bind_of_true (decide_eq_true hfits)]
  rfl

theorem State.putRes_toNat (s : State) {v : Nat} (h : v < 2 ^ 256) : (s.putRes v).res.toNat = v :=
  Nat.mod_eq_of_lt h

/-- Settles O45: the checks in the rule's order, then the scan from the last symbol on, then the range. -/
theorem baseFortyDecodesThePositionalValue : Obligations.BaseFortyDecodesThePositionalValue := by
  refine ⟨by decide, fun s hv => conclude_require_false hv, fun s hv h0 => ?empty, fun s hv hlong => ?tooLong,
    fun s A S hv hne hle hA hS => ⟨fun j hj habsent hafter => ?absent, fun hmem => ⟨fun hfits => ?value, fun hbig => ?overflow⟩⟩⟩
  case empty =>
    have h0 : ¬ s.strLen ≠ 0 := not_not_intro (BitVec.eq_of_toNat_eq h0)
    exact conclude_require_true hv (conclude_require_false (decide_eq_false h0))
  case tooLong =>
    have hne : s.strLen ≠ 0 := fun h => by simp [h] at hlong
    exact conclude_require_true hv (conclude_require_true (decide_eq_true hne)
      (conclude_require_false (decide_eq_false (Nat.not_le_of_gt hlong))))
  case absent =>
    rw [exec_b40dec_of_written hv hne hle hA hS]
    exact State.conclude_of_raise (bind_eq_error.2 (.inl (b40dec_of_absent hj habsent hafter)))
  case value =>
    exact ⟨_, exec_b40dec_of_value hv hne hle hA hS hmem hfits, State.succeeded_succeed _ _, rfl,
      s.putRes_toNat hfits⟩
  case overflow =>
    rw [exec_b40dec_of_written hv hne hle hA hS, b40dec_of_mem hmem]
    exact State.conclude_of_raise (bind_eq_error.2 (.inl (bind_eq_error.2
      (.inl (require_eq_error.2 ⟨decide_eq_false (Nat.not_lt_of_ge hbig), rfl⟩)))))

/-! ### Decoding an encoding (R133) -/

/-- The symbols of an encoding stand in the alphabet. -/
theorem b40enc_mem {v : Nat} {A : List Word} (hA : A.length = 40) (h : v < 2 ^ 256) : ∀ c ∈ b40enc v A, c ∈ A := by
  intro c hc
  rw [b40enc_eq_map A h, List.mem_map] at hc
  obtain ⟨d, hd, rfl⟩ := hc
  have hlt : d < A.length := hA ▸ b40digits_lt hd
  rw [List.getD_eq_getElem A 0 hlt]
  exact List.getElem_mem hlt

/-- In a list without duplicates an entry's first place is its own, so that the symbols give the digits back. -/
theorem b40value_b40enc {v : Nat} {A : List Word} (hA : A.length = 40) (hdistinct : A.Nodup) (h : v < 2 ^ 256) :
    b40value A (b40enc v A) = v := by
  have hdigits : (b40enc v A).map (fun c => A.idxOf c) = b40digits v := by
    rw [b40enc_eq_map A h, List.map_map]
    refine (List.map_congr_left fun d hd => ?_).trans (List.map_id _)
    have hlt : d < A.length := hA ▸ b40digits_lt hd
    rw [Function.comp_apply, List.getD_eq_getElem A 0 hlt]
    exact hdistinct.idxOf_getElem d hlt
  rw [b40value, List.map_reverse, hdigits, ofDigits_b40digits]

/-- A string that was written is what a command reads back. -/
theorem StringWritten.readWords {s t : State} {w : List Word} (h : StringWritten s t w) :
    t.mem.readWords strBase t.strLen.toNat = .ok w := by
  obtain ⟨-, -, hlen, hholds, -⟩ := h
  refine Memory.readWords_eq_ok_iff.2 ⟨hlen.symm, fun j hj => ?_⟩
  have hpad : j < (w ++ List.replicate (256 - w.length) 0).length := by simp; omega
  rw [hholds j hpad, List.getElem_append_left hj]

/-- Writing `STR` leaves the alphabet alone. -/
theorem StringWritten.alphabet_eq {s t : State} {w : List Word} (h : StringWritten s t w) :
    t.alphabet = s.alphabet := by
  obtain ⟨-, -, -, -, hother⟩ := h
  refine Memory.readWords_congr fun i hi => hother _ (.inl ?_)
  simp only [alphaBase, strBase, Config.alphaSize] at hi ⊢
  omega

/-- Settles O46: `B40DEC` reads back the string and the alphabet that `B40ENC` left. -/
theorem baseFortyRoundTripRestoresTheOperand : Obligations.BaseFortyRoundTripRestoresTheOperand := by
  intro s hheld hv
  obtain ⟨-, A, hA, hdistinct⟩ := hheld hv
  obtain ⟨h40, -⟩ := State.alphabet_eq_ok.1 hA
  have hopa := s.opa.isLt
  have hw := s.putStr_written (b40enc_fits A hopa)
  have ⟨_, _, hlen, _, _⟩ := hw
  have hvalue := b40value_b40enc h40 hdistinct hopa
  refine ⟨_, _, exec_b40enc_of_valid hv hA, exec_b40dec_of_value hv ?nonempty ?fits (hw.alphabet_eq.trans hA)
    hw.readWords (b40enc_mem h40 hopa) (hvalue.symm ▸ hopa), State.succeeded_succeed _ _, BitVec.eq_of_toNat_eq ?restored⟩
  case nonempty => exact hlen ▸ (List.length_pos_of_ne_nil (b40enc_ne_nil A hopa)).ne'
  case fits => exact hlen ▸ b40enc_fits A hopa
  case restored => rw [hvalue]; exact State.putRes_toNat _ hopa

/-! ### `B40H` (R131, R138) -/

/-- `B40H` of a 20-byte digest writes its padded Base40 string. -/
theorem exec_b40h_of_valid {s : State} {A : List Word} {h : List Byte} (tl : Byte) (hv : s.alphaValid = true)
    (hlen : s.digLen.toNat = 20) (hA : s.alphabet = .ok A) (hh : s.digString 20 = .ok h) :
    exec (.b40h tl) s = .next ((s.putStr (b40h h tl.toNat A)).succeed false) := by
  have hlen : s.digLen = 20 := BitVec.eq_of_toNat_eq hlen
  exact State.conclude_of_ok (by simp [hv, hlen, hA, hh])

/-- The value of a 20-byte digest fits a register. -/
theorem intBe_lt_of_digest {h : List Byte} (hh : h.length = 20) : intBe h < 2 ^ 256 :=
  (intBe_lt_two_pow h).trans (by rw [hh]; norm_num)

/-- Padding fills up to the target and no further. -/
theorem b40h_length (h : List Byte) (target : Nat) (A : List Word) :
    (b40h h target A).length = max target (b40enc (intBe h) A).length := by
  simp only [b40h, List.length_append, List.length_replicate]
  omega

/-- Settles O47: the target is a byte and the encoding has at most 49 symbols, so that the padded string fits `STR`
uncut. -/
theorem baseFortyHashPadsToTheTarget : Obligations.BaseFortyHashPadsToTheTarget := by
  refine ⟨fun tl => wordOf_eq_ofNat 0x53 tl, fun s tl hv => conclude_require_false hv, fun s tl hv hlen => ?length,
    fun s tl A h hv hlen hA hh => ?padded⟩
  case length =>
    have hbad : s.digLen ≠ 20 := fun h => hlen (congrArg BitVec.toNat h)
    exact conclude_require_true hv (conclude_require_false (decide_eq_false hbad))
  case padded =>
    obtain ⟨hbytes, -⟩ := Memory.readBytes_ok hh
    have htarget := tl.isLt
    have hnatural := b40enc_fits A (intBe_lt_of_digest hbytes)
    have hfits : (b40h h tl.toNat A).length ≤ 256 := by rw [b40h_length]; omega
    refine ⟨_, tl.toNat - (b40enc (intBe h) A).length, exec_b40h_of_valid tl hv hlen hA hh, s.putStr_written hfits, ?_⟩
    omega

end Sys2Proof.Machine

/-! SUPPORT. The completion of a command, said of all 21 at once (60_exceptions.md R143 to R151): the status it
reports, the errors it may name, what it leaves unchanged, and the interrupt it raises. -/

namespace Sys2Proof.Machine

/-! ### The status of a completion (R143, R144) -/

theorem Completed.status {i : Instr} {s t : State} (h : Completed i s t) :
    (∃ r, Succeeded t r) ∨ ∃ e info, e ≠ .none ∧ Failed t e info := by
  cases h with
  | success r _ => exact .inl ⟨r, State.succeeded_succeed _ r⟩
  | failure info he => exact .inr ⟨_, info, (raisedBy_in_use he).1, State.failed_fail _ _ info⟩

theorem Completed.donePend {i : Instr} {s t : State} (h : Completed i s t) : t.donePend = true := by
  cases h with
  | success _ _ => rfl
  | failure _ _ => rfl

theorem Completed.errcode {i : Instr} {s t : State} (h : Completed i s t) :
    t.errcode = .none ∨ t.errcode ∈ raisedBy i := by
  cases h with
  | success _ _ => exact .inl rfl
  | failure _ he => exact .inr he

/-- Settles O11: a due step is the completion of the command, whose status `Completed` gives, or that of an
illegal word, which is a failure. -/
theorem everyCompletionReportsItsStatus : Obligations.EveryCompletionReportsItsStatus := by
  refine ⟨fun i s t h => (exec_completed h).status, fun s t hb hl h => ?_⟩
  rcases step_cases h with ⟨i, -, -, -, hi⟩ | ⟨e, -, -, -, rfl⟩ | ⟨hidle | hwait, -⟩
  · exact (exec_completed hi).status
  · exact .inr ⟨.illegalCommand, s.lastcmd, by simp, s.failed_fail .illegalCommand s.lastcmd⟩
  · exact nomatch hb.symm.trans hidle
  · exact absurd hl hwait

/-- Settles O13: the errors are those `Completed` allows, and the numbers are checked code by code. -/
theorem errorsAreThoseOfTheTable : Obligations.ErrorsAreThoseOfTheTable := by
  refine ⟨fun i s t h => (exec_completed h).errcode, fun i hi => (raisedBy_in_use hi).2 rfl, fun e => ?_⟩
  cases e <;> simp [ErrCode.code]

/-! ### The frame of a completion (R146, R147) -/

theorem Memory.SameOutside.refl (m : Memory) (a n : Nat) : m.SameOutside m a n := fun _ _ => rfl

theorem storedBytes_of_writesDig {i : Instr} (h : writesDig i = true) : storedBytes i = (digBase, 32) := by
  have hne : i ≠ .pser := by rintro rfl; nomatch h
  rw [storedBytes, if_neg hne, if_pos h]

theorem storedBytes_of_writesStr {i : Instr} (h : writesStr i = true) : storedBytes i = (strBase, 1024) := by
  have hne : i ≠ .pser := by rintro rfl; nomatch h
  have hdig : writesDig i ≠ true := fun hd => by cases i <;> simp [writesDig, writesStr] at hd h
  rw [storedBytes, if_neg hne, if_neg hdig, if_pos h]

theorem writesPR_of_mem {i : Instr} (h : i ∈ [.padd, .pdbl] ∨ i ∈ [.smul, .derive]) :
    writesPR i = true := by
  simp only [List.mem_cons, List.not_mem_nil, or_false] at h
  rcases h with (rfl | rfl) | (rfl | rfl) <;> rfl

theorem OnlyStatus.succeed {s u : State} (h : OnlyStatus s u) (r : Bool) : OnlyStatus s (u.succeed r) := by
  rw [OnlyStatus] at h
  rw [h]; exact rfl

theorem OnlyStatus.fail {s u : State} (h : OnlyStatus s u) (e : ErrCode) (info : Word) :
    OnlyStatus s (u.fail e info) := by
  rw [OnlyStatus] at h
  rw [h]; exact rfl

/-- The frame of a command leaves the status out: reporting it changes nothing there. -/
theorem OnlyWriteSet.succeed {i : Instr} {s u : State} (h : OnlyWriteSet i s u) (r : Bool) :
    OnlyWriteSet i s (u.succeed r) :=
  ⟨OnlyStatus.succeed h.1 r, h.2⟩

theorem OnlyWriteSet.fail {i : Instr} {s u : State} (h : OnlyWriteSet i s u) (e : ErrCode) (info : Word) :
    OnlyWriteSet i s (u.fail e info) :=
  ⟨OnlyStatus.fail h.1 e info, h.2⟩

/-- The interrupt mask is in no command's write set. -/
theorem OnlyWriteSet.irqEn {i : Instr} {s t : State} (h : OnlyWriteSet i s t) : t.irqEn = s.irqEn := by
  obtain ⟨hframe, -⟩ := h
  rw [OnlyStatus] at hframe
  rw [hframe]

theorem Updated.onlyWriteSet {i : Instr} {s u : State} (h : Updated s i u) : OnlyWriteSet i s u := by
  cases h with
  | nothing _ => exact ⟨by simp [OnlyStatus], .refl _ _ _⟩
  | integer v hw => exact ⟨by simp [OnlyStatus, State.putRes, hw], .refl _ _ _⟩
  | point r hi =>
    have hw : writesPR i = true := writesPR_of_mem (.inl hi)
    exact ⟨by simp [OnlyStatus, State.putPR, hw], .refl _ _ _⟩
  | traced r tr hi _ =>
    have hw : writesPR i = true := writesPR_of_mem (.inr hi)
    have ht : i = .smul ∨ i = .derive := by simpa using hi
    exact ⟨by simp [OnlyStatus, State.putPR, State.putTrace, hw, ht], .refl _ _ _⟩
  | key => exact ⟨by simp [OnlyStatus], .refl _ _ _⟩
  | digest d hw =>
    refine ⟨by simp [OnlyStatus, State.putDig, hw], ?_⟩
    rw [storedBytes_of_writesDig hw]
    exact s.mem.write_padTo_sameOutside digBase 32 d
  | message m =>
    exact ⟨by simp [OnlyStatus, State.putMsg], s.mem.write_padTo_sameOutside msgBase 128 m⟩
  | string w hw =>
    refine ⟨by simp [OnlyStatus, State.putStr, hw], ?_⟩
    rw [storedBytes_of_writesStr hw]
    have h := s.mem.writeWords_sameOutside strBase (padTo 256 w)
    rwa [padTo_length] at h
  | alphabet _ _ => exact ⟨by simp [OnlyStatus], .refl _ _ _⟩

theorem State.afterFailure_onlyWriteSet (i : Instr) (s : State) : OnlyWriteSet i s (s.afterFailure i) := by
  cases i with
  | alphav => exact ⟨by simp [OnlyStatus, State.afterFailure], .refl _ _ _⟩
  | _ => exact ⟨by simp [OnlyStatus, State.afterFailure], .refl _ _ _⟩

theorem Completed.onlyWriteSet {i : Instr} {s t : State} (h : Completed i s t) : OnlyWriteSet i s t := by
  cases h with
  | success r hu => exact hu.onlyWriteSet.succeed r
  | failure info _ => exact (s.afterFailure_onlyWriteSet i).fail _ info

/-- Settles O14: each update touches the fields of its command's write set alone, a failure none but `ALPHAV`'s
flag, and the buffers are padded to their capacity, so a store ends with its buffer. -/
theorem commandsWriteOnlyTheirWriteSets : Obligations.CommandsWriteOnlyTheirWriteSets :=
  fun _ _ _ h => (exec_completed h).onlyWriteSet

/-! ### The interrupt (R151) -/

theorem State.irq_iff {s : State} : s.irq = true ↔ s.irqEn = true ∧ s.donePend = true := by
  simp [State.irq]

theorem Completed.irq {i : Instr} {s t : State} (h : Completed i s t) : t.irq = s.irqEn := by
  rw [State.irq, h.donePend, Bool.and_true, h.onlyWriteSet.irqEn]

/-- A host write that clears the pending bit is a write of 1 to `IRQ[0]` or a soft reset. -/
theorem State.hostWrite_clears_donePend {s : State} {a : Addr} {v : Word} (hs : s.donePend = true)
    (h : (s.hostWrite a v).donePend = false) :
    v.getLsbD 0 = true ∧ (locate a = .irq ∨ locate a = .ctrl) := by
  have cleared : (s.hostWrite a v).donePend ≠ s.donePend := by rw [h, hs]; exact Bool.false_ne_true
  rcases s.hostWrite_cases a v with ⟨hl, hv, -⟩ | ⟨-, -, e⟩ | ⟨hl, e⟩ | ⟨-, e⟩ | ⟨-, e⟩ | ⟨-, -, e⟩ |
    ⟨-, -, -, -, -, e⟩
  · exact ⟨hv, .inr hl⟩
  · exact absurd (congrArg State.donePend e) cleared
  · refine ⟨?_, .inl hl⟩
    simpa [e, hs] using h
  · exact absurd (congrArg State.donePend e) cleared
  · exact absurd (congrArg State.donePend e) cleared
  · exact absurd (congrArg State.donePend e) cleared
  · exact absurd (congrArg State.donePend (e.trans (s.store_frame v _))) cleared

/-- The events of a step that clears the pending bit: no completion is one. -/
theorem step_clears_donePend {s t : State} (h : step s = .next t) (hs : s.donePend = true)
    (ht : t.donePend = false) :
    (∃ rest, s.bus = .hardReset :: rest) ∨
      ∃ a v rest, s.bus = .write a v :: rest ∧ v.getLsbD 0 = true ∧ (locate a = .irq ∨ locate a = .ctrl) := by
  rcases step_cases h with ⟨i, -, -, -, hi⟩ | ⟨e, -, -, -, rfl⟩ | ⟨-, rfl⟩
  · exact nomatch (exec_completed hi).donePend.symm.trans ht
  · exact nomatch ht
  · rcases s.passCycle_cases with ⟨b, r, d, -, e⟩ | ⟨a, v, rest, hb, e⟩ | ⟨rest, hb, -⟩
    · rw [e] at ht
      exact nomatch hs.symm.trans ht
    · rw [e] at ht
      exact .inr ⟨a, v, rest, hb, State.hostWrite_clears_donePend (s := { s with latencyLeft := _, bus := rest }) hs ht⟩
    · exact .inl ⟨rest, hb⟩

/-- Settles O55: the output is the mask and the pending bit; a completion raises the one and leaves the other, and
the host's writes of the two act on the output at once. -/
theorem interruptFollowsMaskAndPending : Obligations.InterruptFollowsMaskAndPending := by
  intro s
  refine ⟨State.irq_iff, fun i t h => ⟨(exec_completed h).donePend, (exec_completed h).irq⟩,
    ⟨rfl, Bool.and_true s.irqEn⟩, fun a v hl hv => ?acknowledge, fun a v hl hv => ?mask,
    fun t => step_clears_donePend⟩
  case acknowledge => simp only [s.hostWrite_irq v hl, State.irq, hv, Bool.not_true, Bool.and_false]
  case mask => rw [s.hostWrite_ctrl hl hv]; rfl

end Sys2Proof.Machine

/-! The two resets: both leave the state after reset, but for the fields a reset does not touch and what a soft
reset may keep of the buffers, and that state has the values of the table (70_reset_and_hazards.md R160 to R163). -/

namespace Sys2Proof.Machine

/-! ### What each reset leaves (R162, R163) -/

theorem State.hostWrite_reset (s : State) {a : Addr} {v : Word} (h : locate a = .ctrl) (hv : v.getLsbD 0 = true) :
    s.hostWrite a v = s.softReset := by
  simp only [State.hostWrite, h, hv, if_true]

theorem State.softReset_eq (s : State) : s.softReset =
    { State.reset with mem := s.softReset.mem, bus := s.bus, rdata := s.rdata, draws := s.draws } := rfl

theorem State.passCycle_hardReset {s : State} {rest : List HostEvent} (h : s.bus = .hardReset :: rest) :
    s.passCycle = { State.reset with bus := rest, rdata := s.rdata, draws := s.draws } := by
  simp only [State.passCycle, State.hostCycle, h, State.hostEvent, State.resetEngine]

/-- A cycle in which no completion is due is the host's. -/
theorem step_of_not_due {s : State} (h : s.busy = false ∨ s.latencyLeft ≠ 0) : step s = .next s.passCycle := by
  simp only [step, State.due_eq_none.2 h]

/-! ### The table (R160) -/

/-- The empty memory reads 0 throughout `DIG`. -/
theorem Memory.read_nil_dig {i : Nat} (h : i < 32) : Memory.read [] (digBase + i) = some 0 := by
  have inside : digBase + i < digBase + Config.digMax := Nat.add_lt_add_left h _
  simp [Memory.read, Memory.unlisted, inside]

/-- The host's events, the read bus and the draws are in no row of the table, and of the memory only `DIG` is in
one; every other row is a field of `State.reset` or a word packed from its flags. -/
theorem resetValues_of_dig {m : Memory} (b : List HostEvent) (r : Word) (d : Nat)
    (dig : ∀ i, i < 32 → m.read (digBase + i) = some 0) :
    ResetValues { State.reset with mem := m, bus := b, rdata := r, draws := d } := by
  have status : State.reset.statusWord = 0 := by decide
  have ctrl : State.reset.ctrlWord = 0 := by decide
  have irq : State.reset.irqWord = 0 := by decide
  have ptag : State.reset.ptagWord = 0 := by decide
  exact ⟨rfl, ctrl, rfl, status, irq, rfl, rfl, rfl, rfl, rfl, rfl, rfl, rfl, rfl, rfl, rfl,
    rfl, rfl, rfl, rfl, rfl, rfl, ptag, rfl, rfl, rfl, dig, rfl, rfl⟩

/-- Settles O54: after a soft reset `DIG` reads 0 whether or not the other buffers stay, and after the reset input
the memory is empty. -/
theorem eitherResetGivesTheResetState : Obligations.EitherResetGivesTheResetState := by
  refine ⟨resetValues_of_dig _ _ _ fun _ => Memory.read_nil_dig, fun s a v rest => ⟨fun hl hv => ?soft,
    fun hb hd => ⟨s.passCycle, step_of_not_due hd, ?hard⟩⟩⟩
  case soft =>
    rw [s.hostWrite_reset hl hv, s.softReset_eq]
    exact resetValues_of_dig _ _ _ fun _ => s.softReset_dig
  case hard =>
    rw [State.passCycle_hardReset hb]
    exact resetValues_of_dig _ _ _ fun _ => Memory.read_nil_dig

end Sys2Proof.Machine

/-! The invariants of the memory and of the trace, and the four invariants at reset. -/

namespace Sys2Proof.Machine

/-! ### The memory (20_memory.md R58) -/

theorem State.afterFailure_mem (s : State) (i : Instr) : (s.afterFailure i).mem = s.mem := by
  cases i <;> rfl

/-- The updates of a command keep the canonical form: those that store a string write it as one. -/
theorem Updated.memoryHeld {i : Instr} {s u : State} (h : Updated s i u) (hs : s.MemoryHeld) : u.MemoryHeld := by
  cases h with
  | digest d _ => exact s.mem.wf_write _ _ hs
  | message m => exact s.mem.wf_write _ _ hs
  | string w _ => exact s.mem.wf_writeWords _ _ hs
  | _ => exact hs

theorem Completed.memoryHeld {i : Instr} {s t : State} (h : Completed i s t) (hs : s.MemoryHeld) :
    t.MemoryHeld := by
  cases h with
  | success result hu => exact hu.memoryHeld hs
  | failure info _ =>
    show (s.afterFailure i).mem.wf = true
    rw [s.afterFailure_mem i]
    exact hs

/-- A store to a buffer writes one word of memory, every other store none. -/
theorem State.store_memoryHeld {s : State} (v : Word) (l : Location) (hs : s.MemoryHeld) :
    (s.store v l).MemoryHeld := by
  cases l with
  | dig off | msg off | str off | alpha off => exact s.mem.wf_writeWord off v hs
  | big r j =>
    show (s.setBig r _).MemoryHeld
    rw [State.setBig_frame]
    exact hs
  | _ => exact hs

theorem State.hostWrite_memoryHeld {s : State} (a : Addr) (v : Word) (hs : s.MemoryHeld) :
    (s.hostWrite a v).MemoryHeld :=
  State.hostWrite_keeps (P := State.MemoryHeld) (State.softReset_wf hs) hs (State.store_memoryHeld v _ hs)
    fun _ _ _ => hs

/-- Settles O56: every change of the memory is a write of a byte string or a clearing, and both keep the canonical
form. -/
theorem stepKeepsTheMemoryCanonical : Obligations.StepKeepsTheMemoryCanonical := fun _ _ =>
  step_keeps (P := State.MemoryHeld) (fun hs h => h.memoryHeld hs) id State.hostWrite_memoryHeld
    (fun _ _ _ _ h => h) fun _ _ _ => Memory.wf_nil

/-! ### The trace (10_state.md R30, R34) -/

/-- The promise looks at the flag, the length and the records alone. -/
theorem State.TraceHeld.of_same_trace {s t : State} (hs : s.TraceHeld) (hv : t.traceValid = s.traceValid)
    (hl : t.traceLen = s.traceLen) (ht : t.trace = s.trace) : t.TraceHeld := by
  rw [State.TraceHeld, hv, hl, ht]
  exact hs

/-- Dropping the records meets the promise, and the length is then 0. -/
theorem traceHeld_of_dropped {t : State} (hv : t.traceValid = false) (hl : t.traceLen = 0) (ht : t.trace = []) :
    t.TraceHeld := by
  rw [State.TraceHeld, hv]
  exact ⟨hl, ht⟩

/-- A trace of 256 records is whole (43_scalar.md R105). -/
theorem State.putTrace_traceHeld (s : State) {tr : List TraceRecord} (h : tr.length = 256) :
    (s.putTrace tr).TraceHeld :=
  ⟨congrArg (BitVec.ofNat 9) h, h⟩

/-- The updates of a command keep the promise: all but those of `SMUL` and `DERIVE` leave the trace alone. -/
theorem Updated.traceHeld {i : Instr} {s u : State} (h : Updated s i u) (hs : s.TraceHeld) : u.TraceHeld := by
  cases h with
  | traced r tr _ hlen => exact State.putTrace_traceHeld _ hlen
  | _ => exact hs

theorem State.afterFailure_traceHeld {s : State} (i : Instr) (hs : s.TraceHeld) :
    (s.afterFailure i).TraceHeld := by
  cases i <;> exact hs

theorem Completed.traceHeld {i : Instr} {s t : State} (h : Completed i s t) (hs : s.TraceHeld) : t.TraceHeld := by
  cases h with
  | success result hu => exact (hu.traceHeld hs).of_same_trace rfl rfl rfl
  | failure info _ => exact (State.afterFailure_traceHeld i hs).of_same_trace rfl rfl rfl

/-- The issue of a word drops the trace or leaves it (60_exceptions.md R141). -/
theorem State.issue_traceHeld {s : State} (v : Word) (hs : s.TraceHeld) : (s.issue v).TraceHeld := by
  by_cases hc : clearsTrace v = true
  · exact traceHeld_of_dropped (if_pos hc) (if_pos hc) (if_pos hc)
  · exact hs.of_same_trace (if_neg hc) (if_neg hc) (if_neg hc)

theorem State.hostWrite_traceHeld {s : State} (a : Addr) (v : Word) (hs : s.TraceHeld) :
    (s.hostWrite a v).TraceHeld :=
  State.hostWrite_keeps (P := State.TraceHeld) (traceHeld_of_dropped rfl rfl rfl) (State.issue_traceHeld v hs)
    (by rw [State.store_frame]; exact hs) fun _ _ _ => hs

/-- Settles O59: a completed `SMUL` or `DERIVE` puts its 256 records, an issue or a reset drops them, and nothing
else touches the trace. -/
theorem stepKeepsTheTraceWhole : Obligations.StepKeepsTheTraceWhole := fun _ _ =>
  step_keeps (P := State.TraceHeld) (fun hs h => h.traceHeld hs) id State.hostWrite_traceHeld
    (fun _ _ _ _ h => h) fun _ _ _ => traceHeld_of_dropped rfl rfl rfl

/-! ### Reset -/

/-- Settles O60: after reset the memory is empty, no completion is reported, and neither validity flag is set. -/
theorem resetMeetsTheInvariants : Obligations.ResetMeetsTheInvariants :=
  ⟨Memory.wf_nil, reset_statusLegal, alphabetHeld_of_invalid rfl, traceHeld_of_dropped rfl rfl rfl⟩

end Sys2Proof.Machine

/-! The command lifecycle: the issue, the cycles of a running command, and what its completion may change
(60_exceptions.md R139 to R144). -/

namespace Sys2Proof.Machine

/-! ### Issue and completion (R141, R143) -/

/-- Settles O4: the legal words are encodings, and each of the three others fails one of the decoder's checks. -/
theorem wordsOfTheSpecDecode : Obligations.WordsOfTheSpecDecode :=
  ⟨decodeOfEncodeIsTheCommand .nop, decodeOfEncodeIsTheCommand .modexp, decodeOfEncodeIsTheCommand .pser,
    decodeOfEncodeIsTheCommand .derive, decodeOfEncodeIsTheCommand .chksum,
    decodeOfEncodeIsTheCommand (.b58chk 0x6F), decodeOfEncodeIsTheCommand (.b40h 31), rfl, rfl, rfl⟩

/-- Settles O5: the word in `LASTCMD` is due, and `step` dispatches on its decoding. -/
theorem stepRunsTheDecodedCommand : Obligations.StepRunsTheDecodedCommand := by
  intro s i hb hl hi
  simp only [step, State.due_eq_some.2 ⟨hb, hl, rfl⟩, hi]

/-- The two opcodes that drop the trace, as numbers. -/
theorem clearsTrace_iff {v : Word} : clearsTrace v = true ↔ v.toNat % 256 = 0x20 ∨ v.toNat % 256 = 0x21 := by
  have hop : (opcodeField v).toNat = v.toNat % 256 := by simp [opcodeField, BitVec.extractLsb'_toNat]
  rw [clearsTrace, decide_eq_true_eq, ← BitVec.toNat_inj, ← BitVec.toNat_inj, hop]
  rfl

/-- Settles O6: the write is `State.issue`, which finds the two opcodes by their field. -/
theorem idleCommandWriteIssues : Obligations.IdleCommandWriteIssues := by
  intro s v hb
  rw [State.hostWrite_cmdAddr v hb]
  simp only [← clearsTrace_iff]
  by_cases hc : clearsTrace v = true <;> simp [State.issue, hc]

/-- Settles O12: a failing command has left what `State.afterFailure` says, and an illegal word everything. -/
theorem failingCompletionWritesOnlyStatus : Obligations.FailingCompletionWritesOnlyStatus := by
  refine ⟨fun i s t h he => ?command, fun s hb hl hw => ?illegal⟩
  case command =>
    have hstate : (if i = .alphav then { s with alphaValid := false } else s) = s.afterFailure i := by
      cases i <;> rfl
    rw [hstate]
    cases exec_completed h with
    | success result hu => nomatch he
    | failure info hraised =>
      exact ⟨⟨_, info, (raisedBy_in_use hraised).1, State.failed_fail _ _ info⟩, State.onlyStatus_fail _ _ info⟩
  case illegal =>
    obtain ⟨e, he⟩ := exists_decode_eq_error hw
    exact ⟨s.illegal, step_of_decode_error hb hl he, s.failed_fail .illegalCommand s.lastcmd,
      s.onlyStatus_fail .illegalCommand s.lastcmd⟩

/-! ### The two transitions (R139) -/

theorem Completed.busy {i : Instr} {s t : State} (h : Completed i s t) : t.busy = false := by
  cases h with
  | success _ _ => rfl
  | failure _ _ => rfl

/-- An idle engine starts by no write but the issue. -/
theorem State.hostWrite_starts {s : State} {a : Addr} {v : Word} (hs : s.busy = false)
    (h : (s.hostWrite a v).busy = true) : locate a = .cmd ∧ (s.hostWrite a v).lastcmd = v := by
  have started : (s.hostWrite a v).busy ≠ s.busy := by rw [h, hs]; exact Bool.false_ne_true.symm
  rcases s.hostWrite_cases a v with ⟨-, -, e⟩ | ⟨-, -, e⟩ | ⟨-, e⟩ | ⟨-, e⟩ | ⟨hb, -⟩ | ⟨-, hl, e⟩ |
    ⟨-, -, -, -, -, e⟩
  · rw [e] at h
    exact nomatch h
  · exact absurd (congrArg State.busy e) started
  · exact absurd (congrArg State.busy e) started
  · exact absurd (congrArg State.busy e) started
  · exact nomatch hs.symm.trans hb
  · exact ⟨hl, by rw [e, State.issue_lastcmd]⟩
  · exact absurd (congrArg State.busy (e.trans (s.store_frame v _))) started

/-- A write to a running engine that does not reset it changes a flag of the host's at most. -/
theorem State.hostWrite_running {s : State} {a : Addr} {v : Word} (hb : s.busy = true)
    (hr : ¬ (locate a = .ctrl ∧ v.getLsbD 0 = true)) :
    ∃ en pend lost, s.hostWrite a v = { s with irqEn := en, donePend := pend, ovr := lost } := by
  rcases s.hostWrite_cases a v with ⟨hl, hv, -⟩ | ⟨-, -, e⟩ | ⟨-, e⟩ | ⟨-, e⟩ | ⟨-, e⟩ | ⟨hidle, -⟩ | ⟨hidle, -⟩
  · exact absurd ⟨hl, hv⟩ hr
  · exact ⟨_, s.donePend, s.ovr, e⟩
  · exact ⟨s.irqEn, _, s.ovr, e⟩
  · exact ⟨s.irqEn, s.donePend, s.ovr, e⟩
  · exact ⟨s.irqEn, s.donePend, _, e⟩
  · exact nomatch hb.symm.trans hidle
  · exact nomatch hb.symm.trans hidle

/-- What ends an idle phase is the issue: a completion leaves the engine idle, and a reset too. -/
theorem step_starts {s t : State} (h : step s = .next t) (hs : s.busy = false) (ht : t.busy = true) :
    ∃ a v rest, s.bus = .write a v :: rest ∧ locate a = .cmd ∧ t.lastcmd = v := by
  rcases step_cases h with ⟨i, hb, -⟩ | ⟨e, hb, -⟩ | ⟨-, rfl⟩
  · exact nomatch hs.symm.trans hb
  · exact nomatch hs.symm.trans hb
  · rcases s.passCycle_cases with ⟨b, r, d, -, e⟩ | ⟨a, v, rest, hbus, e⟩ | ⟨rest, -, e⟩ <;> rw [e] at ht ⊢
    · exact nomatch hs.symm.trans ht
    · exact ⟨a, v, rest, hbus, State.hostWrite_starts (s := { s with latencyLeft := _, bus := rest }) hs ht⟩
    · nomatch ht

/-- What ends a running phase is a completion that is due, or a reset. -/
theorem step_stops {s t : State} (h : step s = .next t) (hs : s.busy = true) (ht : t.busy = false) :
    s.latencyLeft = 0 ∨ (∃ rest, s.bus = .hardReset :: rest) ∨
      ∃ a v rest, s.bus = .write a v :: rest ∧ locate a = .ctrl ∧ v.getLsbD 0 = true := by
  rcases step_cases h with ⟨i, -, hl, -⟩ | ⟨e, -, hl, -⟩ | ⟨-, rfl⟩
  · exact .inl hl
  · exact .inl hl
  · rcases s.passCycle_cases with ⟨b, r, d, -, e⟩ | ⟨a, v, rest, hbus, e⟩ | ⟨rest, hbus, -⟩
    · rw [e] at ht
      exact nomatch hs.symm.trans ht
    · refine .inr (.inr ⟨a, v, rest, hbus, by_contra fun hr => ?_⟩)
      obtain ⟨en, pend, lost, hw⟩ :=
        State.hostWrite_running (s := { s with latencyLeft := s.latencyLeft - 1, bus := rest }) hs hr
      rw [e, hw] at ht
      exact nomatch hs.symm.trans ht
    · exact .inr (.inl ⟨rest, hbus⟩)

/-- Settles O8: each transition is the one of its lemma, the issue or an event that stops the command. -/
theorem idleAndRunningChangeOnlyByTheirEvents : Obligations.IdleAndRunningChangeOnlyByTheirEvents :=
  fun _ _ h => ⟨step_starts h, step_stops h⟩

/-! ### The cycles of a running command (R140, R142) -/

theorem noReset.tail {e : HostEvent} {rest : List HostEvent} (h : noReset (e :: rest)) : noReset rest :=
  fun e' he' => h e' (List.mem_cons_of_mem e he')

/-- A cycle of a running command that no reset abandons changes the host's flags and the model's own fields alone,
and leaves no reset to come. -/
theorem State.passCycle_running {s : State} (hb : s.busy = true) (hn : noReset s.bus) :
    ∃ en pend lost r d b, noReset b ∧ s.passCycle = { s with
      irqEn := en, donePend := pend, ovr := lost, rdata := r, draws := d, bus := b
      latencyLeft := s.latencyLeft - 1 } := by
  rcases s.passCycle_cases with ⟨b, r, d, hbus, e⟩ | ⟨a, v, rest, hbus, e⟩ | ⟨rest, hbus, -⟩
  · refine ⟨s.irqEn, s.donePend, s.ovr, r, d, b, ?_, e⟩
    rcases hbus with rfl | ⟨ev, -, -, hbus⟩
    · exact hn
    · exact (hbus ▸ hn).tail
  · rw [hbus] at hn
    have hr : ¬ (locate a = .ctrl ∧ v.getLsbD 0 = true) := hn (.write a v) List.mem_cons_self
    obtain ⟨en, pend, lost, hw⟩ :=
      State.hostWrite_running (s := { s with latencyLeft := s.latencyLeft - 1, bus := rest }) hb hr
    exact ⟨en, pend, lost, s.rdata, s.draws, rest, hn.tail, e.trans hw⟩
  · rw [hbus] at hn
    exact (hn .hardReset List.mem_cons_self).elim

/-- Settles O10: such a step is a cycle in which nothing completes. -/
theorem operandsHoldWhileACommandRuns : Obligations.OperandsHoldWhileACommandRuns := by
  intro s t hb hl hn h
  obtain rfl := Host.Outcome.next.inj ((step_of_not_due (.inr hl)).symm.trans h)
  obtain ⟨en, pend, lost, r, d, b, -, e⟩ := State.passCycle_running hb hn
  rw [e]

theorem run_succ_of_step {M : Host.Core} {s u : M.State} (h : M.step s = .next u) (n : Nat) :
    M.run (n + 1) s = M.run n u := by
  simp only [Host.Core.run, h]

/-- Settles O9, by induction on the cycles that still pass: each is a step that counts one of them and keeps the
command. -/
theorem runningCommandReachesItsCompletion : Obligations.RunningCommandReachesItsCompletion := by
  intro s hb hn
  induction hl : s.latencyLeft generalizing s with
  | zero => exact ⟨s, rfl, hb, hl, rfl⟩
  | succ n ih =>
    have hstep : step s = .next s.passCycle := step_of_not_due (.inr (by omega))
    obtain ⟨en, pend, lost, r, d, b, hrest, e⟩ := State.passCycle_running hb hn
    obtain ⟨t, hrun, hdue⟩ := ih s.passCycle (by rw [e]; exact hb) (by rw [e]; exact hrest) (by simp [e, hl])
    exact ⟨t, (run_succ_of_step (M := core) hstep n).trans hrun, by rwa [e] at hdue⟩

end Sys2Proof.Machine

/-! The stops of the 21 commands: none is refused, and a fault names an entry of a buffer that nothing has written
(70_reset_and_hazards.md R161). -/

namespace Sys2Proof.Machine

/-- A byte of the entry at `off` has not been written. -/
def Memory.Unwritten (m : Memory) (off : Nat) : Prop := ∃ d, d < 4 ∧ m.read (off + d) = none

/-- Every fault of the computation names an offset that satisfies `P`. -/
def Comp.FaultsAt {α : Type} (c : Comp α) (P : Nat → Prop) : Prop :=
  ∀ off, c = .error (.fault (.unwrittenEntry off)) → P off

/-! ### Faults of a computation -/

section FaultsAt

variable {α β : Type} {P : Nat → Prop}

theorem faultsAt_ok (a : α) : Comp.FaultsAt (.ok a) P := fun _ h => nomatch h

theorem faultsAt_bind {c : Comp α} {f : α → Comp β} (hc : c.FaultsAt P) (hf : ∀ a, (f a).FaultsAt P) :
    Comp.FaultsAt (c >>= f) P := fun off h => by
  rcases bind_eq_error.1 h with h | ⟨a, -, h⟩
  · exact hc off h
  · exact hf a off h

theorem faultsAt_of_raises {c : Comp α} (h : ∀ x, c = .error x → ∃ e info, x = .raise e info) :
    c.FaultsAt P := fun _ hx => by
  obtain ⟨e, info, hx⟩ := h _ hx
  nomatch hx

theorem faultsAt_require (ok : Bool) (e : ErrCode) (info : Word) : (require ok e info).FaultsAt P :=
  faultsAt_of_raises fun _ h => ⟨e, info, (require_eq_error.1 h).2⟩

/-- A completion faults where its computation does. -/
theorem faultsAt_of_conclude {s : State} {c : Comp State} {off : Nat} (hc : c.FaultsAt P)
    (h : s.conclude c = .fault (.unwrittenEntry off)) : P off :=
  hc off (State.conclude_eq_fault.1 h)

/-- A command whose result comes from a computation that never faults never does. -/
theorem conclude_ne_fault {s : State} {c : Comp α} {f : α → State} {off : Nat} (hc : c.FaultsAt fun _ => False) :
    s.conclude (c >>= fun r => .ok (f r)) ≠ .fault (.unwrittenEntry off) :=
  faultsAt_of_conclude (P := fun _ => False) (faultsAt_bind hc fun _ => faultsAt_ok _)

/-! ### The arithmetic never faults -/

theorem faultsAt_inv (info : Word) (k : Int) : (inv info k).FaultsAt P :=
  faultsAt_of_raises fun _ h => ⟨.divisionByZero, info, (inv_eq_error.1 h).2⟩

theorem faultsAt_modexp (b e m : Nat) : (modexp b e m).FaultsAt P := by
  unfold modexp
  split
  · exact faultsAt_of_raises fun _ h => ⟨.invalidModulus, 0, (Except.error.inj h).symm⟩
  · exact faultsAt_ok _

theorem faultsAt_pdbl (info : Word) (p : Point) : (pdbl info p).FaultsAt P :=
  faultsAt_of_raises fun _ h => ⟨.divisionByZero, info, pdbl_eq_error h⟩

theorem faultsAt_padd (info : Word) (p q : Point) : (padd info p q).FaultsAt P :=
  faultsAt_of_raises fun _ h => ⟨.divisionByZero, info, padd_eq_error h⟩

theorem faultsAt_pser (p : Point) : (pser p).FaultsAt P := by
  cases p with
  | inf => exact faultsAt_of_raises fun _ h => ⟨.malformedPublicKey, 0, (Except.error.inj h).symm⟩
  | aff x y => exact faultsAt_ok _

end FaultsAt

/-! ### Reads of the buffers -/

theorem Memory.unwritten_of_read {m : Memory} {off : Nat} (h : m.read off = none) : m.Unwritten off :=
  ⟨0, by decide, h⟩

theorem faultsAt_byteAt (m : Memory) (a : Nat) : (m.byteAt a).FaultsAt m.Unwritten := by
  intro off h
  cases hr : m.read a with
  | none =>
    rw [Memory.byteAt, hr] at h
    cases h
    exact Memory.unwritten_of_read hr
  | some b =>
    rw [Memory.byteAt, hr] at h
    nomatch h

theorem faultsAt_readBytes (m : Memory) (a n : Nat) : (m.readBytes a n).FaultsAt m.Unwritten := by
  intro off h
  obtain ⟨i, -, hx, hr⟩ := Memory.readBytes_error h
  cases hx
  exact Memory.unwritten_of_read hr

theorem faultsAt_readWords (m : Memory) (a n : Nat) : (m.readWords a n).FaultsAt m.Unwritten := by
  intro off h
  obtain ⟨i, -, hx, hr⟩ := Memory.readWords_error h
  cases hx
  exact Memory.readWord_eq_none hr

theorem faultsAt_message (s : State) : s.message.FaultsAt s.mem.Unwritten :=
  faultsAt_bind (faultsAt_require _ _ _) fun _ => faultsAt_readBytes _ _ _

theorem faultsAt_multiply (s : State) (B : Point) : (s.multiply B).FaultsAt s.mem.Unwritten := by
  intro off h
  rcases State.multiply_eq_error h with ⟨-, hx⟩ | ⟨-, -, hx⟩ | ⟨j, -, hx, hr⟩ | ⟨n, -, -, hx⟩ <;> cases hx
  exact Memory.readWord_eq_none hr

/-! ### Scans of symbol entries (notes/assumptions/7.md) -/

/-- An entry that reads nothing has a byte that nothing has written. -/
theorem Memory.unwritten_of_entries {m : Memory} {a n : Nat} {before after : List (Option Word)}
    (h : m.entries a n = before ++ none :: after) : m.Unwritten (a + 4 * before.length) := by
  have hentry : (m.entries a n)[before.length]? = some none := by simp [h]
  have hlt : before.length < n := by
    have hlen := congrArg List.length h
    simp [Memory.entries] at hlen
    omega
  refine Memory.readWord_eq_none ?_
  simpa [Memory.entries, hlt] using hentry

/-- The alphabet's scan faults at an unwritten entry, the one its count has come to. -/
theorem alphaScan_fault {seen : List Word} {j off : Nat} {es : List (Option Word)}
    (h : alphaScan seen j es = .error (.fault (.unwrittenEntry off))) :
    ∃ before after, es = before ++ none :: after ∧ off = alphaBase + 4 * (j + before.length) := by
  induction es generalizing seen j with
  | nil => nomatch h
  | cons entry es ih =>
    cases entry with
    | none =>
      cases h
      exact ⟨[], es, rfl, rfl⟩
    | some c =>
      rw [alphaScan] at h
      split at h
      · nomatch h
      · obtain ⟨before, after, rfl, rfl⟩ := ih h
        exact ⟨some c :: before, after, rfl, by rw [List.length_cons]; omega⟩

/-- The decoding scan faults at an unwritten entry, with as many entries below it as are still to scan. -/
theorem b40scan_fault {A : List Word} {es : List (Option Word)} {q v off : Nat}
    (h : b40scan A es q v = .error (.fault (.unwrittenEntry off))) :
    ∃ before after, es = before ++ none :: after ∧ off = strBase + 4 * after.length := by
  induction es generalizing q v with
  | nil => nomatch h
  | cons entry es ih =>
    cases entry with
    | none =>
      cases h
      exact ⟨[], es, rfl, rfl⟩
    | some c =>
      rw [b40scan] at h
      split at h
      · nomatch h
      · obtain ⟨before, after, rfl, rfl⟩ := ih h
        exact ⟨some c :: before, after, rfl, rfl⟩

theorem faultsAt_alphaCheck (m : Memory) (len n : Nat) :
    (alphaCheck len (m.entries alphaBase n)).FaultsAt m.Unwritten :=
  faultsAt_bind (faultsAt_require _ _ _) fun _ off h => by
    obtain ⟨before, after, hes, rfl⟩ := alphaScan_fault h
    rw [Nat.zero_add]
    exact Memory.unwritten_of_entries hes

theorem faultsAt_b40dec (m : Memory) (n : Nat) (A : List Word) :
    (b40dec (m.entries strBase n) A).FaultsAt m.Unwritten := by
  refine faultsAt_bind (fun off h => ?_) fun v => faultsAt_bind (faultsAt_require _ _ _) fun _ => faultsAt_ok v
  obtain ⟨before, after, hes, rfl⟩ := b40scan_fault h
  have horder : m.entries strBase n = after.reverse ++ none :: before.reverse := by
    simpa using congrArg List.reverse hes
  simpa using Memory.unwritten_of_entries horder

/-! ### The 21 commands -/

/-- The commands that read no buffer. -/
def bufferless : List Instr := [.nop, .fred, .modinv, .modexp, .oncurve, .padd, .pdbl, .pser, .keychk]

theorem exec_ne_refused (i : Instr) (s : State) (r : Refusal) : exec i s ≠ .refused r := by
  cases i with
  | nop | fred | oncurve => exact nofun
  | keychk =>
    show (if validScalar s.opa.toNat then _ else _) ≠ Host.Outcome.refused r
    split <;> exact nofun
  | _ => exact State.conclude_ne_refused _ _ r

/-- Where a command faults: the parts of its computation, in order, fault at unwritten entries or not at all. -/
theorem exec_fault {i : Instr} {s : State} {off : Nat} (h : exec i s = .fault (.unwrittenEntry off)) :
    s.mem.Unwritten off ∧ i ∉ bufferless := by
  cases i with
  | nop => nomatch h
  | fred => nomatch h
  | oncurve => nomatch h
  | keychk =>
    by_cases hv : validScalar s.opa.toNat = true
    · nomatch (if_pos hv).symm.trans h
    · nomatch (if_neg hv).symm.trans h
  | modinv => exact absurd h (conclude_ne_fault (faultsAt_inv _ _))
  | modexp => exact absurd h (conclude_ne_fault (faultsAt_modexp _ _ _))
  | padd => exact absurd h (conclude_ne_fault (faultsAt_padd _ _ _))
  | pdbl => exact absurd h (conclude_ne_fault (faultsAt_pdbl _ _))
  | pser => exact absurd h (conclude_ne_fault (faultsAt_pser _))
  | smul =>
    exact ⟨faultsAt_of_conclude (faultsAt_bind (faultsAt_multiply _ _) fun _ => faultsAt_ok _) h,
      by simp [bufferless]⟩
  | derive =>
    exact ⟨faultsAt_of_conclude (faultsAt_bind (faultsAt_multiply _ _) fun _ =>
      faultsAt_bind (faultsAt_require _ _ _) fun _ => faultsAt_ok _) h, by simp [bufferless]⟩
  | sha256 | rmd160 | chksum | b58enc =>
    exact ⟨faultsAt_of_conclude (faultsAt_bind (faultsAt_message s) fun _ => faultsAt_ok _) h,
      by simp [bufferless]⟩
  | hash160 =>
    exact ⟨faultsAt_of_conclude (faultsAt_bind (faultsAt_require _ _ _) fun _ =>
      faultsAt_bind (faultsAt_byteAt _ _) fun _ => faultsAt_bind (faultsAt_require _ _ _) fun _ =>
        faultsAt_bind (faultsAt_readBytes _ _ _) fun _ => faultsAt_ok _) h, by simp [bufferless]⟩
  | b58chk version =>
    exact ⟨faultsAt_of_conclude (faultsAt_bind (faultsAt_require _ _ _) fun _ =>
      faultsAt_bind (faultsAt_readBytes _ _ _) fun _ => faultsAt_ok _) h, by simp [bufferless]⟩
  | alphav =>
    exact ⟨faultsAt_of_conclude (faultsAt_bind (faultsAt_alphaCheck _ _ _) fun _ => faultsAt_ok _) h,
      by simp [bufferless]⟩
  | b40enc =>
    exact ⟨faultsAt_of_conclude (faultsAt_bind (faultsAt_require _ _ _) fun _ =>
      faultsAt_bind (faultsAt_readWords _ _ _) fun _ => faultsAt_ok _) h, by simp [bufferless]⟩
  | b40dec =>
    exact ⟨faultsAt_of_conclude (faultsAt_bind (faultsAt_require _ _ _) fun _ =>
      faultsAt_bind (faultsAt_require _ _ _) fun _ => faultsAt_bind (faultsAt_require _ _ _) fun _ =>
        faultsAt_bind (faultsAt_readWords _ _ _) fun _ =>
          faultsAt_bind (faultsAt_b40dec _ _ _) fun _ => faultsAt_ok _) h, by simp [bufferless]⟩
  | b40h target =>
    exact ⟨faultsAt_of_conclude (faultsAt_bind (faultsAt_require _ _ _) fun _ =>
      faultsAt_bind (faultsAt_require _ _ _) fun _ => faultsAt_bind (faultsAt_readWords _ _ _) fun _ =>
        faultsAt_bind (faultsAt_readBytes _ _ _) fun _ => faultsAt_ok _) h, by simp [bufferless]⟩

/-- `B58CHK` always completes: `DIG` has no unwritten byte (10_state.md R37). -/
theorem exec_b58chk_next (v : Byte) (s : State) : ∃ t, exec (.b58chk v) s = .next t := by
  by_cases h : s.digLen = 20
  · exact (exec_b58chk_of_digLen v h).imp fun _ ht => ht.1
  · exact (conclude_require_false (decide_eq_false h)).imp fun _ ht => ht.1

/-- Settles O15: the reads of the buffers are the only parts of a computation that fault. -/
theorem stopsNameUnwrittenEntries : Obligations.StopsNameUnwrittenEntries :=
  ⟨exec_ne_refused, fun _ _ _ => exec_fault, exec_b58chk_next⟩

end Sys2Proof.Machine

/-! The address map read in both directions (20_memory.md R47): every named location has one offset, and the rest is
reserved; and what a host read returns (R55, R57). -/

namespace Sys2Proof.Machine

/-! ### The offset of a location -/

/-- The byte offset of a location in the window (R47); nothing is said of the reserved ones, which are many. -/
def Location.offset : Location → Nat
  | .id => 0x00
  | .ctrl => 0x04
  | .cmd => 0x08
  | .status => 0x0C
  | .irq => 0x10
  | .msgLen => 0x14
  | .strLen => 0x18
  | .digLen => 0x1C
  | .alphaLen => 0x20
  | .traceLen => 0x24
  | .errinfo => 0x28
  | .big r j => r.offset + 4 * j
  | .ptag => 0x1C0
  | .dig off | .msg off | .alpha off | .str off => off
  | .trace r w => 0x4000 + 80 * r + 4 * w
  | .reserved => 0

theorem wordAddr_four_mul (a : Addr) : wordAddr (4 * a.toNat) = a := by
  have hlt := a.isLt
  refine BitVec.eq_of_toNat_eq ?_
  rw [wordAddr_toNat (by omega)]
  omega

/-- The 32 bytes of a 256-bit register start at its offset. -/
theorem offset_of_bigRegAt {off : Nat} {r : BigReg} (h : bigRegAt off = some r) : r.offset = off / 32 * 32 := by
  unfold bigRegAt at h
  split at h
  case h_12 => nomatch h
  all_goals
    obtain rfl := Option.some.inj h
    simp only [BigReg.offset]
    omega

/-- A named location has one offset. -/
theorem locate_offset {a : Addr} {l : Location} (h : locate a = l) (hl : l ≠ .reserved) :
    4 * a.toNat = l.offset := by
  rw [locate, locateOffset_eq] at h
  split at h
  · split at h <;> subst h
    case h_12 => exact absurd rfl hl
    all_goals assumption
  split at h
  · split at h
    · subst h
      have hoff := offset_of_bigRegAt ‹_›
      simp only [Location.offset]
      omega
    · exact absurd h.symm hl
  repeat' split at h
  all_goals subst h
  all_goals simp only [Location.offset]
  · assumption
  · omega
  · exact absurd rfl hl

/-- The locations of the map that are one word each, with their offsets. -/
def singleWords : List (Nat × Location) :=
  [(0x00, .id), (0x04, .ctrl), (0x08, .cmd), (0x0C, .status), (0x10, .irq), (0x14, .msgLen), (0x18, .strLen),
   (0x1C, .digLen), (0x20, .alphaLen), (0x24, .traceLen), (0x28, .errinfo), (0x1C0, .ptag)]

theorem locate_single_iff {a : Addr} {row : Nat × Location} (h : row ∈ singleWords) :
    locate a = row.2 ↔ 4 * a.toNat = row.1 := by
  have hrow : ∀ row ∈ singleWords, row.2 ≠ .reserved ∧ row.2.offset = row.1 ∧ locateOffset row.1 = row.2 := by
    decide
  obtain ⟨hl, hoff, hloc⟩ := hrow row h
  exact ⟨fun h => (locate_offset h hl).trans hoff, fun h => by rw [locate, h, hloc]⟩

/-- The 256-bit registers with their offsets. -/
def bigOffsets : List (BigReg × Nat) :=
  [(.k, 0x40), (.opa, 0x60), (.opb, 0x80), (.opm, 0xA0), (.res, 0xC0), (.p1x, 0x100), (.p1y, 0x120),
   (.p2x, 0x140), (.p2y, 0x160), (.prx, 0x180), (.pry, 0x1A0)]

theorem mem_bigOffsets {r : BigReg} {off : Nat} : (r, off) ∈ bigOffsets ↔ off = r.offset := by
  cases r <;> simp [bigOffsets, BigReg.offset]

theorem locate_big_iff {a : Addr} {r : BigReg} {j : Nat} :
    locate a = .big r j ↔ j < 8 ∧ ∃ off, 4 * a.toNat = off + 4 * j ∧ (r, off) ∈ bigOffsets := by
  constructor
  · intro h
    exact ⟨(locate_big h).1, r.offset, locate_offset h (by simp), mem_bigOffsets.2 rfl⟩
  · rintro ⟨hj, off, ha, hoff⟩
    rw [← wordAddr_four_mul a, ha, mem_bigOffsets.1 hoff, locate_bigReg r hj]

theorem locate_dig_iff {a : Addr} {off : Nat} :
    locate a = .dig off ↔ off = 4 * a.toNat ∧ 0x200 ≤ off ∧ off < 0x220 := by
  refine ⟨locate_dig, fun ⟨ha, h⟩ => ?_⟩
  rw [locate, ← ha, locateOffset_eq, if_neg (by omega), if_neg (by omega), if_neg (by omega), if_pos h]

theorem locate_msg_iff {a : Addr} {off : Nat} :
    locate a = .msg off ↔ off = 4 * a.toNat ∧ 0x400 ≤ off ∧ off < 0x480 := by
  refine ⟨locate_msg, fun ⟨ha, h⟩ => ?_⟩
  rw [locate, ← ha, locateOffset_eq, if_neg (by omega), if_neg (by omega), if_neg (by omega), if_neg (by omega),
    if_pos h]

theorem locate_alpha_iff {a : Addr} {off : Nat} :
    locate a = .alpha off ↔ off = 4 * a.toNat ∧ 0x800 ≤ off ∧ off < 0x900 := by
  refine ⟨locate_alpha, fun ⟨ha, h⟩ => ?_⟩
  rw [locate, ← ha, locateOffset_eq, if_neg (by omega), if_neg (by omega), if_neg (by omega), if_neg (by omega),
    if_neg (by omega), if_pos h]

theorem locate_str_iff {a : Addr} {off : Nat} :
    locate a = .str off ↔ off = 4 * a.toNat ∧ 0x1000 ≤ off ∧ off < 0x1400 := by
  refine ⟨locate_str, fun ⟨ha, h⟩ => ?_⟩
  rw [locate, ← ha, locateOffset_eq, if_neg (by omega), if_neg (by omega), if_neg (by omega), if_neg (by omega),
    if_neg (by omega), if_neg (by omega), if_pos h]

theorem locate_trace_iff {a : Addr} {r w : Nat} :
    locate a = .trace r w ↔ r < 256 ∧ w < 20 ∧ 4 * a.toNat = 0x4000 + 80 * r + 4 * w := by
  constructor
  · intro h
    obtain ⟨hr, hw⟩ := locate_trace h
    exact ⟨hr, hw, locate_offset h (by simp)⟩
  · rintro ⟨hr, hw, ha⟩
    rw [← wordAddr_four_mul a, ha, locate_record hr hw]

/-! ### The reserved offsets -/

/-- The gaps of the map, each with the offset after it. -/
def reservedRanges : List (Nat × Nat) :=
  [(0x2C, 0x40), (0xE0, 0x100), (0x1C4, 0x200), (0x220, 0x400), (0x480, 0x800), (0x900, 0x1000),
   (0x1400, 0x4000), (0x9000, 0x10000)]

/-- Among the 256-bit registers one block of 32 bytes is free. -/
theorem bigRegAt_eq_none_iff {off : Nat} (h : 0x40 ≤ off) (h' : off < 0x1C0) :
    bigRegAt off = none ↔ 0xE0 ≤ off ∧ off < 0x100 := by
  have hblock : off / 32 < 14 := by omega
  have hmap : ∀ q < 14, 2 ≤ q → (bigRegAt (32 * q) = none ↔ q = 7) := by decide
  have hdiv : bigRegAt off = bigRegAt (32 * (off / 32)) := by
    rw [bigRegAt, bigRegAt, Nat.mul_div_cancel_left _ (by decide)]
  rw [hdiv, hmap _ hblock (by omega)]
  omega

theorem locate_reserved_iff {a : Addr} :
    locate a = .reserved ↔ ∃ range ∈ reservedRanges, range.1 ≤ 4 * a.toNat ∧ 4 * a.toNat < range.2 := by
  have hlt : 4 * a.toNat < 0x10000 := addr_lt_window a
  simp only [reservedRanges, List.mem_cons, List.not_mem_nil, or_false, exists_eq_or_imp, exists_eq_left]
  by_cases hcontrol : 4 * a.toNat < 0x40
  · have hmap : ∀ n < 16, (locateOffset (4 * n) = .reserved ↔ 11 ≤ n) := by decide
    rw [locate, hmap _ (by omega)]
    omega
  by_cases hbig : 4 * a.toNat < 0x1C0
  · have hnone := bigRegAt_eq_none_iff (by omega) hbig
    rw [locate, locateOffset_eq, if_neg hcontrol, if_pos hbig]
    cases hr : bigRegAt (4 * a.toNat) <;> simp only [hr, reduceCtorEq, true_iff, false_iff] at hnone ⊢ <;> omega
  · rw [locate, locateOffset_eq, if_neg hcontrol, if_neg hbig]
    repeat' split
    all_goals simp only [reduceCtorEq, true_iff, false_iff]
    all_goals omega

/-! ### Host reads (R55, R57) -/

/-- A location that no running command writes is read as it is held, and a value it does not hold is drawn. -/
theorem State.hostRead_exact {s : State} {a : Addr}
    (h : s.busy = false ∨ inWriteSet s.command (locate a) = false) :
    (∀ w, s.held (locate a) = some w → (s.hostRead a).rdata = w ∧ (s.hostRead a).draws = s.draws) ∧
    (s.held (locate a) = none → (s.hostRead a).rdata = Config.draw s.draws) := by
  have hreadable : s.readable (locate a) = s.held (locate a) :=
    h.elim (s.readable_idle _) State.readable_of_not_inWriteSet
  rw [← hreadable]
  refine ⟨fun w hw => ?_, fun hn => ?_⟩
  · rw [State.hostRead_of_some hw]
    exact ⟨rfl, rfl⟩
  · rw [State.hostRead_of_none hn]

/-- A location that the running command writes is drawn. -/
theorem State.hostRead_inWriteSet {s : State} {a : Addr} (hb : s.busy = true)
    (hw : inWriteSet s.command (locate a) = true) : s.hostRead a =
      { s with rdata := Config.draw s.draws, draws := s.draws + 1 } :=
  State.hostRead_of_none (by simp [State.readable, hb, hw])

/-- Settles O52: a location and its offset determine each other, and a read is exact or a draw. -/
theorem hostReadReturnsTheHeldWord : Obligations.HostReadReturnsTheHeldWord := by
  refine ⟨fun a => ⟨fun _ => locate_single_iff, fun _ _ => locate_big_iff, fun _ => locate_dig_iff,
    fun _ => locate_msg_iff, fun _ => locate_alpha_iff, fun _ => locate_str_iff, fun _ _ => locate_trace_iff,
    locate_reserved_iff⟩, fun s a => ⟨?frame, State.hostRead_exact, fun hb hw => ?drawn, fun hl => ?reserved,
    fun hl => ?id, fun hl => ?cmd, fun hl => ?status, fun hl => ?ctrl, fun hl => ?irq⟩⟩
  case frame =>
    obtain ⟨r, d, e⟩ := s.hostRead_eq a
    rw [e]
  case drawn =>
    rw [State.hostRead_inWriteSet hb hw]
    exact ⟨rfl, rfl⟩
  case reserved => exact ((State.hostRead_exact (.inr (by rw [hl]; rfl))).1 0 (by rw [hl]; rfl)).1
  case id => exact State.rdata_control hl (by simp) rfl
  case cmd => exact State.rdata_control hl (by simp) rfl
  case status => exact State.rdata_control hl (by simp) rfl
  case ctrl => exact State.rdata_control hl (by simp) rfl
  case irq => exact State.rdata_control hl (by simp) rfl

end Sys2Proof.Machine
